-- ==== Sys2Proof/Word.lean ====
section
/-! DEFINITION. The data types of the machine's bits: 8-bit bytes and 16-bit words (spec 00_scope.md R6, R8). -/

namespace Sys2Proof

/-- The addressable unit, 8 bits (R6, R50). -/
abbrev Byte := BitVec 8

/-- Data, addresses, registers and instruction words are 16 bits; arithmetic on them is modulo 65,536 (R6, R8). -/
abbrev Word := BitVec 16

end Sys2Proof
end

