-- ==== Sys2Proof/Syntax.lean ====
section
/-! DEFINITION. The instructions: one constructor per row of spec/opcode_table.json, with their operands as the spec names
them (30_encoding.md R82, R83, R93). -/

namespace Sys2Proof

/-- The eight addressing modes, 0 to 7, with the source's names (R112, R114 to R120). -/
inductive Mode where
  | register | deferred | autoInc | autoIncDeferred | autoDec | autoDecDeferred | indexed | indexedDeferred
  deriving DecidableEq, Repr

/-- The eight general registers, 0 to 7; 6 is the stack pointer and 7 the program counter (R22). -/
inductive Reg where
  | r0 | r1 | r2 | r3 | r4 | r5 | sp | pc
  deriving DecidableEq, Repr

/-- A 6-bit operand specifier: a mode and a register (R82). -/
structure Specifier where
  mode : Mode
  reg : Reg
  deriving DecidableEq, Repr

/-- The 58 instructions of R93. `src` and `dst` are specifiers, `reg` a linkage register, `off` the 8-bit branch offset. -/
inductive Instr where
  /-- MOV (R161). -/
  | mov (src dst : Specifier)
  /-- MOVB (R162). -/
  | movb (src dst : Specifier)
  /-- CMP (R163). -/
  | cmp (src dst : Specifier)
  /-- CMPB (R164). -/
  | cmpb (src dst : Specifier)
  /-- BIT (R165). -/
  | bit (src dst : Specifier)
  /-- BITB (R166). -/
  | bitb (src dst : Specifier)
  /-- BIC (R167). -/
  | bic (src dst : Specifier)
  /-- BICB (R168). -/
  | bicb (src dst : Specifier)
  /-- BIS (R169). -/
  | bis (src dst : Specifier)
  /-- BISB (R170). -/
  | bisb (src dst : Specifier)
  /-- ADD (R171). -/
  | add (src dst : Specifier)
  /-- SUB (R172). -/
  | sub (src dst : Specifier)
  /-- CLR (R181). -/
  | clr (dst : Specifier)
  /-- CLRB (R182). -/
  | clrb (dst : Specifier)
  /-- COM (R183). -/
  | com (dst : Specifier)
  /-- COMB (R184). -/
  | comb (dst : Specifier)
  /-- INC (R185). -/
  | inc (dst : Specifier)
  /-- INCB (R186). -/
  | incb (dst : Specifier)
  /-- DEC (R187). -/
  | dec (dst : Specifier)
  /-- DECB (R188). -/
  | decb (dst : Specifier)
  /-- NEG (R189). -/
  | neg (dst : Specifier)
  /-- NEGB (R190). -/
  | negb (dst : Specifier)
  /-- ADC (R191). -/
  | adc (dst : Specifier)
  /-- ADCB (R192). -/
  | adcb (dst : Specifier)
  /-- SBC (R193). -/
  | sbc (dst : Specifier)
  /-- SBCB (R194). -/
  | sbcb (dst : Specifier)
  /-- TST (R195). -/
  | tst (dst : Specifier)
  /-- TSTB (R196). -/
  | tstb (dst : Specifier)
  /-- SWAB (R197). -/
  | swab (dst : Specifier)
  /-- CLC (R211). -/
  | clc
  /-- CLV (R212). -/
  | clv
  /-- CLZ (R213). -/
  | clz
  /-- CLN (R214). -/
  | cln
  /-- SEC (R215). -/
  | sec
  /-- SEV (R216). -/
  | sev
  /-- SEZ (R217). -/
  | sez
  /-- SEN (R218). -/
  | sen
  /-- BR (R221). -/
  | br (off : BitVec 8)
  /-- BNE (R222). -/
  | bne (off : BitVec 8)
  /-- BEQ (R223). -/
  | beq (off : BitVec 8)
  /-- BGE (R224). -/
  | bge (off : BitVec 8)
  /-- BLT (R225). -/
  | blt (off : BitVec 8)
  /-- BGT (R226). -/
  | bgt (off : BitVec 8)
  /-- BLE (R227). -/
  | ble (off : BitVec 8)
  /-- BPL (R228). -/
  | bpl (off : BitVec 8)
  /-- BMI (R229). -/
  | bmi (off : BitVec 8)
  /-- BHI (R230). -/
  | bhi (off : BitVec 8)
  /-- BLOS (R231). -/
  | blos (off : BitVec 8)
  /-- BVC (R232). -/
  | bvc (off : BitVec 8)
  /-- BVS (R233). -/
  | bvs (off : BitVec 8)
  /-- BCC, also BHIS (R234). -/
  | bcc (off : BitVec 8)
  /-- BCS, also BLO (R235). -/
  | bcs (off : BitVec 8)
  /-- JMP (R241). -/
  | jmp (dst : Specifier)
  /-- JSR (R242). -/
  | jsr (reg : Reg) (dst : Specifier)
  /-- RTS (R243). -/
  | rts (reg : Reg)
  /-- HALT (R250). -/
  | halt
  /-- WAIT (R251). -/
  | wait
  /-- RESET (R252). -/
  | reset
  deriving DecidableEq, Repr

end Sys2Proof
end

