-- ==== Sys2Proof/WellFormed.lean ====
section
/-! DEFINITION. Which instructions are well formed. The operand types admit exactly the values the fields of an instruction
word can hold, so one check remains: JMP and JSR take no register-direct operand (spec 30_encoding.md R98). -/

namespace Sys2Proof

/-- R98: JMP and JSR with destination mode 0 are illegal; every other combination of operands is an instruction (R95, R97). -/
def Instr.wellFormed : Instr → Bool
  | .jmp dst => dst.mode != .register
  | .jsr _ dst => dst.mode != .register
  | .mov _ _ | .movb _ _ | .cmp _ _ | .cmpb _ _ | .bit _ _ | .bitb _ _ | .bic _ _ | .bicb _ _ | .bis _ _ | .bisb _ _ => true
  | .add _ _ | .sub _ _ => true
  | .clr _ | .clrb _ | .com _ | .comb _ | .inc _ | .incb _ | .dec _ | .decb _ | .neg _ | .negb _ => true
  | .adc _ | .adcb _ | .sbc _ | .sbcb _ | .tst _ | .tstb _ | .swab _ => true
  | .clc | .clv | .clz | .cln | .sec | .sev | .sez | .sen => true
  | .br _ | .bne _ | .beq _ | .bge _ | .blt _ | .bgt _ | .ble _ | .bpl _ | .bmi _ | .bhi _ | .blos _ => true
  | .bvc _ | .bvs _ | .bcc _ | .bcs _ => true
  | .rts _ => true
  | .halt | .wait | .reset => true

end Sys2Proof
end

