-- ==== Sys2Proof/Decode.lean ====
section
/-! DEFINITION. The instruction word: its six fields, the decoder (the hierarchy of spec 30_encoding.md R84), the encoder
(the patterns of R83 and R93), the opcode map itself (R93), and what the word alone says of an instruction's width and length
(R85, R86). Extension words are no part of the decode (R80): the operand resolver reads them. -/

namespace Sys2Proof

/-! ## The six fields (R81) -/

/-- `f0`, the low register, bits 2:0. -/
def f0 (ir : Word) : BitVec 3 := ir.extractLsb' 0 3
/-- `f1`, the low mode, bits 5:3. -/
def f1 (ir : Word) : BitVec 3 := ir.extractLsb' 3 3
/-- `f2`, bits 8:6. -/
def f2 (ir : Word) : BitVec 3 := ir.extractLsb' 6 3
/-- `f3`, bits 11:9. -/
def f3 (ir : Word) : BitVec 3 := ir.extractLsb' 9 3
/-- `f4`, bits 14:12. -/
def f4 (ir : Word) : BitVec 3 := ir.extractLsb' 12 3
/-- `t`, the top bit, bit 15. -/
def topBit (ir : Word) : Bool := ir.getLsbD 15
/-- The branch offset, bits 7:0 (R83 format B, R87). -/
def branchOffset (ir : Word) : BitVec 8 := ir.extractLsb' 0 8

/-- The register a 3-bit field names (R22, R82). -/
def Reg.ofBits (b : BitVec 3) : Reg :=
  match b.toNat with
  | 0 => .r0 | 1 => .r1 | 2 => .r2 | 3 => .r3 | 4 => .r4 | 5 => .r5 | 6 => .sp | _ => .pc

/-- The number of a register (R22). -/
def Reg.bits : Reg → BitVec 3
  | .r0 => 0 | .r1 => 1 | .r2 => 2 | .r3 => 3 | .r4 => 4 | .r5 => 5 | .sp => 6 | .pc => 7

/-- The addressing mode a 3-bit field names (R82, R112). -/
def Mode.ofBits (b : BitVec 3) : Mode :=
  match b.toNat with
  | 0 => .register | 1 => .deferred | 2 => .autoInc | 3 => .autoIncDeferred
  | 4 => .autoDec | 5 => .autoDecDeferred | 6 => .indexed | _ => .indexedDeferred

/-- The number of a mode (R112). -/
def Mode.bits : Mode → BitVec 3
  | .register => 0 | .deferred => 1 | .autoInc => 2 | .autoIncDeferred => 3
  | .autoDec => 4 | .autoDecDeferred => 5 | .indexed => 6 | .indexedDeferred => 7

/-- The destination specifier `IR[5:0]`, mode `f1`, register `f0` (R82). -/
def dstSpecifier (ir : Word) : Specifier := ⟨Mode.ofBits (f1 ir), Reg.ofBits (f0 ir)⟩

/-- The source specifier `IR[11:6]`, mode `f3`, register `f2` (R82). -/
def srcSpecifier (ir : Word) : Specifier := ⟨Mode.ofBits (f3 ir), Reg.ofBits (f2 ir)⟩

/-! ## The decoder (R84) -/

/-- Why a word is no instruction, by its place in the hierarchy of R84 (the ranges of R96). -/
inductive Reject where
  /-- `f4` = 0, `f3` = 0, `t` = 0, `f2` = 0 and the word is none of 000000, 000001, 000005. -/
  | controlSpace
  /-- 000210 to 000277 outside the eight condition-code words. -/
  | conditionCodeSpace
  /-- `f4` = 0, `f3` = 4, `t` = 1: 104000 to 104777. -/
  | trapSpace
  /-- `f4` = 0, `f3` = 6 or 7: 006000 to 007777 and 106000 to 107777. -/
  | shiftSpace
  /-- `f4` = 7: 070000 to 077777 and 170000 to 177777. -/
  | extendedSpace
  /-- Fewer than two bytes are left to decode. -/
  | truncated
  deriving DecidableEq, Repr

/-- What the decoder answers on a word. -/
inductive Decoded where
  | instr (i : Instr)
  | reject (why : Reject)
  deriving DecidableEq, Repr

/-- `f4` = 0, `f3` = 0, `t` = 0, `f2` = 2: RTS and the condition-code words (R84, R93 rows 30 to 37 and 55). -/
def decodeReturnOrFlags (ir : Word) : Decoded :=
  if f1 ir = 0 then .instr (.rts (Reg.ofBits (f0 ir)))
  else if ir = 0o000241 then .instr .clc
  else if ir = 0o000242 then .instr .clv
  else if ir = 0o000244 then .instr .clz
  else if ir = 0o000250 then .instr .cln
  else if ir = 0o000261 then .instr .sec
  else if ir = 0o000262 then .instr .sev
  else if ir = 0o000264 then .instr .sez
  else if ir = 0o000270 then .instr .sen
  else .reject .conditionCodeSpace

/-- `f4` = 0, `f3` = 0, `t` = 0 (R84). JMP is decoded with every mode; mode 0 faults by its own rule (R93, R98). -/
def decodeControl (ir : Word) : Decoded :=
  match (f2 ir).toNat with
  | 0 =>
    if ir = 0o000000 then .instr .halt
    else if ir = 0o000001 then .instr .wait
    else if ir = 0o000005 then .instr .reset
    else .reject .controlSpace
  | 1 => .instr (.jmp (dstSpecifier ir))
  | 2 => decodeReturnOrFlags ir
  | 3 => .instr (.swab (dstSpecifier ir))
  | _ => .instr (.br (branchOffset ir))

/-- One of a pair of branches, the first when `IR[8]` = 0 (R84, R236). -/
def branchPair (first second : BitVec 8 → Instr) (ir : Word) : Decoded :=
  .instr ((if ir.getLsbD 8 then second else first) (branchOffset ir))

/-- `f4` = 0, `f3` = 5: the single-operand instructions, byte form when `t` = 1 (R84). -/
def decodeSingle (ir : Word) : Decoded :=
  let d := dstSpecifier ir
  match (f2 ir).toNat, topBit ir with
  | 0, false => .instr (.clr d) | 0, true => .instr (.clrb d)
  | 1, false => .instr (.com d) | 1, true => .instr (.comb d)
  | 2, false => .instr (.inc d) | 2, true => .instr (.incb d)
  | 3, false => .instr (.dec d) | 3, true => .instr (.decb d)
  | 4, false => .instr (.neg d) | 4, true => .instr (.negb d)
  | 5, false => .instr (.adc d) | 5, true => .instr (.adcb d)
  | 6, false => .instr (.sbc d) | 6, true => .instr (.sbcb d)
  | _, false => .instr (.tst d) | _, true => .instr (.tstb d)

/-- `f4` = 0: the single-operand and control class (R84). JSR is decoded with every mode, as JMP is. -/
def decodeClassZero (ir : Word) : Decoded :=
  match (f3 ir).toNat, topBit ir with
  | 0, false => decodeControl ir
  | 1, false => branchPair .bne .beq ir
  | 2, false => branchPair .bge .blt ir
  | 3, false => branchPair .bgt .ble ir
  | 0, true => branchPair .bpl .bmi ir
  | 1, true => branchPair .bhi .blos ir
  | 2, true => branchPair .bvc .bvs ir
  | 3, true => branchPair .bcc .bcs ir
  | 4, false => .instr (.jsr (Reg.ofBits (f2 ir)) (dstSpecifier ir))
  | 4, true => .reject .trapSpace
  | 5, _ => decodeSingle ir
  | _, _ => .reject .shiftSpace

/-- The decoder: a total function of the instruction word alone (R84, R142). -/
def decodeWord (ir : Word) : Decoded :=
  let s := srcSpecifier ir
  let d := dstSpecifier ir
  match (f4 ir).toNat, topBit ir with
  | 0, _ => decodeClassZero ir
  | 1, false => .instr (.mov s d) | 1, true => .instr (.movb s d)
  | 2, false => .instr (.cmp s d) | 2, true => .instr (.cmpb s d)
  | 3, false => .instr (.bit s d) | 3, true => .instr (.bitb s d)
  | 4, false => .instr (.bic s d) | 4, true => .instr (.bicb s d)
  | 5, false => .instr (.bis s d) | 5, true => .instr (.bisb s d)
  | 6, false => .instr (.add s d) | 6, true => .instr (.sub s d)
  | _, _ => .reject .extendedSpace

/-- What the decoder answers on a stream of bytes: the instruction of its first word and the bytes that follow it, which the
operand resolver may still consume (R80). -/
inductive DecodedBytes where
  | instr (i : Instr) (rest : List Byte)
  | reject (why : Reject)
  deriving DecidableEq, Repr

/-- The decoder on bytes in memory order: the word is little-endian (R51). -/
def decode : List Byte → DecodedBytes
  | lo :: hi :: rest =>
    match decodeWord (hi ++ lo) with
    | .instr i => .instr i rest
    | .reject why => .reject why
  | _ => .reject .truncated

/-! ## The encoder (R83, R93) -/

/-- The word made of the six fields (R81). -/
def wordOfFields (t : BitVec 1) (b4 b3 b2 b1 b0 : BitVec 3) : Word := t ++ b4 ++ b3 ++ b2 ++ b1 ++ b0

/-- Format D: `bxxxssssssdddddd`. -/
def formatD (t : BitVec 1) (op : BitVec 3) (s d : Specifier) : Word :=
  wordOfFields t op s.mode.bits s.reg.bits d.mode.bits d.reg.bits

/-- Format S: `b000101xxxdddddd`. -/
def formatS (t : BitVec 1) (op : BitVec 3) (d : Specifier) : Word := wordOfFields t 0 5 op d.mode.bits d.reg.bits

/-- Format S': `0000000xxxdddddd`. -/
def formatS' (op : BitVec 3) (d : Specifier) : Word := wordOfFields 0 0 0 op d.mode.bits d.reg.bits

/-- Format J: `0000100rrrdddddd`. -/
def formatJ (r : Reg) (d : Specifier) : Word := wordOfFields 0 0 4 r.bits d.mode.bits d.reg.bits

/-- Format T: `0000000010000rrr`. -/
def formatT (r : Reg) : Word := wordOfFields 0 0 0 2 0 r.bits

/-- Format B: the opcode byte above the offset, `x0000xxxoooooooo`. -/
def formatB (op off : BitVec 8) : Word := op ++ off

/-- The instruction word of an instruction (R93). -/
def encodeWord : Instr → Word
  | .mov s d => formatD 0 1 s d
  | .movb s d => formatD 1 1 s d
  | .cmp s d => formatD 0 2 s d
  | .cmpb s d => formatD 1 2 s d
  | .bit s d => formatD 0 3 s d
  | .bitb s d => formatD 1 3 s d
  | .bic s d => formatD 0 4 s d
  | .bicb s d => formatD 1 4 s d
  | .bis s d => formatD 0 5 s d
  | .bisb s d => formatD 1 5 s d
  | .add s d => formatD 0 6 s d
  | .sub s d => formatD 1 6 s d
  | .clr d => formatS 0 0 d
  | .clrb d => formatS 1 0 d
  | .com d => formatS 0 1 d
  | .comb d => formatS 1 1 d
  | .inc d => formatS 0 2 d
  | .incb d => formatS 1 2 d
  | .dec d => formatS 0 3 d
  | .decb d => formatS 1 3 d
  | .neg d => formatS 0 4 d
  | .negb d => formatS 1 4 d
  | .adc d => formatS 0 5 d
  | .adcb d => formatS 1 5 d
  | .sbc d => formatS 0 6 d
  | .sbcb d => formatS 1 6 d
  | .tst d => formatS 0 7 d
  | .tstb d => formatS 1 7 d
  | .swab d => formatS' 3 d
  | .clc => 0o000241
  | .clv => 0o000242
  | .clz => 0o000244
  | .cln => 0o000250
  | .sec => 0o000261
  | .sev => 0o000262
  | .sez => 0o000264
  | .sen => 0o000270
  | .br off => formatB 0x01 off
  | .bne off => formatB 0x02 off
  | .beq off => formatB 0x03 off
  | .bge off => formatB 0x04 off
  | .blt off => formatB 0x05 off
  | .bgt off => formatB 0x06 off
  | .ble off => formatB 0x07 off
  | .bpl off => formatB 0x80 off
  | .bmi off => formatB 0x81 off
  | .bhi off => formatB 0x82 off
  | .blos off => formatB 0x83 off
  | .bvc off => formatB 0x84 off
  | .bvs off => formatB 0x85 off
  | .bcc off => formatB 0x86 off
  | .bcs off => formatB 0x87 off
  | .jmp d => formatS' 1 d
  | .jsr r d => formatJ r d
  | .rts r => formatT r
  | .halt => 0o000000
  | .wait => 0o000001
  | .reset => 0o000005

/-- The bytes of an instruction's word in memory order, little-endian (R51, R80). -/
def encode (i : Instr) : List Byte := [(encodeWord i).extractLsb' 0 8, (encodeWord i).extractLsb' 8 8]

/-! ## The opcode map (R93) -/

/-- `match` and `mask` of a row of R93: a word selects the row exactly when `IR and mask = match`. -/
structure OpcodeRow where
  pattern : Word
  mask : Word
  deriving DecidableEq, Repr

/-- The row of R93 that belongs to an instruction. -/
def Instr.opcodeRow : Instr → OpcodeRow
  | .mov _ _ => ⟨0x1000, 0xF000⟩
  | .movb _ _ => ⟨0x9000, 0xF000⟩
  | .cmp _ _ => ⟨0x2000, 0xF000⟩
  | .cmpb _ _ => ⟨0xA000, 0xF000⟩
  | .bit _ _ => ⟨0x3000, 0xF000⟩
  | .bitb _ _ => ⟨0xB000, 0xF000⟩
  | .bic _ _ => ⟨0x4000, 0xF000⟩
  | .bicb _ _ => ⟨0xC000, 0xF000⟩
  | .bis _ _ => ⟨0x5000, 0xF000⟩
  | .bisb _ _ => ⟨0xD000, 0xF000⟩
  | .add _ _ => ⟨0x6000, 0xF000⟩
  | .sub _ _ => ⟨0xE000, 0xF000⟩
  | .clr _ => ⟨0x0A00, 0xFFC0⟩
  | .clrb _ => ⟨0x8A00, 0xFFC0⟩
  | .com _ => ⟨0x0A40, 0xFFC0⟩
  | .comb _ => ⟨0x8A40, 0xFFC0⟩
  | .inc _ => ⟨0x0A80, 0xFFC0⟩
  | .incb _ => ⟨0x8A80, 0xFFC0⟩
  | .dec _ => ⟨0x0AC0, 0xFFC0⟩
  | .decb _ => ⟨0x8AC0, 0xFFC0⟩
  | .neg _ => ⟨0x0B00, 0xFFC0⟩
  | .negb _ => ⟨0x8B00, 0xFFC0⟩
  | .adc _ => ⟨0x0B40, 0xFFC0⟩
  | .adcb _ => ⟨0x8B40, 0xFFC0⟩
  | .sbc _ => ⟨0x0B80, 0xFFC0⟩
  | .sbcb _ => ⟨0x8B80, 0xFFC0⟩
  | .tst _ => ⟨0x0BC0, 0xFFC0⟩
  | .tstb _ => ⟨0x8BC0, 0xFFC0⟩
  | .swab _ => ⟨0x00C0, 0xFFC0⟩
  | .clc => ⟨0x00A1, 0xFFFF⟩
  | .clv => ⟨0x00A2, 0xFFFF⟩
  | .clz => ⟨0x00A4, 0xFFFF⟩
  | .cln => ⟨0x00A8, 0xFFFF⟩
  | .sec => ⟨0x00B1, 0xFFFF⟩
  | .sev => ⟨0x00B2, 0xFFFF⟩
  | .sez => ⟨0x00B4, 0xFFFF⟩
  | .sen => ⟨0x00B8, 0xFFFF⟩
  | .br _ => ⟨0x0100, 0xFF00⟩
  | .bne _ => ⟨0x0200, 0xFF00⟩
  | .beq _ => ⟨0x0300, 0xFF00⟩
  | .bge _ => ⟨0x0400, 0xFF00⟩
  | .blt _ => ⟨0x0500, 0xFF00⟩
  | .bgt _ => ⟨0x0600, 0xFF00⟩
  | .ble _ => ⟨0x0700, 0xFF00⟩
  | .bpl _ => ⟨0x8000, 0xFF00⟩
  | .bmi _ => ⟨0x8100, 0xFF00⟩
  | .bhi _ => ⟨0x8200, 0xFF00⟩
  | .blos _ => ⟨0x8300, 0xFF00⟩
  | .bvc _ => ⟨0x8400, 0xFF00⟩
  | .bvs _ => ⟨0x8500, 0xFF00⟩
  | .bcc _ => ⟨0x8600, 0xFF00⟩
  | .bcs _ => ⟨0x8700, 0xFF00⟩
  | .jmp _ => ⟨0x0040, 0xFFC0⟩
  | .jsr _ _ => ⟨0x0800, 0xFE00⟩
  | .rts _ => ⟨0x0080, 0xFFF8⟩
  | .halt => ⟨0x0000, 0xFFFF⟩
  | .wait => ⟨0x0001, 0xFFFF⟩
  | .reset => ⟨0x0005, 0xFFFF⟩

/-- Whether a word selects a row of the opcode map (R93). -/
def OpcodeRow.selects (row : OpcodeRow) (ir : Word) : Bool := ir &&& row.mask == row.pattern

/-- The opcode map of R93: its 58 rows in the order of the table. -/
def opcodeMap : List OpcodeRow :=
  [⟨0x1000, 0xF000⟩, ⟨0x9000, 0xF000⟩, ⟨0x2000, 0xF000⟩, ⟨0xA000, 0xF000⟩, ⟨0x3000, 0xF000⟩, ⟨0xB000, 0xF000⟩,
   ⟨0x4000, 0xF000⟩, ⟨0xC000, 0xF000⟩, ⟨0x5000, 0xF000⟩, ⟨0xD000, 0xF000⟩, ⟨0x6000, 0xF000⟩, ⟨0xE000, 0xF000⟩] ++
  [⟨0x0A00, 0xFFC0⟩, ⟨0x8A00, 0xFFC0⟩, ⟨0x0A40, 0xFFC0⟩, ⟨0x8A40, 0xFFC0⟩, ⟨0x0A80, 0xFFC0⟩, ⟨0x8A80, 0xFFC0⟩,
   ⟨0x0AC0, 0xFFC0⟩, ⟨0x8AC0, 0xFFC0⟩, ⟨0x0B00, 0xFFC0⟩, ⟨0x8B00, 0xFFC0⟩, ⟨0x0B40, 0xFFC0⟩, ⟨0x8B40, 0xFFC0⟩] ++
  [⟨0x0B80, 0xFFC0⟩, ⟨0x8B80, 0xFFC0⟩, ⟨0x0BC0, 0xFFC0⟩, ⟨0x8BC0, 0xFFC0⟩, ⟨0x00C0, 0xFFC0⟩, ⟨0x00A1, 0xFFFF⟩,
   ⟨0x00A2, 0xFFFF⟩, ⟨0x00A4, 0xFFFF⟩, ⟨0x00A8, 0xFFFF⟩, ⟨0x00B1, 0xFFFF⟩, ⟨0x00B2, 0xFFFF⟩, ⟨0x00B4, 0xFFFF⟩] ++
  [⟨0x00B8, 0xFFFF⟩, ⟨0x0100, 0xFF00⟩, ⟨0x0200, 0xFF00⟩, ⟨0x0300, 0xFF00⟩, ⟨0x0400, 0xFF00⟩, ⟨0x0500, 0xFF00⟩,
   ⟨0x0600, 0xFF00⟩, ⟨0x0700, 0xFF00⟩, ⟨0x8000, 0xFF00⟩, ⟨0x8100, 0xFF00⟩, ⟨0x8200, 0xFF00⟩, ⟨0x8300, 0xFF00⟩] ++
  [⟨0x8400, 0xFF00⟩, ⟨0x8500, 0xFF00⟩, ⟨0x8600, 0xFF00⟩, ⟨0x8700, 0xFF00⟩, ⟨0x0040, 0xFFC0⟩, ⟨0x0800, 0xFE00⟩,
   ⟨0x0080, 0xFFF8⟩, ⟨0x0000, 0xFFFF⟩, ⟨0x0001, 0xFFFF⟩, ⟨0x0005, 0xFFFF⟩]

/-! ## Width and length (R80, R85, R86) -/

/-- The 13 byte instructions of R85, for which the decoder sets `BYTEMODE`. -/
def Instr.isByte : Instr → Bool
  | .mov _ _ => false
  | .movb _ _ => true
  | .cmp _ _ => false
  | .cmpb _ _ => true
  | .bit _ _ => false
  | .bitb _ _ => true
  | .bic _ _ => false
  | .bicb _ _ => true
  | .bis _ _ => false
  | .bisb _ _ => true
  | .add _ _ => false
  | .sub _ _ => false
  | .clr _ => false
  | .clrb _ => true
  | .com _ => false
  | .comb _ => true
  | .inc _ => false
  | .incb _ => true
  | .dec _ => false
  | .decb _ => true
  | .neg _ => false
  | .negb _ => true
  | .adc _ => false
  | .adcb _ => true
  | .sbc _ => false
  | .sbcb _ => true
  | .tst _ => false
  | .tstb _ => true
  | .swab _ => false
  | .clc => false
  | .clv => false
  | .clz => false
  | .cln => false
  | .sec => false
  | .sev => false
  | .sez => false
  | .sen => false
  | .br _ => false
  | .bne _ => false
  | .beq _ => false
  | .bge _ => false
  | .blt _ => false
  | .bgt _ => false
  | .ble _ => false
  | .bpl _ => false
  | .bmi _ => false
  | .bhi _ => false
  | .blos _ => false
  | .bvc _ => false
  | .bvs _ => false
  | .bcc _ => false
  | .bcs _ => false
  | .jmp _ => false
  | .jsr _ _ => false
  | .rts _ => false
  | .halt => false
  | .wait => false
  | .reset => false

/-- How many extension words a specifier consumes: one for modes 6 and 7, and for modes 2 and 3 with register 7 (R86). -/
def Specifier.extensionWords (d : Specifier) : Nat :=
  match d.mode with
  | .indexed | .indexedDeferred => 1
  | .autoInc | .autoIncDeferred => if d.reg = .pc then 1 else 0
  | .register | .deferred | .autoDec | .autoDecDeferred => 0

/-- How many extension words an instruction has (R86). -/
def Instr.extensionWords : Instr → Nat
  | .mov s d => s.extensionWords + d.extensionWords
  | .movb s d => s.extensionWords + d.extensionWords
  | .cmp s d => s.extensionWords + d.extensionWords
  | .cmpb s d => s.extensionWords + d.extensionWords
  | .bit s d => s.extensionWords + d.extensionWords
  | .bitb s d => s.extensionWords + d.extensionWords
  | .bic s d => s.extensionWords + d.extensionWords
  | .bicb s d => s.extensionWords + d.extensionWords
  | .bis s d => s.extensionWords + d.extensionWords
  | .bisb s d => s.extensionWords + d.extensionWords
  | .add s d => s.extensionWords + d.extensionWords
  | .sub s d => s.extensionWords + d.extensionWords
  | .clr d => d.extensionWords
  | .clrb d => d.extensionWords
  | .com d => d.extensionWords
  | .comb d => d.extensionWords
  | .inc d => d.extensionWords
  | .incb d => d.extensionWords
  | .dec d => d.extensionWords
  | .decb d => d.extensionWords
  | .neg d => d.extensionWords
  | .negb d => d.extensionWords
  | .adc d => d.extensionWords
  | .adcb d => d.extensionWords
  | .sbc d => d.extensionWords
  | .sbcb d => d.extensionWords
  | .tst d => d.extensionWords
  | .tstb d => d.extensionWords
  | .swab d => d.extensionWords
  | .clc => 0
  | .clv => 0
  | .clz => 0
  | .cln => 0
  | .sec => 0
  | .sev => 0
  | .sez => 0
  | .sen => 0
  | .br _ => 0
  | .bne _ => 0
  | .beq _ => 0
  | .bge _ => 0
  | .blt _ => 0
  | .bgt _ => 0
  | .ble _ => 0
  | .bpl _ => 0
  | .bmi _ => 0
  | .bhi _ => 0
  | .blos _ => 0
  | .bvc _ => 0
  | .bvs _ => 0
  | .bcc _ => 0
  | .bcs _ => 0
  | .jmp d => d.extensionWords
  | .jsr _ d => d.extensionWords
  | .rts _ => 0
  | .halt => 0
  | .wait => 0
  | .reset => 0

/-- The instruction's length in bytes: 2 plus 2 for each specifier that consumes a word (R86). -/
def Instr.length (i : Instr) : Nat := 2 + 2 * i.extensionWords

/-! ## The host's question about the opcode table -/

/-- The bytes of an instruction whose bits are `w`, numbered as the opcode table numbers them, every bit from `nbits` up being
0: six bytes, the longest instruction (R80), each word little-endian, the first at the lowest address (R51). -/
def tableBytes (nbits w : Nat) : List Byte :=
  let v := w % 2 ^ nbits
  (List.range 6).map fun k => BitVec.ofNat 8 (v / 2 ^ (8 * k))

/-- The instruction the decoder reads from those bytes. -/
def decodeTableWord (nbits w : Nat) : Option Instr :=
  match decode (tableBytes nbits w) with
  | .instr i _ => some i
  | .reject _ => none

end Sys2Proof
end

