-- ==== Sys2Proof/Config.lean ====
section
/-! DEFINITION. The implementation parameters (spec 00_scope.md R7), their constraints and the spec's defaults.
The spec leaves no instruction result undefined, so there is no free value here. -/

namespace Sys2Proof

/-- The named parameters of R7. They are fixed for an instance (R38); the machine carries them in its state so that one model
covers every instance (notes/assumptions/1.md). -/
structure Params where
  /-- `REG_BASE`: the address of the low byte of register 0. -/
  regBase : Word
  /-- `PSW_ADDR`: the address of the low byte of the status word. -/
  pswAddr : Word
  /-- `STACK_LIMIT`: the low-water mark `PushWord` checks. -/
  stackLimit : Word
  /-- `SP_INIT`: the stack pointer after load. -/
  spInit : Word
  /-- `MOVB_SEXT`: whether MOVB to a register-direct destination sign-extends. -/
  movbSext : Bool
  deriving DecidableEq, Repr

/-- The constraints of R7: `REG_BASE` is even and lies in 0o100000 .. 0o177760; `PSW_ADDR` is even, at least 0o100000 and
outside the 16 bytes of the registers. -/
structure Params.Valid (p : Params) : Prop where
  regEven : p.regBase.toNat % 2 = 0
  regLow : 0o100000 ≤ p.regBase.toNat
  regHigh : p.regBase.toNat ≤ 0o177760
  pswEven : p.pswAddr.toNat % 2 = 0
  pswLow : 0o100000 ≤ p.pswAddr.toNat
  pswHigh : p.pswAddr.toNat ≤ 0o177776
  disjoint : p.pswAddr.toNat < p.regBase.toNat ∨ p.regBase.toNat + 15 < p.pswAddr.toNat

/-- The defaults of R7. `SP_INIT` has none in the spec: 0o177700 is a DESIGN CHOICE (notes/assumptions/3.md), unsafe. -/
def Params.default : Params where
  regBase := 0o177700
  pswAddr := 0o177776
  stackLimit := 0o400
  spInit := 0o177700
  movbSext := false

end Sys2Proof
end

