-- ==== Sys2Proof/Machine/State.lean ====
section
/-! DEFINITION. The state of the machine (spec 10_state.md), its faults, refusals and reset.

The registers R0 to R5, SP, PC and the status word are bytes of the one array `M` (R20, R21, R22, R30): they have no field of
their own, and every access to them goes through `State.reg`, `State.setReg`, `State.psw` and `State.setPsw` of Machine/Ops.lean.
-/

namespace Sys2Proof.Machine

/-- The kinds of fault, symbolic and without codes (R261). -/
inductive FaultKind where
  /-- R262. -/
  | illegalInstruction
  /-- R263. -/
  | stackOverflow
  deriving DecidableEq, Repr

/-- `STATE`, the processor state (R34, R266). -/
inductive Status where
  | running
  | halted
  | waiting
  /-- The step that executed RESET reports it; the next step runs as from `running` (R252). -/
  | reset
  | faulted (kind : FaultKind)
  deriving DecidableEq, Repr

/-- The kinds of trace events (R64). -/
inductive AccessKind where
  | read | write | instructionFetch
  deriving DecidableEq, Repr

/-- One event of the trace port (R64). -/
structure TraceEvent where
  kind : AccessKind
  addr : Word
  deriving DecidableEq, Repr

/-- The byte array `M` (R20): the bytes that differ from what an unlisted address reads as, addresses strictly rising. -/
abbrev Memory := List Host.Cell

/-- The whole state. `params` is fixed for an instance (R38, notes/assumptions/1.md). -/
structure State where
  /-- The parameters of R7. -/
  params : Params
  /-- `M`, with the registers and the status word in it (R20 to R22, R30). -/
  mem : Memory
  /-- `BYTEMODE` (R33). -/
  byteMode : Bool
  /-- `STATE` (R34). -/
  status : Status
  /-- `ADVISORY_ODD_PC` (R35). -/
  advisoryOddPc : Bool
  /-- The trace event stream, oldest event first (R37, R64). -/
  trace : List TraceEvent
  deriving DecidableEq, Repr

/-- The reasons a step can stop with a host fault. There are none: every fault of the spec is a value of `STATE` in a next state
(R262, R263, R265), and a step in a terminal state answers that state (R140). -/
inductive Fault where
  deriving DecidableEq, Repr

/-- The reasons for a refusal. -/
inductive Refusal where
  /-- Raised by `exec` for an instruction that has no meaning yet; no instruction is left so. Safe: the step stops. -/
  | notModelled (mnemonic : String)
  /-- Raised by `loadImage` for an image without `SetEntry`, as the spec says (R292: 'refuse the image'). Safe: no state results.
  No step raises it. -/
  | imageWithoutEntry
  deriving DecidableEq, Repr

/-- The state before any image is loaded, with the default parameters (R7, R39). `STATE`, `BYTEMODE`, the advisory and the trace
are the spec's; SP is `SP_INIT`. DESIGN CHOICES, unsafe: the number of `SP_INIT` (notes/assumptions/3.md), zero in R0 to R5 (4),
`PSW` (5) and all memory (6), and PC = 0, the entry of the source's smallest image (7). The two listed bytes are SP. -/
def State.reset : State where
  params := Params.default
  mem := [(0o177714, 0o300), (0o177715, 0o377)]
  byteMode := false
  status := .running
  advisoryOddPc := false
  trace := []

end Sys2Proof.Machine
end

