-- ==== Sys2Proof/Machine/Ops.lean ====
section
/-! DEFINITION. The named operations over the byte array, the registers, the status word, the trace port and the stack
(spec 20_memory.md), the beginning and end of a step, and raising a fault. -/

namespace Sys2Proof.Machine

/-! ## The byte array as data (R20) -/

/-- What an address reads as that the list does not name. DESIGN CHOICE, unsafe: the spec states no launch value
(R39; notes/assumptions/6.md). -/
def unlistedByte : Byte := 0

/-- The byte at an address. -/
def Memory.read : Memory → Nat → Byte
  | [], _ => unlistedByte
  | (k, b) :: rest, a => if k = a then b else Memory.read rest a

/-- The list without an address. -/
def Memory.erase (a : Nat) : Memory → Memory
  | [] => []
  | (k, b) :: rest => if k = a then Memory.erase a rest else (k, b) :: Memory.erase a rest

/-- The list with a cell put before the first higher address. -/
def Memory.insert (a : Nat) (b : Byte) : Memory → Memory
  | [] => [(a, b)]
  | (k, c) :: rest => if a < k then (a, b) :: (k, c) :: rest else (k, c) :: Memory.insert a b rest

/-- The array with one byte written: writing what an unlisted address reads as removes the cell. -/
def Memory.write (m : Memory) (a : Nat) (b : Byte) : Memory :=
  if b = unlistedByte then Memory.erase a m else Memory.insert a b (Memory.erase a m)

/-- The canonical form from an address on: addresses strictly rising, inside the address space, no byte that an unlisted address
reads as. -/
def Memory.wfFrom (lo : Nat) : Memory → Bool
  | [] => true
  | (k, b) :: rest => decide (lo ≤ k) && decide (k < 65536) && b != unlistedByte && Memory.wfFrom (k + 1) rest

/-- The canonical form: equal arrays are equal lists. -/
def Memory.wf (m : Memory) : Bool := Memory.wfFrom 0 m

/-! ## Byte order (R8, R51) -/

/-- Bits 7:0. -/
def loByte (v : Word) : Byte := v.extractLsb' 0 8

/-- Bits 15:8. -/
def hiByte (v : Word) : Byte := v.extractLsb' 8 8

/-- `hi : lo`. -/
def wordOf (hi lo : Byte) : Word := hi ++ lo

/-- `sext_8(b)` modulo 65,536 (R9). -/
def sext8 (b : Byte) : Word := b.signExtend 16

/-! ## Raw access (R9, R20, R51 to R54) -/

/-- `M[a]`: no side effect, no trace event. -/
def State.peek (s : State) (a : Word) : Byte := Memory.read s.mem a.toNat

/-- `M[a] <- b`. -/
def State.poke (s : State) (a : Word) (b : Byte) : State := { s with mem := Memory.write s.mem a.toNat b }

/-- `M[(a+1) mod 65536] : M[a]`. -/
def State.peekWord (s : State) (a : Word) : Word := wordOf (s.peek (a + 1#16)) (s.peek a)

/-- `M[a] <- v[7:0]; M[(a+1) mod 65536] <- v[15:8]`. -/
def State.pokeWord (s : State) (a v : Word) : State := (s.poke a (loByte v)).poke (a + 1#16) (hiByte v)

/-! ## Registers and status word (R22, R23, R26, R30) -/

/-- The number of a register, 0 to 7 (R22). -/
def regNumber : Reg → Nat
  | .r0 => 0 | .r1 => 1 | .r2 => 2 | .r3 => 3 | .r4 => 4 | .r5 => 5 | .sp => 6 | .pc => 7

/-- `RA(n) = REG_BASE + 2n` (R22). -/
def regAddr (p : Params) (r : Reg) : Word := p.regBase + BitVec.ofNat 16 (2 * regNumber r)

/-- `R[n]`, without a trace event (R23). -/
def State.reg (s : State) (r : Reg) : Word := s.peekWord (regAddr s.params r)

/-- `R[n] <- v`, without a trace event (R23). -/
def State.setReg (s : State) (r : Reg) (v : Word) : State := s.pokeWord (regAddr s.params r) v

/-- `PSW` (R30). -/
def State.psw (s : State) : Word := s.peekWord s.params.pswAddr

/-- `PSW <- v` (R30, R31), without a trace event. -/
def State.setPsw (s : State) (v : Word) : State := s.pokeWord s.params.pswAddr v

/-- `IsReg(a)`: the address is register-mapped (R60). -/
def isReg (p : Params) (a : Word) : Bool :=
  (decide (p.regBase.toNat ≤ a.toNat) && decide (a.toNat ≤ p.regBase.toNat + 15)) || a == p.pswAddr || a == p.pswAddr + 1#16

/-! ## Traced access (R55 to R58, R64, R65) -/

/-- The trace event of an access, none at a register-mapped address (R64). -/
def State.note (s : State) (kind : AccessKind) (a : Word) : State :=
  if isReg s.params a then s else { s with trace := s.trace ++ [⟨kind, a⟩] }

/-- `MemRead(a, 2)` (R55). -/
def memReadWord (a : Word) (s : State) : Word × State := (s.peekWord a, s.note .read a)

/-- `MemRead(a, 1)` (R55). -/
def memReadByte (a : Word) (s : State) : Byte × State := (s.peek a, s.note .read a)

/-- `MemWrite(a, 2, v)` (R56). -/
def memWriteWord (a v : Word) (s : State) : State := (s.pokeWord a v).note .write a

/-- `MemWrite(a, 1, v)` (R56). -/
def memWriteByte (a : Word) (b : Byte) (s : State) : State := (s.poke a b).note .write a

/-- `Fetch(a)` (R57). -/
def fetchWord (a : Word) (s : State) : Word × State := (s.peekWord a, s.note .instructionFetch a)

/-- `AdvanceProgramCounter()` (R58). -/
def advancePc (s : State) : State := s.setReg .pc (s.reg .pc + 2#16)

/-- What a sink sees of the trace: `SetTraceEnabled` is a filter outside the block (R65, D10). -/
def traceOutput (enabled : Bool) (s : State) : List TraceEvent := if enabled then s.trace else []

/-! ## Stack primitives (R66, R67) -/

/-- `PushWord(v)`; `none` where it raises `StackOverflow`, with SP and `M` unchanged (R66, D16). -/
def pushWord (v : Word) (s : State) : Option State :=
  let new := s.reg .sp - 2#16
  if new.toNat < s.params.stackLimit.toNat then none
  else some (memWriteWord new v (s.setReg .sp new))

/-- `PopWord()`: the word at SP, which is then stepped by 2 (R67). -/
def popWord (s : State) : Word × State :=
  let v := memReadWord (s.reg .sp) s
  (v.1, v.2.setReg .sp (v.2.reg .sp + 2#16))

/-! ## Inside a step (R140 to R142, R144, R265) -/

/-- The fetch: `IR <- Fetch(pc); pc <- pc + 2` (R141). -/
def fetchInstruction (s : State) : Word × State :=
  let ir := fetchWord (s.reg .pc) s
  (ir.1, advancePc ir.2)

/-- Decode's one write: `BYTEMODE`, 1 for the byte instructions (R33, R142). Every meaning begins with it
(notes/assumptions/10.md). -/
def State.decoded (s : State) (byte : Bool) : State := { s with byteMode := byte }

/-- The normal end of an instruction: `STATE <- Running` (R140). -/
def complete (s : State) : Host.Outcome State Fault Refusal := .next { s with status := .running }

/-- The end of an instruction that names the next processor state (HALT, WAIT, RESET; R140). -/
def completeAs (status : Status) (s : State) : Host.Outcome State Fault Refusal := .next { s with status := status }

/-- Raising a fault, the one operation for both kinds: the step ends with the changes made so far and `STATE <- Faulted(kind)`.
Nothing is saved, no vector is read, nothing unwinds (R261, R265, R269); nothing returns from it (R271). -/
def raise (kind : FaultKind) (s : State) : Host.Outcome State Fault Refusal := .next { s with status := .faulted kind }

/-- The illegal instruction, after the fetch (R254); decode has written `BYTEMODE` = 0 (R142). -/
def illegalInstruction (s : State) : Host.Outcome State Fault Refusal := raise .illegalInstruction (s.decoded false)

/-- The end of a step: `ADVISORY_ODD_PC <- pc[0]` (R35, R140). -/
def endStep (s : State) : State := { s with advisoryOddPc := (s.reg .pc).getLsbD 0 }

/-- The end of a step applied to what an instruction answers. -/
def endOutcome : Host.Outcome State Fault Refusal → Host.Outcome State Fault Refusal
  | .next s => .next (endStep s)
  | .fault r => .fault r
  | .refused r => .refused r

/-- The states from which no step is taken (R34, R140). -/
def Status.terminal : Status → Bool
  | .running | .reset => false
  | .halted | .waiting | .faulted _ => true

/-! ## Placing an instruction from outside (R292) -/

/-- The state with the six bytes of `v` at the address in `pc`, lowest byte first, and `STATE` = Running if it was terminal. -/
def placeInstruction (v : Nat) (s : State) : State :=
  let a := s.reg .pc
  let s1 := ((s.pokeWord a (BitVec.ofNat 16 v)).pokeWord (a + 2#16) (BitVec.ofNat 16 (v / 65536))).pokeWord (a + 4#16)
    (BitVec.ofNat 16 (v / 4294967296))
  { s1 with status := if s.status.terminal then .running else s.status }

end Sys2Proof.Machine
end

