-- ==== Sys2Proof/Machine/Flags.lean ====
section
/-! DEFINITION. The condition-code unit (spec 41_step_decode_ccunit.md R145 to R149; 10_state.md R30, R31): the flags, their
write-back, the result and flags of every operation at either width, and the branch conditions. -/

namespace Sys2Proof.Machine

/-! ## The flags in the status word (R30, R31) -/

/-- The four condition codes. -/
structure Flags where
  n : Bool
  z : Bool
  v : Bool
  c : Bool
  deriving DecidableEq, Repr

/-- The flags an instruction updates; `none` leaves a flag unchanged (R40). -/
structure FlagUpdate where
  n : Option Bool := none
  z : Option Bool := none
  v : Option Bool := none
  c : Option Bool := none
  deriving DecidableEq, Repr

/-- N is bit 3, Z bit 2, V bit 1, C bit 0 of the status word (R30). -/
def flagsOf (psw : Word) : Flags := ⟨psw.getLsbD 3, psw.getLsbD 2, psw.getLsbD 1, psw.getLsbD 0⟩

/-- The flags of a state. -/
def State.flags (s : State) : Flags := flagsOf s.psw

/-- One bit of a word set to `b`: `(w and not 2^i) or (b << i)` (R31). -/
def writeBit (i : Nat) (b : Bool) (w : Word) : Word :=
  (w &&& ~~~(BitVec.twoPow 16 i)) ||| (if b then BitVec.twoPow 16 i else 0#16)

/-- One bit of a word, where an update names it. -/
def updateBit (i : Nat) : Option Bool → Word → Word
  | none, w => w
  | some b, w => writeBit i b w

/-- The status word with the named flags written and the other bits carried through (R31, R148). -/
def FlagUpdate.apply (u : FlagUpdate) (psw : Word) : Word :=
  updateBit 3 u.n (updateBit 2 u.z (updateBit 1 u.v (updateBit 0 u.c psw)))

/-- The flag write-back: one read-modify-write of the status word as it stands (R148). -/
def State.setFlags (s : State) (u : FlagUpdate) : State := s.setPsw (u.apply s.psw)

/-! ## Additions and subtractions (R147), `w`-bit patterns -/

/-- `Add_w(a, b).cout`. -/
def addCarry (a b : BitVec w) : Bool := decide (2 ^ w ≤ a.toNat + b.toNat)

/-- `Add_w(a, b).ovf`. -/
def addOverflow (a b : BitVec w) : Bool := a.msb == b.msb && (a + b).msb != a.msb

/-- `Sub_w(a, b).bout`, `a` the minuend. -/
def subBorrow (a b : BitVec w) : Bool := decide (a.toNat < b.toNat)

/-- `Sub_w(a, b).ovf`. -/
def subOverflow (a b : BitVec w) : Bool := a.msb != b.msb && (a - b).msb == b.msb

/-! ## Flags of the operations -/

/-- N and Z by the uniform rules R145 and R146, V and C as given. -/
def nzvc (res : BitVec w) (v c : Option Bool) : FlagUpdate := ⟨some res.msb, some (res == 0#w), v, c⟩

/-- N and Z from the result, V cleared, C unchanged: MOV, BIT, BIC, BIS (R161, R165, R167, R169). -/
def logicFlags (res : BitVec w) : FlagUpdate := nzvc res (some false) none

/-- CMP: the flags of `src - dst` (R163, R164). -/
def compareFlags (src dst : BitVec w) : FlagUpdate := nzvc (src - dst) (some (subOverflow src dst)) (some (subBorrow src dst))

/-- BIT: the flags of `src and dst` (R165, R166). -/
def bitTestFlags (src dst : BitVec w) : FlagUpdate := logicFlags (src &&& dst)

/-- CLR: N=0 Z=1 V=0 C=0 (R181, R182). -/
def clearFlags : FlagUpdate := ⟨some false, some true, some false, some false⟩

/-- TST: N and Z of `0 - dst`, V and C cleared (R195, R196). -/
def testFlags (dst : BitVec w) : FlagUpdate := nzvc (0#w - dst) (some false) (some false)

/-! ## Result and flags of the read-modify-write operations -/

/-- BIC (R167, R168). -/
def bicOp (src dst : BitVec w) : BitVec w × FlagUpdate :=
  let res := dst &&& ~~~src
  (res, logicFlags res)

/-- BIS (R169, R170). -/
def bisOp (src dst : BitVec w) : BitVec w × FlagUpdate :=
  let res := dst ||| src
  (res, logicFlags res)

/-- ADD (R171). -/
def addOp (src dst : Word) : Word × FlagUpdate :=
  let res := src + dst
  (res, nzvc res (some (addOverflow src dst)) (some (addCarry src dst)))

/-- SUB: `dst - src` (R172). -/
def subOp (src dst : Word) : Word × FlagUpdate :=
  let res := dst - src
  (res, nzvc res (some (subOverflow dst src)) (some (subBorrow dst src)))

/-- COM: V cleared, C set (R183, R184). -/
def comOp (dst : BitVec w) : BitVec w × FlagUpdate :=
  let res := ~~~dst
  (res, nzvc res (some false) (some true))

/-- INC: V iff the operand was `max_w`; C unchanged (R185, R186). -/
def incOp (dst : BitVec w) : BitVec w × FlagUpdate :=
  let res := dst + 1#w
  (res, nzvc res (some (dst == BitVec.intMax w)) none)

/-- DEC: V iff the operand was `min_w`; C unchanged (R187, R188). -/
def decOp (dst : BitVec w) : BitVec w × FlagUpdate :=
  let res := dst - 1#w
  (res, nzvc res (some (dst == BitVec.intMin w)) none)

/-- NEG: V iff the operand was `min_w`; C iff it was not zero (R189, R190). -/
def negOp (dst : BitVec w) : BitVec w × FlagUpdate :=
  let res := 0#w - dst
  (res, nzvc res (some (dst == BitVec.intMin w)) (some (dst != 0#w)))

/-- ADC, with the old carry `c0` (R191, R192). -/
def adcOp (c0 : Bool) (dst : BitVec w) : BitVec w × FlagUpdate :=
  let res := dst + (if c0 then 1#w else 0#w)
  (res, nzvc res (some (dst == BitVec.intMax w && c0)) (some (dst == BitVec.allOnes w && c0)))

/-- SBC, with the old carry `c0` (R193, R194). -/
def sbcOp (c0 : Bool) (dst : BitVec w) : BitVec w × FlagUpdate :=
  let res := dst - (if c0 then 1#w else 0#w)
  (res, nzvc res (some (dst == BitVec.intMin w && c0)) (some (dst == 0#w && c0)))

/-- SWAB: N and Z from the low byte of the result, V and C cleared (R197). -/
def swabOp (dst : Word) : Word × FlagUpdate :=
  let res := wordOf (loByte dst) (hiByte dst)
  (res, nzvc (loByte res) (some false) (some false))

/-! ## Branch conditions (R221 to R236) -/

/-- BNE, Z = 0. -/
def condNe (f : Flags) : Bool := !f.z
/-- BEQ, Z = 1. -/
def condEq (f : Flags) : Bool := f.z
/-- BGE, N xor V = 0. -/
def condGe (f : Flags) : Bool := !(f.n ^^ f.v)
/-- BLT, N xor V = 1. -/
def condLt (f : Flags) : Bool := f.n ^^ f.v
/-- BGT, Z or (N xor V) = 0. -/
def condGt (f : Flags) : Bool := !(f.z || (f.n ^^ f.v))
/-- BLE, Z or (N xor V) = 1. -/
def condLe (f : Flags) : Bool := f.z || (f.n ^^ f.v)
/-- BPL, N = 0. -/
def condPl (f : Flags) : Bool := !f.n
/-- BMI, N = 1. -/
def condMi (f : Flags) : Bool := f.n
/-- BHI, C or Z = 0. -/
def condHi (f : Flags) : Bool := !(f.c || f.z)
/-- BLOS, C or Z = 1. -/
def condLos (f : Flags) : Bool := f.c || f.z
/-- BVC, V = 0. -/
def condVc (f : Flags) : Bool := !f.v
/-- BVS, V = 1. -/
def condVs (f : Flags) : Bool := f.v
/-- BCC (BHIS), C = 0. -/
def condCc (f : Flags) : Bool := !f.c
/-- BCS (BLO), C = 1. -/
def condCs (f : Flags) : Bool := f.c

end Sys2Proof.Machine
end

