-- ==== Sys2Proof/Machine/Operands.lean ====
section
/-! DEFINITION. The operand resolver (spec 40_operand_resolver.md R110 to R124), operand data access (R125 to R128), and the
common orders of execution of the data instructions and branches (R143, R160, R180, R210, R220). -/

namespace Sys2Proof.Machine

/-! ## The resolver -/

/-- The step size (R113). -/
def stepSize (mode : Mode) (reg : Reg) (byteMode : Bool) : Word :=
  if reg = .sp then 2#16
  else if reg = .pc ∧ (mode = .autoInc ∨ mode = .autoIncDeferred) then 2#16
  else if byteMode then 1#16
  else 2#16

/-- `Resolve(spec)`: the effective address and the state after the mode's side effects, the accesses in the order of R112. -/
def resolve (d : Specifier) (s : State) : Word × State :=
  let step := stepSize d.mode d.reg s.byteMode
  match d.mode with
  | .register => (regAddr s.params d.reg, s)
  | .deferred => (s.reg d.reg, s)
  | .autoInc =>
    let ea := s.reg d.reg
    (ea, s.setReg d.reg (ea + step))
  | .autoIncDeferred =>
    let p := s.reg d.reg
    let ea := memReadWord p s
    (ea.1, ea.2.setReg d.reg (p + step))
  | .autoDec =>
    let s1 := s.setReg d.reg (s.reg d.reg - step)
    (s1.reg d.reg, s1)
  | .autoDecDeferred =>
    let s1 := s.setReg d.reg (s.reg d.reg - step)
    memReadWord (s1.reg d.reg) s1
  | .indexed =>
    let x := memReadWord (s.reg .pc) s
    let s1 := advancePc x.2
    (s1.reg d.reg + x.1, s1)
  | .indexedDeferred =>
    let x := memReadWord (s.reg .pc) s
    let s1 := advancePc x.2
    memReadWord (s1.reg d.reg + x.1) s1

/-! ## Operand data access -/

/-- `OpRead(ea, 2)` (R127). -/
def opReadWord (ea : Word) (s : State) : Word × State := memReadWord ea s

/-- `OpRead(ea, 1)`: a register-mapped address is read as a word and gives its low byte (R127). -/
def opReadByte (ea : Word) (s : State) : Byte × State :=
  if isReg s.params ea then
    let w := memReadWord ea s
    (loByte w.1, w.2)
  else memReadByte ea s

/-- `OpWrite(ea, 2, v)` (R128). -/
def opWriteWord (ea v : Word) (s : State) : State := memWriteWord ea v s

/-- `OpWrite(ea, 1, v)`: at a register-mapped address the word is read and written back with its low byte replaced, or, where
`signExtend` says so, the whole word is `sext_8(v)` (R128). -/
def opWriteByte (signExtend : Bool) (ea : Word) (v : Byte) (s : State) : State :=
  if isReg s.params ea then
    let w := memReadWord ea s
    if signExtend then memWriteWord ea (sext8 v) w.2
    else memWriteWord ea (wordOf (hiByte w.1) v) w.2
  else memWriteByte ea v s

/-- The sign extension of R128: the parameter is set, the instruction is MOVB (its only caller) and its destination is mode 0. -/
def movbExtends (s : State) (dst : Specifier) : Bool := s.params.movbSext && dst.mode == .register

/-! ## Double-operand orders (R143, R160): source resolved, source read, destination resolved, destination read, destination
written, flags written -/

/-- The source of a word instruction: its value, latched, and the state after its resolve and its read. -/
def sourceWord (src : Specifier) (s : State) : Word × State :=
  let p := resolve src s
  opReadWord p.1 p.2

/-- The source of a byte instruction. -/
def sourceByte (src : Specifier) (s : State) : Byte × State :=
  let p := resolve src s
  opReadByte p.1 p.2

/-- The order of MOV: the destination is not read (R161, D31). -/
def moveWord (src dst : Specifier) (s : State) : Host.Outcome State Fault Refusal :=
  let x := sourceWord src s
  let d := resolve dst x.2
  complete ((opWriteWord d.1 x.1 d.2).setFlags (logicFlags x.1))

/-- The order of MOVB (R162). -/
def moveByte (src dst : Specifier) (s : State) : Host.Outcome State Fault Refusal :=
  let x := sourceByte src s
  let d := resolve dst x.2
  complete ((opWriteByte (movbExtends s dst) d.1 x.1 d.2).setFlags (logicFlags x.1))

/-- The order of CMP and BIT: nothing is written but the flags (R163, R165). -/
def compareWord (cc : Word → Word → FlagUpdate) (src dst : Specifier) (s : State) : Host.Outcome State Fault Refusal :=
  let x := sourceWord src s
  let d := resolve dst x.2
  let y := opReadWord d.1 d.2
  complete (y.2.setFlags (cc x.1 y.1))

/-- The order of CMPB and BITB (R164, R166). -/
def compareByte (cc : Byte → Byte → FlagUpdate) (src dst : Specifier) (s : State) : Host.Outcome State Fault Refusal :=
  let x := sourceByte src s
  let d := resolve dst x.2
  let y := opReadByte d.1 d.2
  complete (y.2.setFlags (cc x.1 y.1))

/-- The order of BIC, BIS, ADD and SUB: the destination is read and written at the one latched address (R111, R160). -/
def binaryWord (op : Word → Word → Word × FlagUpdate) (src dst : Specifier) (s : State) : Host.Outcome State Fault Refusal :=
  let x := sourceWord src s
  let d := resolve dst x.2
  let y := opReadWord d.1 d.2
  let r := op x.1 y.1
  complete ((opWriteWord d.1 r.1 y.2).setFlags r.2)

/-- The order of BICB and BISB (R168, R170). -/
def binaryByte (op : Byte → Byte → Byte × FlagUpdate) (src dst : Specifier) (s : State) : Host.Outcome State Fault Refusal :=
  let x := sourceByte src s
  let d := resolve dst x.2
  let y := opReadByte d.1 d.2
  let r := op x.1 y.1
  complete ((opWriteByte false d.1 r.1 y.2).setFlags r.2)

/-! ## Single-operand orders (R180) -/

/-- The order of CLR: the destination is not read (R181, D31). -/
def clearWord (dst : Specifier) (s : State) : Host.Outcome State Fault Refusal :=
  let d := resolve dst s
  complete ((opWriteWord d.1 0#16 d.2).setFlags clearFlags)

/-- The order of CLRB (R182). -/
def clearByte (dst : Specifier) (s : State) : Host.Outcome State Fault Refusal :=
  let d := resolve dst s
  complete ((opWriteByte false d.1 0#8 d.2).setFlags clearFlags)

/-- The order of TST: nothing is written but the flags (R195). -/
def testWord (cc : Word → FlagUpdate) (dst : Specifier) (s : State) : Host.Outcome State Fault Refusal :=
  let d := resolve dst s
  let y := opReadWord d.1 d.2
  complete (y.2.setFlags (cc y.1))

/-- The order of TSTB (R196). -/
def testByte (cc : Byte → FlagUpdate) (dst : Specifier) (s : State) : Host.Outcome State Fault Refusal :=
  let d := resolve dst s
  let y := opReadByte d.1 d.2
  complete (y.2.setFlags (cc y.1))

/-- The order of COM, INC, DEC, NEG, ADC, SBC and SWAB (R180). -/
def unaryWord (op : Word → Word × FlagUpdate) (dst : Specifier) (s : State) : Host.Outcome State Fault Refusal :=
  let d := resolve dst s
  let y := opReadWord d.1 d.2
  let r := op y.1
  complete ((opWriteWord d.1 r.1 y.2).setFlags r.2)

/-- The order of COMB, INCB, DECB, NEGB, ADCB and SBCB (R180). -/
def unaryByte (op : Byte → Byte × FlagUpdate) (dst : Specifier) (s : State) : Host.Outcome State Fault Refusal :=
  let d := resolve dst s
  let y := opReadByte d.1 d.2
  let r := op y.1
  complete ((opWriteByte false d.1 r.1 y.2).setFlags r.2)

/-! ## Flag operations and branches -/

/-- The order of the condition-code operations: one flag update and nothing else (R210). -/
def flagOperation (u : FlagUpdate) (s : State) : Host.Outcome State Fault Refusal := complete (s.setFlags u)

/-- The order of the branches, after the fetch: `pc <- pc + 2 * sext_8(offset)` where the condition holds (R87, R220). -/
def branchIf (cond : Flags → Bool) (off : BitVec 8) (s : State) : Host.Outcome State Fault Refusal :=
  if cond s.flags then complete (s.setReg .pc (s.reg .pc + 2#16 * sext8 off)) else complete s

end Sys2Proof.Machine
end

