-- ==== Sys2Proof/Machine/Branches.lean ====
section
/-! DEFINITION. The branches (spec 45_branches.md). Every meaning starts after the common
fetch (00_scope.md R11): `pc` is already past the instruction word. -/

namespace Sys2Proof.Machine

/-- BR (R221). -/
def execBr (off : BitVec 8) (s : State) : Host.Outcome State Fault Refusal :=
  branchIf (fun _ => true) off (s.decoded false)

/-- BNE (R222). -/
def execBne (off : BitVec 8) (s : State) : Host.Outcome State Fault Refusal :=
  branchIf condNe off (s.decoded false)

/-- BEQ (R223). -/
def execBeq (off : BitVec 8) (s : State) : Host.Outcome State Fault Refusal :=
  branchIf condEq off (s.decoded false)

/-- BGE (R224). -/
def execBge (off : BitVec 8) (s : State) : Host.Outcome State Fault Refusal :=
  branchIf condGe off (s.decoded false)

/-- BLT (R225). -/
def execBlt (off : BitVec 8) (s : State) : Host.Outcome State Fault Refusal :=
  branchIf condLt off (s.decoded false)

/-- BGT (R226). -/
def execBgt (off : BitVec 8) (s : State) : Host.Outcome State Fault Refusal :=
  branchIf condGt off (s.decoded false)

/-- BLE (R227). -/
def execBle (off : BitVec 8) (s : State) : Host.Outcome State Fault Refusal :=
  branchIf condLe off (s.decoded false)

/-- BPL (R228). -/
def execBpl (off : BitVec 8) (s : State) : Host.Outcome State Fault Refusal :=
  branchIf condPl off (s.decoded false)

/-- BMI (R229). -/
def execBmi (off : BitVec 8) (s : State) : Host.Outcome State Fault Refusal :=
  branchIf condMi off (s.decoded false)

/-- BHI (R230). -/
def execBhi (off : BitVec 8) (s : State) : Host.Outcome State Fault Refusal :=
  branchIf condHi off (s.decoded false)

/-- BLOS (R231). -/
def execBlos (off : BitVec 8) (s : State) : Host.Outcome State Fault Refusal :=
  branchIf condLos off (s.decoded false)

/-- BVC (R232). -/
def execBvc (off : BitVec 8) (s : State) : Host.Outcome State Fault Refusal :=
  branchIf condVc off (s.decoded false)

/-- BVS (R233). -/
def execBvs (off : BitVec 8) (s : State) : Host.Outcome State Fault Refusal :=
  branchIf condVs off (s.decoded false)

/-- BCC, also BHIS (R234). -/
def execBcc (off : BitVec 8) (s : State) : Host.Outcome State Fault Refusal :=
  branchIf condCc off (s.decoded false)

/-- BCS, also BLO (R235). -/
def execBcs (off : BitVec 8) (s : State) : Host.Outcome State Fault Refusal :=
  branchIf condCs off (s.decoded false)

end Sys2Proof.Machine
end

