-- ==== Sys2Proof/Machine/ConditionCodes.lean ====
section
/-! DEFINITION. The condition-code operations (spec 44_condition_code_ops.md). Every meaning starts after the common
fetch (00_scope.md R11): `pc` is already past the instruction word. -/

namespace Sys2Proof.Machine

/-- CLC: `C <- 0` (R211). -/
def execClc (s : State) : Host.Outcome State Fault Refusal :=
  flagOperation { c := some false } (s.decoded false)

/-- CLV: `V <- 0` (R212). -/
def execClv (s : State) : Host.Outcome State Fault Refusal :=
  flagOperation { v := some false } (s.decoded false)

/-- CLZ: `Z <- 0` (R213). -/
def execClz (s : State) : Host.Outcome State Fault Refusal :=
  flagOperation { z := some false } (s.decoded false)

/-- CLN: `N <- 0` (R214). -/
def execCln (s : State) : Host.Outcome State Fault Refusal :=
  flagOperation { n := some false } (s.decoded false)

/-- SEC: `C <- 1` (R215). -/
def execSec (s : State) : Host.Outcome State Fault Refusal :=
  flagOperation { c := some true } (s.decoded false)

/-- SEV: `V <- 1` (R216). -/
def execSev (s : State) : Host.Outcome State Fault Refusal :=
  flagOperation { v := some true } (s.decoded false)

/-- SEZ: `Z <- 1` (R217). -/
def execSez (s : State) : Host.Outcome State Fault Refusal :=
  flagOperation { z := some true } (s.decoded false)

/-- SEN: `N <- 1` (R218). -/
def execSen (s : State) : Host.Outcome State Fault Refusal :=
  flagOperation { n := some true } (s.decoded false)

end Sys2Proof.Machine
end

