-- ==== Sys2Proof/Machine/Control.lean ====
section
/-! DEFINITION. The control instructions (spec 47_control.md). Every meaning starts after the common
fetch (00_scope.md R11): `pc` is already past the instruction word. -/

namespace Sys2Proof.Machine

/-- HALT: `STATE <- Halted` (R250). -/
def execHalt (s : State) : Host.Outcome State Fault Refusal :=
  completeAs .halted (s.decoded false)

/-- WAIT: `STATE <- Waiting` (R251). -/
def execWait (s : State) : Host.Outcome State Fault Refusal :=
  completeAs .waiting (s.decoded false)

/-- RESET: `STATE <- Reset`; memory and registers are unaffected, and there is no device to reinitialise. `BYTEMODE` is written
by decode, not by RESET (R142; notes/assumptions/13.md) (R252). -/
def execReset (s : State) : Host.Outcome State Fault Refusal :=
  completeAs .reset (s.decoded false)

end Sys2Proof.Machine
end

