-- ==== Sys2Proof/Machine/DoubleOperand.lean ====
section
/-! DEFINITION. The double-operand instructions (spec 42_double_operand.md). Every meaning starts after the common
fetch (00_scope.md R11): `pc` is already past the instruction word. -/

namespace Sys2Proof.Machine

/-- MOV src, dst (R161). -/
def execMov (src dst : Specifier) (s : State) : Host.Outcome State Fault Refusal :=
  moveWord src dst (s.decoded false)

/-- MOVB src, dst (R162). -/
def execMovb (src dst : Specifier) (s : State) : Host.Outcome State Fault Refusal :=
  moveByte src dst (s.decoded true)

/-- CMP src, dst: the flags of `src - dst` (R163). -/
def execCmp (src dst : Specifier) (s : State) : Host.Outcome State Fault Refusal :=
  compareWord compareFlags src dst (s.decoded false)

/-- CMPB src, dst (R164). -/
def execCmpb (src dst : Specifier) (s : State) : Host.Outcome State Fault Refusal :=
  compareByte compareFlags src dst (s.decoded true)

/-- BIT src, dst: the flags of `src and dst` (R165). -/
def execBit (src dst : Specifier) (s : State) : Host.Outcome State Fault Refusal :=
  compareWord bitTestFlags src dst (s.decoded false)

/-- BITB src, dst (R166). -/
def execBitb (src dst : Specifier) (s : State) : Host.Outcome State Fault Refusal :=
  compareByte bitTestFlags src dst (s.decoded true)

/-- BIC src, dst (R167). -/
def execBic (src dst : Specifier) (s : State) : Host.Outcome State Fault Refusal :=
  binaryWord bicOp src dst (s.decoded false)

/-- BICB src, dst (R168). -/
def execBicb (src dst : Specifier) (s : State) : Host.Outcome State Fault Refusal :=
  binaryByte bicOp src dst (s.decoded true)

/-- BIS src, dst (R169). -/
def execBis (src dst : Specifier) (s : State) : Host.Outcome State Fault Refusal :=
  binaryWord bisOp src dst (s.decoded false)

/-- BISB src, dst (R170). -/
def execBisb (src dst : Specifier) (s : State) : Host.Outcome State Fault Refusal :=
  binaryByte bisOp src dst (s.decoded true)

/-- ADD src, dst (R171). -/
def execAdd (src dst : Specifier) (s : State) : Host.Outcome State Fault Refusal :=
  binaryWord addOp src dst (s.decoded false)

/-- SUB src, dst: `dst - src`; a word instruction although bit 15 is set (R172). -/
def execSub (src dst : Specifier) (s : State) : Host.Outcome State Fault Refusal :=
  binaryWord subOp src dst (s.decoded false)

end Sys2Proof.Machine
end

