-- ==== Sys2Proof/Machine/Jumps.lean ====
section
/-! DEFINITION. Jump and subroutine instructions (spec 46_jump_subroutine.md). Every meaning starts after the common
fetch (00_scope.md R11): `pc` is already past the instruction word. -/

namespace Sys2Proof.Machine

/-- JMP dst: `pc <- ea`; mode 0 is illegal, found before any side effect (R241). -/
def execJmp (dst : Specifier) (s : State) : Host.Outcome State Fault Refusal :=
  if dst.mode = .register then illegalInstruction s
  else
    let d := resolve dst (s.decoded false)
    complete (d.2.setReg .pc d.1)

/-- JSR reg, dst: resolve, push `R[reg]`, `R[reg] <- pc`, `pc <- ea`; a failed push leaves the state as the resolve left it (R242). -/
def execJsr (reg : Reg) (dst : Specifier) (s : State) : Host.Outcome State Fault Refusal :=
  if dst.mode = .register then illegalInstruction s
  else
    let d := resolve dst (s.decoded false)
    match pushWord (d.2.reg reg) d.2 with
    | none => raise .stackOverflow d.2
    | some s1 =>
      let s2 := s1.setReg reg (s1.reg .pc)
      complete (s2.setReg .pc d.1)

/-- RTS reg: `pc <- R[reg]`, then `R[reg] <- PopWord()` (R243). -/
def execRts (reg : Reg) (s : State) : Host.Outcome State Fault Refusal :=
  let s1 := (s.decoded false).setReg .pc (s.reg reg)
  let v := popWord s1
  complete (v.2.setReg reg v.1)

end Sys2Proof.Machine
end

