-- ==== Sys2Proof/Machine/SingleOperand.lean ====
section
/-! DEFINITION. The single-operand instructions and SWAB (spec 43_single_operand.md). Every meaning starts after the common
fetch (00_scope.md R11): `pc` is already past the instruction word. -/

namespace Sys2Proof.Machine

/-- CLR dst (R181). -/
def execClr (dst : Specifier) (s : State) : Host.Outcome State Fault Refusal :=
  clearWord dst (s.decoded false)

/-- CLRB dst (R182). -/
def execClrb (dst : Specifier) (s : State) : Host.Outcome State Fault Refusal :=
  clearByte dst (s.decoded true)

/-- COM dst (R183). -/
def execCom (dst : Specifier) (s : State) : Host.Outcome State Fault Refusal :=
  unaryWord comOp dst (s.decoded false)

/-- COMB dst (R184). -/
def execComb (dst : Specifier) (s : State) : Host.Outcome State Fault Refusal :=
  unaryByte comOp dst (s.decoded true)

/-- INC dst (R185). -/
def execInc (dst : Specifier) (s : State) : Host.Outcome State Fault Refusal :=
  unaryWord incOp dst (s.decoded false)

/-- INCB dst (R186). -/
def execIncb (dst : Specifier) (s : State) : Host.Outcome State Fault Refusal :=
  unaryByte incOp dst (s.decoded true)

/-- DEC dst (R187). -/
def execDec (dst : Specifier) (s : State) : Host.Outcome State Fault Refusal :=
  unaryWord decOp dst (s.decoded false)

/-- DECB dst (R188). -/
def execDecb (dst : Specifier) (s : State) : Host.Outcome State Fault Refusal :=
  unaryByte decOp dst (s.decoded true)

/-- NEG dst (R189). -/
def execNeg (dst : Specifier) (s : State) : Host.Outcome State Fault Refusal :=
  unaryWord negOp dst (s.decoded false)

/-- NEGB dst (R190). -/
def execNegb (dst : Specifier) (s : State) : Host.Outcome State Fault Refusal :=
  unaryByte negOp dst (s.decoded true)

/-- ADC dst, with C as it was before anything is written (R191). -/
def execAdc (dst : Specifier) (s : State) : Host.Outcome State Fault Refusal :=
  unaryWord (adcOp s.flags.c) dst (s.decoded false)

/-- ADCB dst (R192). -/
def execAdcb (dst : Specifier) (s : State) : Host.Outcome State Fault Refusal :=
  unaryByte (adcOp s.flags.c) dst (s.decoded true)

/-- SBC dst, with C as it was before anything is written (R193). -/
def execSbc (dst : Specifier) (s : State) : Host.Outcome State Fault Refusal :=
  unaryWord (sbcOp s.flags.c) dst (s.decoded false)

/-- SBCB dst (R194). -/
def execSbcb (dst : Specifier) (s : State) : Host.Outcome State Fault Refusal :=
  unaryByte (sbcOp s.flags.c) dst (s.decoded true)

/-- TST dst: the flags of `0 - dst` (R195). -/
def execTst (dst : Specifier) (s : State) : Host.Outcome State Fault Refusal :=
  testWord testFlags dst (s.decoded false)

/-- TSTB dst (R196). -/
def execTstb (dst : Specifier) (s : State) : Host.Outcome State Fault Refusal :=
  testByte testFlags dst (s.decoded true)

/-- SWAB dst (R197). -/
def execSwab (dst : Specifier) (s : State) : Host.Outcome State Fault Refusal :=
  unaryWord swabOp dst (s.decoded false)

end Sys2Proof.Machine
end

