-- ==== Sys2Proof/Machine/Dispatch.lean ====
section
/-! DEFINITION. One arm per instruction: the call of its meaning. -/

namespace Sys2Proof.Machine

def exec (i : Instr) (s : State) : Host.Outcome State Fault Refusal :=
  match i with
  | .mov src dst => Sys2Proof.Machine.execMov src dst s
  | .movb src dst => Sys2Proof.Machine.execMovb src dst s
  | .cmp src dst => Sys2Proof.Machine.execCmp src dst s
  | .cmpb src dst => Sys2Proof.Machine.execCmpb src dst s
  | .bit src dst => Sys2Proof.Machine.execBit src dst s
  | .bitb src dst => Sys2Proof.Machine.execBitb src dst s
  | .bic src dst => Sys2Proof.Machine.execBic src dst s
  | .bicb src dst => Sys2Proof.Machine.execBicb src dst s
  | .bis src dst => Sys2Proof.Machine.execBis src dst s
  | .bisb src dst => Sys2Proof.Machine.execBisb src dst s
  | .add src dst => Sys2Proof.Machine.execAdd src dst s
  | .sub src dst => Sys2Proof.Machine.execSub src dst s
  | .clr dst => Sys2Proof.Machine.execClr dst s
  | .clrb dst => Sys2Proof.Machine.execClrb dst s
  | .com dst => Sys2Proof.Machine.execCom dst s
  | .comb dst => Sys2Proof.Machine.execComb dst s
  | .inc dst => Sys2Proof.Machine.execInc dst s
  | .incb dst => Sys2Proof.Machine.execIncb dst s
  | .dec dst => Sys2Proof.Machine.execDec dst s
  | .decb dst => Sys2Proof.Machine.execDecb dst s
  | .neg dst => Sys2Proof.Machine.execNeg dst s
  | .negb dst => Sys2Proof.Machine.execNegb dst s
  | .adc dst => Sys2Proof.Machine.execAdc dst s
  | .adcb dst => Sys2Proof.Machine.execAdcb dst s
  | .sbc dst => Sys2Proof.Machine.execSbc dst s
  | .sbcb dst => Sys2Proof.Machine.execSbcb dst s
  | .tst dst => Sys2Proof.Machine.execTst dst s
  | .tstb dst => Sys2Proof.Machine.execTstb dst s
  | .swab dst => Sys2Proof.Machine.execSwab dst s
  | .clc => Sys2Proof.Machine.execClc s
  | .clv => Sys2Proof.Machine.execClv s
  | .clz => Sys2Proof.Machine.execClz s
  | .cln => Sys2Proof.Machine.execCln s
  | .sec => Sys2Proof.Machine.execSec s
  | .sev => Sys2Proof.Machine.execSev s
  | .sez => Sys2Proof.Machine.execSez s
  | .sen => Sys2Proof.Machine.execSen s
  | .br off => Sys2Proof.Machine.execBr off s
  | .bne off => Sys2Proof.Machine.execBne off s
  | .beq off => Sys2Proof.Machine.execBeq off s
  | .bge off => Sys2Proof.Machine.execBge off s
  | .blt off => Sys2Proof.Machine.execBlt off s
  | .bgt off => Sys2Proof.Machine.execBgt off s
  | .ble off => Sys2Proof.Machine.execBle off s
  | .bpl off => Sys2Proof.Machine.execBpl off s
  | .bmi off => Sys2Proof.Machine.execBmi off s
  | .bhi off => Sys2Proof.Machine.execBhi off s
  | .blos off => Sys2Proof.Machine.execBlos off s
  | .bvc off => Sys2Proof.Machine.execBvc off s
  | .bvs off => Sys2Proof.Machine.execBvs off s
  | .bcc off => Sys2Proof.Machine.execBcc off s
  | .bcs off => Sys2Proof.Machine.execBcs off s
  | .jmp dst => Sys2Proof.Machine.execJmp dst s
  | .jsr reg dst => Sys2Proof.Machine.execJsr reg dst s
  | .rts reg => Sys2Proof.Machine.execRts reg s
  | .halt => Sys2Proof.Machine.execHalt s
  | .wait => Sys2Proof.Machine.execWait s
  | .reset => Sys2Proof.Machine.execReset s

end Sys2Proof.Machine
end

