-- ==== Sys2Proof/Machine/Step.lean ====
section
/-! DEFINITION. The step cycle (spec 41_step_decode_ccunit.md R140 to R144) and the place where the next instruction lies. -/

namespace Sys2Proof.Machine

/-- What follows the fetch: decode, execute, and the end of the step (R140). -/
def decodeAndExecute (ir : Word) (s : State) : Host.Outcome State Fault Refusal :=
  match decodeWord ir with
  | .instr i => endOutcome (exec i s)
  | .reject _ => endOutcome (illegalInstruction s)

/-- `Step()`: nothing in a terminal state; else one fetch-decode-execute cycle (R140). -/
def step (s : State) : Host.Outcome State Fault Refusal :=
  if s.status.terminal then .next s
  else decodeAndExecute (fetchInstruction s).1 (fetchInstruction s).2

/-- The state with an instruction placed where `step` fetches: at the address in `pc`, the bits from `nbits` up being 0, up to
six bytes, and, as after a program load, a `STATE` from which a step is taken (R292; notes/assumptions/7.md). -/
def State.withFetchWord (s : State) (nbits w : Nat) : State :=
  placeInstruction (w % 2 ^ nbits) s

end Sys2Proof.Machine
end

