-- ==== Sys2Proof/Machine/Load.lean ====
section
/-! DEFINITION. The program load, the block's one initialisation event (spec 70_reset_and_hazards.md R290 to R293; 30_encoding.md
R101). -/

namespace Sys2Proof.Machine

/-- The directives of an image (R101, R291). -/
inductive Directive where
  | setOrigin (a : Word)
  | storeWord (v : Word)
  | setEntry (e : Word)
  deriving DecidableEq, Repr

/-- What the loader carries from one directive to the next (R292). -/
structure Loading where
  state : State
  cursor : Word
  entry : Option Word
  deriving DecidableEq, Repr

/-- One directive (R292): loader writes are little-endian, may hit any address and emit no trace event. -/
def loadDirective (l : Loading) : Directive → Loading
  | .setOrigin a => { l with cursor := a }
  | .storeWord v => { l with state := l.state.pokeWord l.cursor v, cursor := l.cursor + 2#16 }
  | .setEntry e => { l with entry := some e }

/-- The end of the load: `pc` is assigned after all stores, and the state outside the array takes its initial values (R39, R292). -/
def enterProgram (entry : Word) (s : State) : State :=
  { s.setReg .pc entry with byteMode := false, status := .running, advisoryOddPc := entry.getLsbD 0, trace := [] }

/-- `LoadImage(entries)` over a launch state, which gives the parameters and the values the spec leaves unspecified
(R39, R292; notes/assumptions/8.md); an image without `SetEntry` is refused. -/
def loadImage (image : List Directive) (launch : State) : Host.Outcome State Fault Refusal :=
  let l := image.foldl loadDirective ⟨launch.setReg .sp launch.params.spInit, 0, none⟩
  match l.entry with
  | none => .refused .imageWithoutEntry
  | some e => .next (enterProgram e l.state)

end Sys2Proof.Machine
end

