-- ==== Sys2Proof/Safety.lean ====
section
/-! DEFINITION. The terms in which claims are stated: the invariant every step keeps, runs and what counts as a safe run, which
bytes an operand or a specifier's side effect may change, the trace events a list of accesses emits, and how an instruction ends.
-/

namespace Sys2Proof.Machine

/-! ## Invariant and runs -/

/-- The invariant: the parameters meet the constraints of R7, the byte array is in its canonical form, and the advisory bit is
bit 0 of `pc` (R35). -/
structure State.Inv (s : State) : Prop where
  params : s.params.Valid
  memory : Memory.wf s.mem = true
  advisory : s.advisoryOddPc = (s.reg .pc).getLsbD 0

/-- `k` steps from `s` lead to `t`. -/
def Reaches : Nat → State → State → Prop
  | 0, s, t => s = t
  | k + 1, s, t => ∃ u, step s = .next u ∧ Reaches k u t

/-- A state in which a fault has ended the run (R260, R266). -/
def State.isFaulted (s : State) : Prop := ∃ k, s.status = .faulted k

/-- A safe run: no number of steps leads to a fault of the spec. -/
def SafeRun (s : State) : Prop := ∀ k t, Reaches k s t → ¬ t.isFaulted

/-! ## Bytes -/

/-- `a` is one of the two bytes of the word at `w`. -/
def InWord (a w : Word) : Prop := a = w ∨ a = w + 1#16

/-- The words at `v` and `w` have no byte in common. -/
def Apart (v w : Word) : Prop := ∀ a, InWord a v → ¬ InWord a w

/-- The register that resolving a specifier writes: the named one in modes 2 to 5, `pc` in modes 6 and 7, none in modes 0 and 1
(R110, R112). -/
def steppedReg (d : Specifier) : Option Reg :=
  match d.mode with
  | .register | .deferred => none
  | .autoInc | .autoIncDeferred | .autoDec | .autoDecDeferred => some d.reg
  | .indexed | .indexedDeferred => some .pc

/-- `a` is a byte of the register that resolving `d` writes. -/
def Stepped (d : Specifier) (p : Params) (a : Word) : Prop := ∃ r, steppedReg d = some r ∧ InWord a (regAddr p r)

/-! ## Trace -/

/-- The events a list of accesses emits: those at addresses that are not register-mapped (R64). -/
def visible (p : Params) (accesses : List TraceEvent) : List TraceEvent := accesses.filter fun e => !isReg p e.addr

/-! ## Where a data instruction finds and leaves its operands (R160, R180) -/

/-- The destination of a double-operand word instruction: its address, latched, and the state before it is read or written. -/
def destinationWord (src dst : Specifier) (s : State) : Word × State := resolve dst (sourceWord src (s.decoded false)).2

/-- The destination of a double-operand byte instruction. -/
def destinationByte (src dst : Specifier) (s : State) : Word × State := resolve dst (sourceByte src (s.decoded true)).2

/-- `t` is `u` with the processor running and the condition codes `f` in the status word: every byte outside the status word,
bits 15:4 of the status word and all state outside the array are as in `u` (R31, R148). -/
structure EndsWith (t u : State) (f : Flags) : Prop where
  flags : t.flags = f
  pswRest : ∀ i, 4 ≤ i → t.psw.getLsbD i = u.psw.getLsbD i
  bytes : ∀ a, ¬ InWord a u.params.pswAddr → t.peek a = u.peek a
  status : t.status = .running
  params : t.params = u.params
  byteMode : t.byteMode = u.byteMode
  advisory : t.advisoryOddPc = u.advisoryOddPc
  trace : t.trace = u.trace

/-- What an instruction leaves unchanged: every byte it does not touch outside the status word, every register it does not
touch, bits 15:4 of the status word where it does not touch that, and the state outside the array but for what decode, the end
of the instruction and the trace port write. -/
structure Keeps (s t : State) (byte : Bool) (touched : Word → Prop) : Prop where
  bytes : ∀ a, ¬ touched a → ¬ InWord a s.params.pswAddr → t.peek a = s.peek a
  registers : ∀ r, (∀ a, InWord a (regAddr s.params r) → ¬ touched a) → t.reg r = s.reg r
  pswRest : (∀ a, InWord a s.params.pswAddr → ¬ touched a) → ∀ i, 4 ≤ i → t.psw.getLsbD i = s.psw.getLsbD i
  params : t.params = s.params
  advisory : t.advisoryOddPc = s.advisoryOddPc
  byteMode : t.byteMode = byte

/-- The address a branch goes to: `pc` after the fetch plus twice the signed offset, modulo 65,536 (R87, R220). -/
def branchTarget (s : State) (off : BitVec 8) : Word := BitVec.ofInt 16 ((s.reg .pc).toNat + 2 * off.toInt)

/-- A state in which a branch has completed: only `pc` is written, and only where the branch is taken (R220). -/
def afterBranch (s : State) (off : BitVec 8) (taken : Bool) : State :=
  { (if taken then s.setReg .pc (branchTarget s off) else s) with byteMode := false, status := .running }

/-! ## Encoding -/

/-- An instruction has its place in the opcode map: its word matches the row and decodes to it, every operand included (R93). -/
def EncodedBy (i : Instr) (pattern mask : Word) : Prop :=
  encodeWord i &&& mask = pattern ∧ decodeWord (encodeWord i) = .instr i

/-- The list of illegal ranges of R96, first and last word of each. -/
def illegalRanges : List (Nat × Nat) :=
  [(0o000002, 0o000004), (0o000006, 0o000077), (0o000210, 0o000237), (0o000240, 0o000240)] ++
  [(0o000243, 0o000243), (0o000245, 0o000247), (0o000251, 0o000257), (0o000260, 0o000260)] ++
  [(0o000263, 0o000263), (0o000265, 0o000267), (0o000271, 0o000277), (0o006000, 0o006777)] ++
  [(0o007000, 0o007777), (0o070000, 0o077777), (0o104000, 0o104777), (0o106000, 0o106777)] ++
  [(0o107000, 0o107777), (0o170000, 0o177777)]

/-! ## Arithmetic -/

/-- An integer is outside the range of `w`-bit two's complement (R147). -/
def outOfRange (w : Nat) (z : Int) : Bool := decide (z < -2 ^ (w - 1)) || decide (2 ^ (w - 1) ≤ z)

end Sys2Proof.Machine
end

