-- ==== Sys2Proof/Certificates/Slice0/Obligations.lean ====
section
/-! DEFINITION. The statements about the model. Each docstring names the rules of spec/ the statement formalises or rests on. -/

open Sys2Proof Sys2Proof.Machine

/-! ## Encoding -/

/-- Words written out in the spec's examples decode to the instructions they stand for (R161, R164, R171, R187, R196, R197, R211,
R221, R235, R241 to R243, R250 to R252, R254, R130). -/
def Obligations.SpecWordsDecode : Prop :=
  decodeWord 0o012700 = .instr (.mov ⟨.autoInc, .pc⟩ ⟨.register, .r0⟩) ∧
  decodeWord 0o120001 = .instr (.cmpb ⟨.register, .r0⟩ ⟨.register, .r1⟩) ∧
  decodeWord 0o066162 = .instr (.add ⟨.indexed, .r1⟩ ⟨.indexed, .r2⟩) ∧
  decodeWord 0o160001 = .instr (.sub ⟨.register, .r0⟩ ⟨.register, .r1⟩) ∧
  decodeWord 0o005301 = .instr (.dec ⟨.register, .r1⟩) ∧
  decodeWord 0o105700 = .instr (.tstb ⟨.register, .r0⟩) ∧
  decodeWord 0o000300 = .instr (.swab ⟨.register, .r0⟩) ∧
  decodeWord 0o000241 = .instr .clc ∧
  decodeWord 0o000775 = .instr (.br 0o375) ∧
  decodeWord 0o103402 = .instr (.bcs 0o002) ∧
  decodeWord 0o000131 = .instr (.jmp ⟨.autoIncDeferred, .r1⟩) ∧
  decodeWord 0o004121 = .instr (.jsr .r1 ⟨.autoInc, .r1⟩) ∧
  decodeWord 0o000205 = .instr (.rts .r5) ∧
  decodeWord 0o000000 = .instr .halt ∧
  decodeWord 0o000001 = .instr .wait ∧
  decodeWord 0o000005 = .instr .reset ∧
  decodeWord 0o000240 = .reject .conditionCodeSpace ∧
  decodeWord 0o006300 = .reject .shiftSpace

/-- Decoding the bytes of any encoded instruction gives that instruction back, with every operand at every value its field can
hold, and leaves the bytes that follow (R80 to R84, R93). -/
def Obligations.DecodeEncodeRoundTrip : Prop :=
  ∀ (i : Instr) (rest : List Byte), decode (encode i ++ rest) = .instr i rest

/-- R93: the decoder follows the opcode map. A word decodes to an instruction exactly when it selects a row, the row is that
instruction's, no second row is selected, and the instruction's encoding is the word itself. -/
def Obligations.DecoderFollowsTheOpcodeMap : Prop :=
  opcodeMap.length = 58 ∧
  ∀ ir : Word,
    (∀ i, decodeWord ir = .instr i → i.opcodeRow ∈ opcodeMap ∧ ir &&& i.opcodeRow.mask = i.opcodeRow.pattern ∧ encodeWord i = ir) ∧
    (∀ row ∈ opcodeMap, ir &&& row.mask = row.pattern → ∃ i, decodeWord ir = .instr i ∧ i.opcodeRow = row)

/-- R96: the words that are no instruction are exactly the listed ranges, and a step that fetches one ends in
`Faulted(IllegalInstruction)`. -/
def Obligations.IllegalWordsAreTheListedRanges : Prop :=
  ∀ ir : Word,
    ((∃ why, decodeWord ir = .reject why) ↔ ∃ range ∈ illegalRanges, range.1 ≤ ir.toNat ∧ ir.toNat ≤ range.2) ∧
    ∀ s : State, s.status.terminal = false → s.peekWord (s.reg .pc) = ir → (∃ why, decodeWord ir = .reject why) →
      ∃ t, step s = .next t ∧ t.status = .faulted .illegalInstruction

/-- R98: the words 000100 to 000107 are JMP, and those with `IR and 0xFE38 = 0x0800` JSR, with a register-direct operand; both
are illegal, and the fault is raised before any operand is resolved: nothing but `STATE` and decode's `BYTEMODE` changes. -/
def Obligations.RegisterDirectJumpsAreIllegal : Prop :=
  (∀ ir : Word, (0o000100 ≤ ir.toNat ∧ ir.toNat ≤ 0o000107) ↔ ∃ q, decodeWord ir = .instr (.jmp ⟨.register, q⟩)) ∧
  (∀ ir : Word, ir &&& 0xFE38 = 0x0800 ↔ ∃ r q, decodeWord ir = .instr (.jsr r ⟨.register, q⟩)) ∧
  ∀ (s : State) (r q : Reg),
    exec (.jmp ⟨.register, q⟩) s = .next { s with byteMode := false, status := .faulted .illegalInstruction } ∧
    exec (.jsr r ⟨.register, q⟩) s = .next { s with byteMode := false, status := .faulted .illegalInstruction }

/-- R85: a word decodes to a byte instruction exactly when `t` = 1 and it is of the double-operand class with `f4` in 1..5 or of
the single-operand class; each of the 13 is its word form with `t` = 1; for these and only these `BYTEMODE` is set to 1. -/
def Obligations.ByteInstructionsSetByteMode : Prop :=
  (∀ (ir : Word) (i : Instr), decodeWord ir = .instr i →
    (i.isByte = true ↔ topBit ir = true ∧ ((1 ≤ (f4 ir).toNat ∧ (f4 ir).toNat ≤ 5) ∨ (f4 ir = 0 ∧ f3 ir = 5)))) ∧
  (∀ (src dst : Specifier) (pair : Instr × Instr),
    pair ∈ [(.mov src dst, .movb src dst), (.cmp src dst, .cmpb src dst), (.bit src dst, .bitb src dst),
      (.bic src dst, .bicb src dst), (.bis src dst, .bisb src dst), (.clr dst, .clrb dst), (.com dst, .comb dst),
      (.inc dst, .incb dst), (.dec dst, .decb dst), (.neg dst, .negb dst), (.adc dst, .adcb dst), (.sbc dst, .sbcb dst),
      (.tst dst, .tstb dst)] →
    encodeWord pair.2 = encodeWord pair.1 ||| 0x8000) ∧
  ∀ (i : Instr) (s t : State), exec i s = .next t → t.byteMode = i.isByte

/-- What each specifier consumes of the instruction stream: `pc` moves past one word for modes 6 and 7 and for modes 2 and 3 with
register 7, past none otherwise; only modes 4 and 5 with register 7 move it back (R86, R113, R117). -/
def Obligations.ExtensionWordsConsumed : Prop :=
  ∀ (d : Specifier) (s : State),
    (resolve d s).2.reg .pc =
      if d.reg = .pc ∧ (d.mode = .autoDec ∨ d.mode = .autoDecDeferred) then s.reg .pc - (if s.byteMode then 1#16 else 2#16)
      else s.reg .pc + BitVec.ofNat 16 (2 * d.extensionWords)

/-! ## Memory, registers, stack -/

/-- R52, with the little-endian reading of a word at any address, even or odd, wrapping at the top (R51, R53, R54), and a store
seen by the very next fetch (R75). -/
def Obligations.MixedWidthAccessSeesTheSameBytes : Prop :=
  ∀ (s : State) (a v : Word) (b : Byte),
    (memReadByte a (memWriteWord a v s)).1 = v.extractLsb' 0 8 ∧
    (memReadByte (a + 1#16) (memWriteWord a v s)).1 = v.extractLsb' 8 8 ∧
    (memWriteByte a b s).peekWord a = (s.peekWord a).extractLsb' 8 8 ++ b ∧
    (memWriteByte (a + 1#16) b s).peekWord a = b ++ (s.peekWord a).extractLsb' 0 8 ∧
    (fetchWord a (memWriteWord a v s)).1 = v ∧
    (s.peekWord a).toNat =
      (Memory.read s.mem a.toNat).toNat + 256 * (Memory.read s.mem ((a.toNat + 1) % 65536)).toNat

/-- R55 to R58: the traced access primitives. A read changes no byte; a write changes the bytes it names and no other; each emits
one event, none at a register-mapped address; a fetch's event is of its own kind; the advance of `pc` emits none. -/
def Obligations.AccessPrimitives : Prop :=
  ∀ (s : State) (a v : Word) (b : Byte),
    (memReadByte a s).1 = s.peek a ∧ (memReadByte a s).2 = s.note .read a ∧
    (memReadWord a s).1 = s.peek (a + 1#16) ++ s.peek a ∧ (memReadWord a s).2 = s.note .read a ∧
    (fetchWord a s).1 = (memReadWord a s).1 ∧ (fetchWord a s).2 = s.note .instructionFetch a ∧
    (∀ c, (memWriteByte a b s).peek c = if c = a then b else s.peek c) ∧
    (∀ c, (memWriteWord a v s).peek c =
      if c = a + 1#16 then v.extractLsb' 8 8 else if c = a then v.extractLsb' 0 8 else s.peek c) ∧
    (memWriteByte a b s).trace = (s.note .write a).trace ∧ (memWriteWord a v s).trace = (s.note .write a).trace ∧
    (∀ kind, (s.note kind a).mem = s.mem ∧
      (s.note kind a).trace = if isReg s.params a then s.trace else s.trace ++ [⟨kind, a⟩]) ∧
    (advancePc s).reg .pc = s.reg .pc + 2#16 ∧ (advancePc s).trace = s.trace

/-- The registers and the status word are separate words of the byte array: writing one changes that one and no other, emits no
event, and a register's bytes are at `REG_BASE + 2n` and the next address, both register-mapped (R22, R23, R25, R30, R60). -/
def Obligations.RegistersAreSeparateWordsOfMemory : Prop :=
  ∀ (s : State) (r : Reg) (v : Word), s.params.Valid →
    (regAddr s.params r).toNat = s.params.regBase.toNat + 2 * regNumber r ∧
    isReg s.params (regAddr s.params r) = true ∧ isReg s.params (regAddr s.params r + 1#16) = true ∧
    s.reg r = s.peek (regAddr s.params r + 1#16) ++ s.peek (regAddr s.params r) ∧
    (s.setReg r v).reg r = v ∧ (∀ q, q ≠ r → (s.setReg r v).reg q = s.reg q) ∧ (s.setReg r v).psw = s.psw ∧
    (∀ a, ¬ InWord a (regAddr s.params r) → (s.setReg r v).peek a = s.peek a) ∧ (s.setReg r v).trace = s.trace ∧
    (s.setPsw v).psw = v ∧ (∀ q, (s.setPsw v).reg q = s.reg q) ∧
    (∀ a, ¬ InWord a s.params.pswAddr → (s.setPsw v).peek a = s.peek a) ∧ (s.setPsw v).trace = s.trace

/-- R66 to R68: the stack primitives. `PushWord` answers nothing, so changes neither `sp` nor `M`, exactly when the new stack
pointer is below the limit as an unsigned number; else it writes `sp` and then the word at the new `sp`. `PopWord` reads the word
at `sp` and steps `sp` by 2. After a push whose slot is not the bytes of `sp` itself the word at `sp` is the word pushed, and a
pop gives it back and restores `sp`. -/
def Obligations.PopUndoesPush : Prop :=
  (∀ (s : State) (v : Word),
    (pushWord v s = none ↔ (s.reg .sp - 2#16).toNat < s.params.stackLimit.toNat) ∧
    (s.params.stackLimit.toNat ≤ (s.reg .sp - 2#16).toNat →
      pushWord v s = some (memWriteWord (s.reg .sp - 2#16) v (s.setReg .sp (s.reg .sp - 2#16)))) ∧
    ((s.reg .sp).toNat < 2 → (s.reg .sp - 2#16).toNat = (s.reg .sp).toNat + 65534) ∧
    (popWord s).1 = s.peekWord (s.reg .sp) ∧
    (popWord s).2 = (s.note .read (s.reg .sp)).setReg .sp (s.reg .sp + 2#16)) ∧
  ∀ (s u : State) (v : Word), pushWord v s = some u → Apart (s.reg .sp - 2#16) (regAddr s.params .sp) →
    u.reg .sp = s.reg .sp - 2#16 ∧ u.peekWord (u.reg .sp) = v ∧ (popWord u).1 = v ∧ (popWord u).2.reg .sp = s.reg .sp

/-- R127 and R128: operand data access. A byte read gives `M[ea]` at every address; a byte write changes exactly `M[ea]`, except
where MOVB's sign extension into a register is selected and writes the whole word; each access emits one event, none at a
register-mapped address. -/
def Obligations.OperandAccess : Prop :=
  ∀ (s : State) (ea v : Word) (b : Byte),
    opReadWord ea s = (s.peekWord ea, s.note .read ea) ∧ opReadByte ea s = (s.peek ea, s.note .read ea) ∧
    opWriteWord ea v s = memWriteWord ea v s ∧
    (∀ c, (opWriteByte false ea b s).peek c = if c = ea then b else s.peek c) ∧
    (isReg s.params ea = true → (opWriteByte true ea b s).peekWord ea = b.signExtend 16 ∧
      ∀ c, ¬ InWord c ea → (opWriteByte true ea b s).peek c = s.peek c) ∧
    (isReg s.params ea = false → ∀ c, (opWriteByte true ea b s).peek c = if c = ea then b else s.peek c) ∧
    (∀ extend, (opWriteByte extend ea b s).trace = s.trace ++ visible s.params [⟨.write, ea⟩]) ∧
    ∀ d : Specifier, movbExtends s d = true ↔ s.params.movbSext = true ∧ d.mode = .register

/-! ## The operand resolver -/

/-- R114: modes 0 and 1. -/
def Obligations.ResolveRegisterAndDeferred : Prop :=
  ∀ (r : Reg) (s : State),
    resolve ⟨.register, r⟩ s = (regAddr s.params r, s) ∧ resolve ⟨.deferred, r⟩ s = (s.reg r, s)

/-- R115 and R116: modes 2 and 3, with immediate and absolute. The step is 2 for SP and PC, else 1 in byte mode and 2 in word
mode; the pointer of mode 3 is read at the register's old value, with one Read event unless that is register-mapped. -/
def Obligations.ResolveAutoincrement : Prop :=
  ∀ (r : Reg) (s : State),
    let k : Word := if r = .sp ∨ r = .pc then 2 else if s.byteMode then 1 else 2
    (resolve ⟨.autoInc, r⟩ s).1 = s.reg r ∧
    (resolve ⟨.autoInc, r⟩ s).2.reg r = s.reg r + k ∧
    (resolve ⟨.autoInc, r⟩ s).2.trace = s.trace ∧
    (resolve ⟨.autoIncDeferred, r⟩ s).1 = s.peek (s.reg r + 1#16) ++ s.peek (s.reg r) ∧
    (resolve ⟨.autoIncDeferred, r⟩ s).2.reg r = s.reg r + k ∧
    (resolve ⟨.autoIncDeferred, r⟩ s).2.trace = s.trace ++ visible s.params [⟨.read, s.reg r⟩]

/-- R117 and R118: modes 4 and 5. The register is decremented before use, by 2 for SP, else by 1 in byte mode and 2 in word mode,
for PC too, with no stack-limit check; the pointer of mode 5 is read at the new value after the register holds it. -/
def Obligations.ResolveAutodecrement : Prop :=
  ∀ (r : Reg) (s : State),
    let k : Word := if r = .sp then 2 else if s.byteMode then 1 else 2
    let lowered := s.setReg r (s.reg r - k)
    resolve ⟨.autoDec, r⟩ s = (s.reg r - k, lowered) ∧
    (resolve ⟨.autoDecDeferred, r⟩ s).1 = lowered.peek (s.reg r - k + 1#16) ++ lowered.peek (s.reg r - k) ∧
    (resolve ⟨.autoDecDeferred, r⟩ s).2.reg r = s.reg r - k ∧
    (resolve ⟨.autoDecDeferred, r⟩ s).2.mem = lowered.mem ∧
    (resolve ⟨.autoDecDeferred, r⟩ s).2.trace = s.trace ++ visible s.params [⟨.read, s.reg r - k⟩]

/-- R119 and R120: modes 6 and 7, with relative and deferred relative. The extension word is read at `pc`, `pc` is advanced, and
then the register is read, so that with register 7 the base is the address past the extension word. -/
def Obligations.ResolveIndexed : Prop :=
  ∀ (r : Reg) (s : State),
    let x := s.peekWord (s.reg .pc)
    let base := if r = .pc then s.reg .pc + 2#16 else s.reg r
    let advanced := s.setReg .pc (s.reg .pc + 2#16)
    (resolve ⟨.indexed, r⟩ s).1 = base + x ∧
    (resolve ⟨.indexed, r⟩ s).2.mem = advanced.mem ∧
    (resolve ⟨.indexed, r⟩ s).2.trace = s.trace ++ visible s.params [⟨.read, s.reg .pc⟩] ∧
    (resolve ⟨.indexedDeferred, r⟩ s).1 = advanced.peek (base + x + 1#16) ++ advanced.peek (base + x) ∧
    (resolve ⟨.indexedDeferred, r⟩ s).2.mem = advanced.mem ∧
    (resolve ⟨.indexedDeferred, r⟩ s).2.trace =
      s.trace ++ visible s.params [⟨.read, s.reg .pc⟩, ⟨.read, base + x⟩]

/-- R121: the program-counter column. `P` is `pc` when the resolver is called; the pointers of modes 5 and 7 are read after `pc`
has moved. -/
def Obligations.ResolveWithRegisterSeven : Prop :=
  ∀ s : State,
    let P := s.reg .pc
    let k : Word := if s.byteMode then 1 else 2
    let at' (m : Mode) := ((resolve ⟨m, .pc⟩ s).1, (resolve ⟨m, .pc⟩ s).2.reg .pc)
    at' .register = (regAddr s.params .pc, P) ∧
    at' .deferred = (P, P) ∧
    at' .autoInc = (P, P + 2) ∧
    at' .autoIncDeferred = (s.peekWord P, P + 2) ∧
    at' .autoDec = (P - k, P - k) ∧
    at' .autoDecDeferred = ((s.setReg .pc (P - k)).peekWord (P - k), P - k) ∧
    at' .indexed = (P + 2 + s.peekWord P, P + 2) ∧
    at' .indexedDeferred = ((s.setReg .pc (P + 2)).peekWord (P + 2 + s.peekWord P), P + 2)

/-- What a resolve leaves unchanged: every byte but the two of the register its mode writes, so every other register, the status
word and every byte that is not register-mapped; and all state outside the array but for Read events at addresses that are not
register-mapped (R110, R124, R149). -/
def Obligations.ResolveFrame : Prop :=
  ∀ (d : Specifier) (s : State),
    (∀ a, ¬ Stepped d s.params a → (resolve d s).2.peek a = s.peek a) ∧
    (∀ r, steppedReg d ≠ some r → (resolve d s).2.reg r = s.reg r) ∧
    (s.params.Valid → (resolve d s).2.psw = s.psw ∧ ∀ a, isReg s.params a = false → (resolve d s).2.peek a = s.peek a) ∧
    (resolve d s).2.params = s.params ∧ (resolve d s).2.byteMode = s.byteMode ∧ (resolve d s).2.status = s.status ∧
    (resolve d s).2.advisoryOddPc = s.advisoryOddPc ∧
    ∃ events, (resolve d s).2.trace = s.trace ++ events ∧ ∀ e ∈ events, e.kind = .read ∧ isReg s.params e.addr = false

/-! ## Double-operand instructions -/

/-- R161: MOV. -/
def Obligations.MovCopiesTheWord : Prop :=
  ∀ (src dst : Specifier) (s : State),
    EncodedBy (.mov src dst) 0x1000 0xF000 ∧
    let sa := resolve src (s.decoded false)
    let x := opReadWord sa.1 sa.2
    let da := resolve dst x.2
    let u := opWriteWord da.1 x.1 da.2
    ∃ t, exec (.mov src dst) s = .next t ∧ EndsWith t u ⟨x.1.getLsbD 15, x.1 == 0, false, u.flags.c⟩

/-- R162: MOVB, with the sign extension that the parameter selects for a register destination. -/
def Obligations.MovbCopiesTheByte : Prop :=
  ∀ (src dst : Specifier) (s : State),
    EncodedBy (.movb src dst) 0x9000 0xF000 ∧
    let sa := resolve src (s.decoded true)
    let x := opReadByte sa.1 sa.2
    let da := resolve dst x.2
    let u := opWriteByte (s.params.movbSext && dst.mode == .register) da.1 x.1 da.2
    ∃ t, exec (.movb src dst) s = .next t ∧ EndsWith t u ⟨x.1.getLsbD 7, x.1 == 0, false, u.flags.c⟩

/-- R163 and R164: CMP and CMPB, the flags of `src - dst`, nothing written but the flags. -/
def Obligations.CompareSetsTheFlagsOfTheDifference : Prop :=
  ∀ (src dst : Specifier) (s : State),
    (EncodedBy (.cmp src dst) 0x2000 0xF000 ∧
      let sa := resolve src (s.decoded false)
      let x := opReadWord sa.1 sa.2
      let da := resolve dst x.2
      let y := opReadWord da.1 da.2
      let res := x.1 - y.1
      ∃ t, exec (.cmp src dst) s = .next t ∧
        EndsWith t y.2 ⟨res.getLsbD 15, res == 0, x.1.msb != y.1.msb && res.msb == y.1.msb, decide (x.1.toNat < y.1.toNat)⟩) ∧
    (EncodedBy (.cmpb src dst) 0xA000 0xF000 ∧
      let sa := resolve src (s.decoded true)
      let x := opReadByte sa.1 sa.2
      let da := resolve dst x.2
      let y := opReadByte da.1 da.2
      let res := x.1 - y.1
      ∃ t, exec (.cmpb src dst) s = .next t ∧
        EndsWith t y.2 ⟨res.getLsbD 7, res == 0, x.1.msb != y.1.msb && res.msb == y.1.msb, decide (x.1.toNat < y.1.toNat)⟩)

/-- R165 and R166: BIT and BITB, the flags of `src and dst`, nothing written but the flags. -/
def Obligations.BitTestSetsTheFlagsOfTheConjunction : Prop :=
  ∀ (src dst : Specifier) (s : State),
    (EncodedBy (.bit src dst) 0x3000 0xF000 ∧
      let sa := resolve src (s.decoded false)
      let x := opReadWord sa.1 sa.2
      let da := resolve dst x.2
      let y := opReadWord da.1 da.2
      let res := x.1 &&& y.1
      ∃ t, exec (.bit src dst) s = .next t ∧ EndsWith t y.2 ⟨res.getLsbD 15, res == 0, false, y.2.flags.c⟩) ∧
    (EncodedBy (.bitb src dst) 0xB000 0xF000 ∧
      let sa := resolve src (s.decoded true)
      let x := opReadByte sa.1 sa.2
      let da := resolve dst x.2
      let y := opReadByte da.1 da.2
      let res := x.1 &&& y.1
      ∃ t, exec (.bitb src dst) s = .next t ∧ EndsWith t y.2 ⟨res.getLsbD 7, res == 0, false, y.2.flags.c⟩)

/-- R167 to R170: BIC, BICB, BIS and BISB. -/
def Obligations.BitClearAndBitSet : Prop :=
  ∀ (src dst : Specifier) (s : State),
    (∀ p ∈ [(Instr.bic src dst, 0x4000#16, fun x y : Word => y &&& ~~~x), (.bis src dst, 0x5000#16, fun x y : Word => y ||| x)],
      EncodedBy p.1 p.2.1 0xF000 ∧
      let sa := resolve src (s.decoded false)
      let x := opReadWord sa.1 sa.2
      let da := resolve dst x.2
      let y := opReadWord da.1 da.2
      let res := p.2.2 x.1 y.1
      let u := opWriteWord da.1 res y.2
      ∃ t, exec p.1 s = .next t ∧ EndsWith t u ⟨res.getLsbD 15, res == 0, false, u.flags.c⟩) ∧
    (∀ p ∈ [(Instr.bicb src dst, 0xC000#16, fun x y : Byte => y &&& ~~~x), (.bisb src dst, 0xD000#16, fun x y : Byte => y ||| x)],
      EncodedBy p.1 p.2.1 0xF000 ∧
      let sa := resolve src (s.decoded true)
      let x := opReadByte sa.1 sa.2
      let da := resolve dst x.2
      let y := opReadByte da.1 da.2
      let res := p.2.2 x.1 y.1
      let u := opWriteByte false da.1 res y.2
      ∃ t, exec p.1 s = .next t ∧ EndsWith t u ⟨res.getLsbD 7, res == 0, false, u.flags.c⟩)

/-- R171: ADD. C is the carry out of bit 15; V is set where the operands have one sign bit and the result the other. -/
def Obligations.AddWordsWithCarryAndOverflow : Prop :=
  ∀ (src dst : Specifier) (s : State),
    EncodedBy (.add src dst) 0x6000 0xF000 ∧
    let sa := resolve src (s.decoded false)
    let x := opReadWord sa.1 sa.2
    let da := resolve dst x.2
    let y := opReadWord da.1 da.2
    let res := BitVec.ofNat 16 (x.1.toNat + y.1.toNat)
    let u := opWriteWord da.1 res y.2
    ∃ t, exec (.add src dst) s = .next t ∧
      EndsWith t u ⟨res.getLsbD 15, res == 0, x.1.getLsbD 15 == y.1.getLsbD 15 && res.getLsbD 15 != x.1.getLsbD 15,
        decide (65536 ≤ x.1.toNat + y.1.toNat)⟩

/-- R172: SUB, `dst - src`. C is the borrow; V is set where the operands' sign bits differ and the result has that of `src`. -/
def Obligations.SubtractWordsWithBorrowAndOverflow : Prop :=
  ∀ (src dst : Specifier) (s : State),
    EncodedBy (.sub src dst) 0xE000 0xF000 ∧
    let sa := resolve src (s.decoded false)
    let x := opReadWord sa.1 sa.2
    let da := resolve dst x.2
    let y := opReadWord da.1 da.2
    let res := BitVec.ofInt 16 ((y.1.toNat : Int) - x.1.toNat)
    let u := opWriteWord da.1 res y.2
    ∃ t, exec (.sub src dst) s = .next t ∧
      EndsWith t u ⟨res.getLsbD 15, res == 0, y.1.getLsbD 15 != x.1.getLsbD 15 && res.getLsbD 15 == x.1.getLsbD 15,
        decide (y.1.toNat < x.1.toNat)⟩

/-! ## Single-operand instructions -/

/-- R181 and R182: CLR and CLRB; the destination is not read. -/
def Obligations.ClearWritesZero : Prop :=
  ∀ (dst : Specifier) (s : State),
    (EncodedBy (.clr dst) 0x0A00 0xFFC0 ∧
      let da := resolve dst (s.decoded false)
      ∃ t, exec (.clr dst) s = .next t ∧ EndsWith t (opWriteWord da.1 0 da.2) ⟨false, true, false, false⟩) ∧
    (EncodedBy (.clrb dst) 0x8A00 0xFFC0 ∧
      let da := resolve dst (s.decoded true)
      ∃ t, exec (.clrb dst) s = .next t ∧ EndsWith t (opWriteByte false da.1 0 da.2) ⟨false, true, false, false⟩)

/-- R183 and R184: COM and COMB; V is cleared and C set. -/
def Obligations.ComplementInvertsEveryBit : Prop :=
  ∀ (dst : Specifier) (s : State),
    (EncodedBy (.com dst) 0x0A40 0xFFC0 ∧
      let da := resolve dst (s.decoded false)
      let y := opReadWord da.1 da.2
      let res := ~~~y.1
      ∃ t, exec (.com dst) s = .next t ∧ EndsWith t (opWriteWord da.1 res y.2) ⟨res.getLsbD 15, res == 0, false, true⟩) ∧
    (EncodedBy (.comb dst) 0x8A40 0xFFC0 ∧
      let da := resolve dst (s.decoded true)
      let y := opReadByte da.1 da.2
      let res := ~~~y.1
      ∃ t, exec (.comb dst) s = .next t ∧ EndsWith t (opWriteByte false da.1 res y.2) ⟨res.getLsbD 7, res == 0, false, true⟩)

/-- R185 to R188: INC, INCB, DEC and DECB; C is what the status word holds after the data is written. -/
def Obligations.IncrementAndDecrement : Prop :=
  ∀ (dst : Specifier) (s : State),
    (∀ p ∈ [(Instr.inc dst, 0x0A80#16, 1#16, 0o077777#16), (.dec dst, 0x0AC0#16, 0xFFFF#16, 0o100000#16)],
      EncodedBy p.1 p.2.1 0xFFC0 ∧
      let da := resolve dst (s.decoded false)
      let y := opReadWord da.1 da.2
      let res := y.1 + p.2.2.1
      let u := opWriteWord da.1 res y.2
      ∃ t, exec p.1 s = .next t ∧ EndsWith t u ⟨res.getLsbD 15, res == 0, y.1 == p.2.2.2, u.flags.c⟩) ∧
    (∀ p ∈ [(Instr.incb dst, 0x8A80#16, 1#8, 0o177#8), (.decb dst, 0x8AC0#16, 0xFF#8, 0o200#8)],
      EncodedBy p.1 p.2.1 0xFFC0 ∧
      let da := resolve dst (s.decoded true)
      let y := opReadByte da.1 da.2
      let res := y.1 + p.2.2.1
      let u := opWriteByte false da.1 res y.2
      ∃ t, exec p.1 s = .next t ∧ EndsWith t u ⟨res.getLsbD 7, res == 0, y.1 == p.2.2.2, u.flags.c⟩)

/-- R189 and R190: NEG and NEGB. -/
def Obligations.NegateSubtractsFromZero : Prop :=
  ∀ (dst : Specifier) (s : State),
    (EncodedBy (.neg dst) 0x0B00 0xFFC0 ∧
      let da := resolve dst (s.decoded false)
      let y := opReadWord da.1 da.2
      let res := BitVec.ofInt 16 (0 - y.1.toNat)
      ∃ t, exec (.neg dst) s = .next t ∧
        EndsWith t (opWriteWord da.1 res y.2) ⟨res.getLsbD 15, res == 0, y.1 == 0o100000, y.1 != 0⟩) ∧
    (EncodedBy (.negb dst) 0x8B00 0xFFC0 ∧
      let da := resolve dst (s.decoded true)
      let y := opReadByte da.1 da.2
      let res := BitVec.ofInt 8 (0 - y.1.toNat)
      ∃ t, exec (.negb dst) s = .next t ∧
        EndsWith t (opWriteByte false da.1 res y.2) ⟨res.getLsbD 7, res == 0, y.1 == 0o200, y.1 != 0⟩)

/-- R191 to R194: ADC, ADCB, SBC and SBCB, with the C flag as it was before anything is written. -/
def Obligations.AddAndSubtractCarry : Prop :=
  ∀ (dst : Specifier) (s : State),
    let c0 := s.flags.c
    (EncodedBy (.adc dst) 0x0B40 0xFFC0 ∧
      let da := resolve dst (s.decoded false)
      let y := opReadWord da.1 da.2
      let res := BitVec.ofNat 16 (y.1.toNat + c0.toNat)
      ∃ t, exec (.adc dst) s = .next t ∧ EndsWith t (opWriteWord da.1 res y.2)
        ⟨res.getLsbD 15, res == 0, y.1 == 0o077777 && c0, y.1 == 0o177777 && c0⟩) ∧
    (EncodedBy (.adcb dst) 0x8B40 0xFFC0 ∧
      let da := resolve dst (s.decoded true)
      let y := opReadByte da.1 da.2
      let res := BitVec.ofNat 8 (y.1.toNat + c0.toNat)
      ∃ t, exec (.adcb dst) s = .next t ∧ EndsWith t (opWriteByte false da.1 res y.2)
        ⟨res.getLsbD 7, res == 0, y.1 == 0o177 && c0, y.1 == 0o377 && c0⟩) ∧
    (EncodedBy (.sbc dst) 0x0B80 0xFFC0 ∧
      let da := resolve dst (s.decoded false)
      let y := opReadWord da.1 da.2
      let res := BitVec.ofInt 16 ((y.1.toNat : Int) - c0.toNat)
      ∃ t, exec (.sbc dst) s = .next t ∧ EndsWith t (opWriteWord da.1 res y.2)
        ⟨res.getLsbD 15, res == 0, y.1 == 0o100000 && c0, y.1 == 0 && c0⟩) ∧
    (EncodedBy (.sbcb dst) 0x8B80 0xFFC0 ∧
      let da := resolve dst (s.decoded true)
      let y := opReadByte da.1 da.2
      let res := BitVec.ofInt 8 ((y.1.toNat : Int) - c0.toNat)
      ∃ t, exec (.sbcb dst) s = .next t ∧ EndsWith t (opWriteByte false da.1 res y.2)
        ⟨res.getLsbD 7, res == 0, y.1 == 0o200 && c0, y.1 == 0 && c0⟩)

/-- R195 and R196: TST and TSTB; N is the sign of the negated operand, and nothing is written but the flags. -/
def Obligations.TestSetsTheFlagsOfTheNegation : Prop :=
  ∀ (dst : Specifier) (s : State),
    (EncodedBy (.tst dst) 0x0BC0 0xFFC0 ∧
      let da := resolve dst (s.decoded false)
      let y := opReadWord da.1 da.2
      ∃ t, exec (.tst dst) s = .next t ∧
        EndsWith t y.2 ⟨(BitVec.ofInt 16 (0 - y.1.toNat)).getLsbD 15, y.1 == 0, false, false⟩) ∧
    (EncodedBy (.tstb dst) 0x8BC0 0xFFC0 ∧
      let da := resolve dst (s.decoded true)
      let y := opReadByte da.1 da.2
      ∃ t, exec (.tstb dst) s = .next t ∧
        EndsWith t y.2 ⟨(BitVec.ofInt 8 (0 - y.1.toNat)).getLsbD 7, y.1 == 0, false, false⟩)

/-- R197: SWAB; N and Z are those of the low byte of the result. -/
def Obligations.SwabExchangesTheBytes : Prop :=
  ∀ (dst : Specifier) (s : State),
    EncodedBy (.swab dst) 0x00C0 0xFFC0 ∧
    let da := resolve dst (s.decoded false)
    let y := opReadWord da.1 da.2
    let res := y.1.extractLsb' 0 8 ++ y.1.extractLsb' 8 8
    ∃ t, exec (.swab dst) s = .next t ∧
      EndsWith t (opWriteWord da.1 res y.2) ⟨res.getLsbD 7, res.extractLsb' 0 8 == 0, false, false⟩

/-! ## Condition codes, branches, jumps, control -/

/-- R211 to R218: each of the eight operations writes its one flag and nothing else. -/
def Obligations.ConditionCodeOperationsWriteOneFlag : Prop :=
  ∀ s : State,
    let f := s.flags
    ∀ p ∈ [(Instr.clc, 0o000241#16, { f with c := false }), (.clv, 0o000242#16, { f with v := false }),
      (.clz, 0o000244#16, { f with z := false }), (.cln, 0o000250#16, { f with n := false }),
      (.sec, 0o000261#16, { f with c := true }), (.sev, 0o000262#16, { f with v := true }),
      (.sez, 0o000264#16, { f with z := true }), (.sen, 0o000270#16, { f with n := true })],
      EncodedBy p.1 p.2.1 0xFFFF ∧ ∃ t, exec p.1 s = .next t ∧ EndsWith t (s.decoded false) p.2.2

/-- R221 to R227: BR and the branches on Z and on signed order. -/
def Obligations.BranchesOnZeroAndSignedOrder : Prop :=
  ∀ (off : BitVec 8) (s : State),
    let f := s.flags
    ∀ p ∈ [(Instr.br off, 0x0100#16, true), (.bne off, 0x0200#16, f.z == false), (.beq off, 0x0300#16, f.z == true),
      (.bge off, 0x0400#16, (f.n ^^ f.v) == false), (.blt off, 0x0500#16, (f.n ^^ f.v) == true),
      (.bgt off, 0x0600#16, (f.z || (f.n ^^ f.v)) == false), (.ble off, 0x0700#16, (f.z || (f.n ^^ f.v)) == true)],
      EncodedBy p.1 p.2.1 0xFF00 ∧ exec p.1 s = .next (afterBranch s off p.2.2)

/-- R228 to R235: the branches on N, on C and Z, on V and on C. -/
def Obligations.BranchesOnSingleFlagsAndUnsignedOrder : Prop :=
  ∀ (off : BitVec 8) (s : State),
    let f := s.flags
    ∀ p ∈ [(Instr.bpl off, 0x8000#16, f.n == false), (.bmi off, 0x8100#16, f.n == true),
      (.bhi off, 0x8200#16, (f.c || f.z) == false), (.blos off, 0x8300#16, (f.c || f.z) == true),
      (.bvc off, 0x8400#16, f.v == false), (.bvs off, 0x8500#16, f.v == true),
      (.bcc off, 0x8600#16, f.c == false), (.bcs off, 0x8700#16, f.c == true)],
      EncodedBy p.1 p.2.1 0xFF00 ∧ exec p.1 s = .next (afterBranch s off p.2.2)

/-- R241: JMP puts the effective address into `pc` and changes nothing else beyond the resolve; mode 0 is illegal before any side
effect. -/
def Obligations.JmpGoesToTheEffectiveAddress : Prop :=
  ∀ (dst : Specifier) (s : State),
    EncodedBy (.jmp dst) 0x0040 0xFFC0 ∧
    (dst.mode = .register → exec (.jmp dst) s = .next { s with byteMode := false, status := .faulted .illegalInstruction }) ∧
    (dst.mode ≠ .register →
      let ea := resolve dst (s.decoded false)
      ∃ t, exec (.jmp dst) s = .next t ∧ t.reg .pc = ea.1 ∧ t = { ea.2.setReg .pc ea.1 with status := .running })

/-- R242: JSR resolves first, pushes the linkage register as the resolve left it, moves `pc` to it, and jumps; a push that
overflows ends the step there, with the side effects of the resolve done; mode 0 is illegal before any side effect. -/
def Obligations.JsrPushesLinksAndJumps : Prop :=
  ∀ (r : Reg) (dst : Specifier) (s : State),
    EncodedBy (.jsr r dst) 0x0800 0xFE00 ∧
    (dst.mode = .register → exec (.jsr r dst) s = .next { s with byteMode := false, status := .faulted .illegalInstruction }) ∧
    (dst.mode ≠ .register →
      let ea := resolve dst (s.decoded false)
      let new := ea.2.reg .sp - 2#16
      (new.toNat < s.params.stackLimit.toNat →
        exec (.jsr r dst) s = .next { ea.2 with status := .faulted .stackOverflow }) ∧
      (s.params.stackLimit.toNat ≤ new.toNat →
        let pushed := memWriteWord new (ea.2.reg r) (ea.2.setReg .sp new)
        let linked := pushed.setReg r (pushed.reg .pc)
        ∃ t, exec (.jsr r dst) s = .next t ∧ t.reg .pc = ea.1 ∧ t = { linked.setReg .pc ea.1 with status := .running }))

/-- R243: RTS, register by register. `popped` is the word at `sp` once `pc` holds the linkage register; for `RTS PC` it goes into
`pc`, and for `RTS SP` it replaces the stepped stack pointer. Every other byte is unchanged. -/
def Obligations.RtsReturnsThroughTheLinkageRegister : Prop :=
  ∀ (r : Reg) (s : State),
    EncodedBy (.rts r) 0x0080 0xFFF8 ∧
    let returned := s.setReg .pc (s.reg r)
    let popped := returned.peekWord (returned.reg .sp)
    ∃ t, exec (.rts r) s = .next t ∧
      t.reg r = popped ∧ (r ≠ .pc → t.reg .pc = s.reg r) ∧ (r ≠ .sp → t.reg .sp = s.reg .sp + 2#16) ∧
      (∀ q, q ≠ r → q ≠ .pc → q ≠ .sp → t.reg q = s.reg q) ∧
      (∀ a, ¬ InWord a (regAddr s.params r) → ¬ InWord a (regAddr s.params .pc) → ¬ InWord a (regAddr s.params .sp) →
        t.peek a = s.peek a) ∧
      t.trace = s.trace ++ visible s.params [⟨.read, returned.reg .sp⟩] ∧
      t.status = .running ∧ t.params = s.params ∧ t.byteMode = false ∧ t.advisoryOddPc = s.advisoryOddPc

/-- HALT, WAIT and RESET change `STATE` and decode's `BYTEMODE` and nothing else (R250 to R252); after HALT and WAIT a further step
does nothing, after RESET it runs as from `Running`. That `BYTEMODE` is 0 afterwards is decode's write (R33, R142), not the
instructions' own: R252 says that RESET does not set `BYTEMODE`, and that decode's 0 stays is the model's own reading
(notes/assumptions/13.md, DEDUCED; that each meaning makes decode's write is notes/assumptions/10.md, DEDUCED). -/
def Obligations.ControlInstructionsChangeOnlyTheProcessorState : Prop :=
  ∀ s : State,
    (∀ p ∈ [(Instr.halt, 0o000000#16, Status.halted), (.wait, 0o000001#16, .waiting), (.reset, 0o000005#16, .reset)],
      EncodedBy p.1 p.2.1 0xFFFF ∧ exec p.1 s = .next { s with byteMode := false, status := p.2.2 }) ∧
    step { s with status := .halted } = .next { s with status := .halted } ∧
    step { s with status := .waiting } = .next { s with status := .waiting } ∧
    step { s with status := .reset } = step { s with status := .running }

/-- R263: a JSR whose push would go below the limit ends in `Faulted(StackOverflow)`: `sp`, memory, the linkage register and `pc`
are as the resolve left them, and the flags are unchanged. No other instruction ends so. -/
def Obligations.StackOverflowLeavesTheResolvedState : Prop :=
  (∀ (r : Reg) (dst : Specifier) (s : State), s.params.Valid → dst.mode ≠ .register →
    let ea := (resolve dst (s.decoded false)).2
    (ea.reg .sp - 2#16).toNat < s.params.stackLimit.toNat →
    ∃ t, exec (.jsr r dst) s = .next t ∧ t.status = .faulted .stackOverflow ∧ t.mem = ea.mem ∧ t.trace = ea.trace ∧
      (∀ q, steppedReg dst ≠ some q → t.reg q = s.reg q) ∧ t.flags = s.flags ∧ t.psw = s.psw ∧
      ∀ a, isReg s.params a = false → t.peek a = s.peek a) ∧
  ∀ (i : Instr) (s t : State), exec i s = .next t → t.status = .faulted .stackOverflow → ∃ r dst, i = .jsr r dst

/-! ## Frames -/

/-- What the word instructions that store leave unchanged: every byte but those of the destination word, whose address is the one
the meaning resolves, of the registers the specifiers step and of the status word; bits 15:4 of the status word and, for MOV, BIC,
BIS, INC and DEC, the C flag, where the destination is not the status word (R31, R40, R110, R160, R180). -/
def Obligations.WordStoresTouchOnlyTheDestination : Prop :=
  ∀ (src dst : Specifier) (s t : State) (i : Instr), s.params.Valid → exec i s = .next t →
    (i ∈ [.mov src dst, .bic src dst, .bis src dst, .add src dst, .sub src dst] →
      Keeps s t false (fun a =>
        InWord a (destinationWord src dst s).1 ∨ Stepped src s.params a ∨ Stepped dst s.params a)) ∧
    (i ∈ [.mov src dst, .bic src dst, .bis src dst] → Apart s.params.pswAddr (destinationWord src dst s).1 →
      t.flags.c = s.flags.c) ∧
    (i ∈ [.clr dst, .com dst, .inc dst, .dec dst, .neg dst, .adc dst, .sbc dst, .swab dst] →
      Keeps s t false (fun a => InWord a (resolve dst (s.decoded false)).1 ∨ Stepped dst s.params a)) ∧
    (i ∈ [.inc dst, .dec dst] → Apart s.params.pswAddr (resolve dst (s.decoded false)).1 → t.flags.c = s.flags.c)

/-- What the byte instructions that store leave unchanged: every byte but the one at the destination address (the whole register
where MOVB sign-extends into it), those of the registers the specifiers step and of the status word; bits 15:4 of the status word
and, where the instruction leaves it, the C flag, where the destination is not in the status word (R31, R40, R128, R198). -/
def Obligations.ByteStoresTouchOnlyTheDestination : Prop :=
  ∀ (src dst : Specifier) (s t : State) (i : Instr), s.params.Valid → exec i s = .next t →
    (i = .movb src dst →
      Keeps s t true (fun a =>
        (if s.params.movbSext = true ∧ dst.mode = .register then InWord a (destinationByte src dst s).1
          else a = (destinationByte src dst s).1) ∨ Stepped src s.params a ∨ Stepped dst s.params a)) ∧
    (i ∈ [.bicb src dst, .bisb src dst] →
      Keeps s t true (fun a => a = (destinationByte src dst s).1 ∨ Stepped src s.params a ∨ Stepped dst s.params a)) ∧
    (i ∈ [.movb src dst, .bicb src dst, .bisb src dst] → ¬ InWord (destinationByte src dst s).1 s.params.pswAddr →
      t.flags.c = s.flags.c) ∧
    (i ∈ [.clrb dst, .comb dst, .incb dst, .decb dst, .negb dst, .adcb dst, .sbcb dst] →
      Keeps s t true (fun a => a = (resolve dst (s.decoded true)).1 ∨ Stepped dst s.params a)) ∧
    (i ∈ [.incb dst, .decb dst] → ¬ InWord (resolve dst (s.decoded true)).1 s.params.pswAddr → t.flags.c = s.flags.c)

/-- What the instructions that only set flags leave unchanged: every byte but those of the registers their specifiers step and of
the status word, whose bits 15:4 stay; for BIT and BITB the C flag (R31, R40, R163 to R166, R195, R196). -/
def Obligations.ComparesStoreNothing : Prop :=
  ∀ (src dst : Specifier) (s t : State) (i : Instr), s.params.Valid → exec i s = .next t →
    (i ∈ [.cmp src dst, .bit src dst, .cmpb src dst, .bitb src dst] →
      Keeps s t i.isByte (fun a => Stepped src s.params a ∨ Stepped dst s.params a)) ∧
    (i ∈ [.bit src dst, .bitb src dst] → t.flags.c = s.flags.c) ∧
    (i ∈ [.tst dst, .tstb dst] → Keeps s t i.isByte (fun a => Stepped dst s.params a))

/-- What JMP, JSR and RTS leave unchanged: every byte but those of `pc`, of the registers the specifier steps or the rule names,
and, for JSR, of the pushed word; the whole status word, for JSR where the pushed word is not on it (R149, R240 to R243). -/
def Obligations.JumpsTouchOnlyTheirRegisters : Prop :=
  ∀ (r : Reg) (dst : Specifier) (s t : State), s.params.Valid →
    (exec (.jmp dst) s = .next t →
      Keeps s t false (fun a => InWord a (regAddr s.params .pc) ∨ Stepped dst s.params a) ∧ t.psw = s.psw) ∧
    (exec (.jsr r dst) s = .next t →
      let slot := (resolve dst (s.decoded false)).2.reg .sp - 2#16
      Keeps s t false (fun a => InWord a (regAddr s.params .pc) ∨ InWord a (regAddr s.params r) ∨
        InWord a (regAddr s.params .sp) ∨ InWord a slot ∨ Stepped dst s.params a) ∧
      (Apart s.params.pswAddr slot → t.psw = s.psw)) ∧
    (exec (.rts r) s = .next t →
      Keeps s t false (fun a => InWord a (regAddr s.params .pc) ∨ InWord a (regAddr s.params r) ∨
        InWord a (regAddr s.params .sp)) ∧ t.psw = s.psw)

/-! ## Arithmetic -/

/-- R147: `Add_w` and `Sub_w` at both widths. Carry and borrow are those of the unsigned numbers, overflow is the result of the
signed operation leaving the range, and the closed forms of INC, DEC, NEG, ADC and SBC agree with them. -/
def Obligations.CarryAndOverflowAreThoseOfTheIntegers : Prop :=
  (∀ src dst : Word, addOp src dst = (src + dst, nzvc (src + dst) (some (addOverflow src dst)) (some (addCarry src dst))) ∧
    subOp src dst = (dst - src, nzvc (dst - src) (some (subOverflow dst src)) (some (subBorrow dst src)))) ∧
  ∀ w ∈ [8, 16], ∀ (a b : BitVec w) (c0 : Bool),
    let c : BitVec w := if c0 then 1#w else 0#w
    (a + b).toNat = (a.toNat + b.toNat) % 2 ^ w ∧ addCarry a b = decide (2 ^ w ≤ a.toNat + b.toNat) ∧
    addOverflow a b = (a.msb == b.msb && (a + b).msb != a.msb) ∧
    addOverflow a b = outOfRange w (a.toInt + b.toInt) ∧
    ((a - b).toNat : Int) = ((a.toNat : Int) - b.toNat) % 2 ^ w ∧ subBorrow a b = decide (a.toNat < b.toNat) ∧
    subOverflow a b = (a.msb != b.msb && (a - b).msb == b.msb) ∧
    subOverflow a b = outOfRange w (a.toInt - b.toInt) ∧
    (compareFlags a b).v = some (subOverflow a b) ∧ (compareFlags a b).c = some (subBorrow a b) ∧
    (incOp a).2.v = some (addOverflow a 1#w) ∧ (decOp a).2.v = some (subOverflow a 1#w) ∧
    (negOp a).2.v = some (subOverflow 0#w a) ∧ (negOp a).2.c = some (subBorrow 0#w a) ∧
    (adcOp c0 a).2.v = some (addOverflow a c) ∧ (adcOp c0 a).2.c = some (addCarry a c) ∧
    (sbcOp c0 a).2.v = some (subOverflow a c) ∧ (sbcOp c0 a).2.c = some (subBorrow a c)

/-- After a compare the branches test the order their names say, signed and unsigned, of the two operands (R163, R164, R222 to
R227, R230, R231, R234, R235). -/
def Obligations.BranchesAfterCompareTestTheOrder : Prop :=
  ∀ (src dst : Specifier) (s : State),
    (let x := sourceWord src (s.decoded false)
     let da := resolve dst x.2
     let y := opReadWord da.1 da.2
     ∃ t, exec (.cmp src dst) s = .next t ∧
      (condEq t.flags = true ↔ x.1 = y.1) ∧ (condNe t.flags = true ↔ x.1 ≠ y.1) ∧
      (condLt t.flags = true ↔ x.1.toInt < y.1.toInt) ∧ (condGe t.flags = true ↔ y.1.toInt ≤ x.1.toInt) ∧
      (condGt t.flags = true ↔ y.1.toInt < x.1.toInt) ∧ (condLe t.flags = true ↔ x.1.toInt ≤ y.1.toInt) ∧
      (condCs t.flags = true ↔ x.1.toNat < y.1.toNat) ∧ (condCc t.flags = true ↔ y.1.toNat ≤ x.1.toNat) ∧
      (condHi t.flags = true ↔ y.1.toNat < x.1.toNat) ∧ (condLos t.flags = true ↔ x.1.toNat ≤ y.1.toNat)) ∧
    (let x := sourceByte src (s.decoded true)
     let da := resolve dst x.2
     let y := opReadByte da.1 da.2
     ∃ t, exec (.cmpb src dst) s = .next t ∧
      (condEq t.flags = true ↔ x.1 = y.1) ∧ (condNe t.flags = true ↔ x.1 ≠ y.1) ∧
      (condLt t.flags = true ↔ x.1.toInt < y.1.toInt) ∧ (condGe t.flags = true ↔ y.1.toInt ≤ x.1.toInt) ∧
      (condGt t.flags = true ↔ y.1.toInt < x.1.toInt) ∧ (condLe t.flags = true ↔ x.1.toInt ≤ y.1.toInt) ∧
      (condCs t.flags = true ↔ x.1.toNat < y.1.toNat) ∧ (condCc t.flags = true ↔ y.1.toNat ≤ x.1.toNat) ∧
      (condHi t.flags = true ↔ y.1.toNat < x.1.toNat) ∧ (condLos t.flags = true ↔ x.1.toNat ≤ y.1.toNat))

/-! ## The step and whole-machine rules -/

/-- When the bytes at `pc` decode to an instruction, a step from a state that is not terminal is that instruction's meaning at the
fetched state (one InstructionFetch event unless `pc` is register-mapped, `pc` past the word), with the advisory bit then set to
`pc[0]` (R35, R140 to R142). -/
def Obligations.StepRunsTheDecodedInstruction : Prop :=
  ∀ (s : State) (i : Instr), s.status.terminal = false →
    decode [s.peek (s.reg .pc), s.peek (s.reg .pc + 1#16)] = .instr i [] →
    let fetched := (s.note .instructionFetch (s.reg .pc)).setReg .pc (s.reg .pc + 2#16)
    step s = endOutcome (exec i fetched) ∧
    ∀ t, exec i fetched = .next t → step s = .next { t with advisoryOddPc := (t.reg .pc).getLsbD 0 }

/-- A step that fetches a word that is no instruction, or JMP or JSR with a register-direct operand, advances `pc` by 2, emits
the fetch event and ends in `Faulted(IllegalInstruction)`; no other register, no flag and no other byte changes (R254, R262). -/
def Obligations.IllegalInstructionChangesNothingElse : Prop :=
  ∀ s : State, s.params.Valid → s.status.terminal = false →
    ((∃ why, decodeWord (s.peekWord (s.reg .pc)) = .reject why) ∨
      ∃ r q, decodeWord (s.peekWord (s.reg .pc)) = .instr (.jmp ⟨.register, q⟩) ∨
        decodeWord (s.peekWord (s.reg .pc)) = .instr (.jsr r ⟨.register, q⟩)) →
    ∃ t, step s = .next t ∧ t.status = .faulted .illegalInstruction ∧
      t.reg .pc = s.reg .pc + 2#16 ∧ (∀ q, q ≠ .pc → t.reg q = s.reg q) ∧ t.psw = s.psw ∧
      (∀ a, ¬ InWord a (regAddr s.params .pc) → t.peek a = s.peek a) ∧
      t.trace = s.trace ++ visible s.params [⟨.instructionFetch, s.reg .pc⟩]

/-- R266: the state diagram. Every step answers a next state; from a terminal state it is the same state; else the status is the
one the event in the step gives. -/
def Obligations.StateDiagram : Prop :=
  State.reset.status = .running ∧
  ∀ s : State, ∃ t, step s = .next t ∧
    (s.status ∈ [.halted, .waiting, .faulted .illegalInstruction, .faulted .stackOverflow] → t = s) ∧
    (s.status ∈ [.running, .reset] →
      t.status =
        match decodeWord (s.peekWord (s.reg .pc)) with
        | .reject _ => .faulted .illegalInstruction
        | .instr .halt => .halted
        | .instr .wait => .waiting
        | .instr .reset => .reset
        | .instr (.jmp d) => if d.mode = .register then .faulted .illegalInstruction else .running
        | .instr (.jsr _ d) =>
          if d.mode = .register then .faulted .illegalInstruction
          else if ((resolve d ((fetchInstruction s).2.decoded false)).2.reg .sp - 2#16).toNat < s.params.stackLimit.toNat then
            .faulted .stackOverflow
          else .running
        | .instr _ => .running)

/-- From a terminal state no number of steps changes anything (R140, R144, R266). -/
def Obligations.TerminalStatesStay : Prop :=
  ∀ (s t : State) (k : Nat), s.status.terminal = true → (Reaches k s t ↔ t = s)

/-- The parts of a step that leave the status word alone: the fetch, the resolver, illegal words, branches, JMP, RTS, HALT, WAIT and
RESET, and JSR where it faults or its pushed word is not on the status word (R149). -/
def Obligations.StatusWordKept : Prop :=
  ∀ s : State, s.params.Valid →
    (fetchInstruction s).2.psw = s.psw ∧ (∀ d, (resolve d s).2.psw = s.psw) ∧
    ∀ t, step s = .next t → s.status.terminal = false →
      (∀ why, decodeWord (s.peekWord (s.reg .pc)) = .reject why → t.psw = s.psw) ∧
      (∀ i off d r, decodeWord (s.peekWord (s.reg .pc)) = .instr i →
        i ∈ [.br off, .bne off, .beq off, .bge off, .blt off, .bgt off, .ble off, .bpl off, .bmi off, .bhi off, .blos off,
          .bvc off, .bvs off, .bcc off, .bcs off, .jmp d, .rts r, .halt, .wait, .reset] → t.psw = s.psw) ∧
      ∀ d r, decodeWord (s.peekWord (s.reg .pc)) = .instr (.jsr r d) →
        (t.isFaulted ∨ Apart s.params.pswAddr ((resolve d ((fetchInstruction s).2.decoded false)).2.reg .sp - 2#16)) →
        t.psw = s.psw

/-- The trace is a write-only side channel: a step appends events, and which events, and everything else it answers, is the same
whatever the trace held before (R37, R65). -/
def Obligations.TraceIsWriteOnly : Prop :=
  ∀ s : State, ∃ t events, step s = .next t ∧ t.trace = s.trace ++ events ∧
    ∀ earlier, step { s with trace := earlier } = .next { t with trace := earlier ++ events }

/-- `BYTEMODE`, the advisory bit and the difference between `Running` and `Reset` carry nothing into a step: none changes what it
answers (R33 to R35, R252). -/
def Obligations.ByteModeAndAdvisoryNeverCarry : Prop :=
  ∀ (s : State) (b odd : Bool), s.status.terminal = false →
    step { s with byteMode := b, advisoryOddPc := odd, status := .running } = step s

/-- Where `pc` stands after a data instruction whose specifiers do not decrement register 7 and whose destination is not `pc`: past
the instruction word, which the fetch has done, and its extension words (R27, R86, R160). -/
def Obligations.DataInstructionsMoveOnByTheirLength : Prop :=
  ∀ (src dst : Specifier) (s t : State) (i : Instr), s.params.Valid → exec i s = .next t →
    ¬ (src.reg = .pc ∧ (src.mode = .autoDec ∨ src.mode = .autoDecDeferred)) →
    ¬ (dst.reg = .pc ∧ (dst.mode = .autoDec ∨ dst.mode = .autoDecDeferred)) →
    (i ∈ [.cmp src dst, .cmpb src dst, .bit src dst, .bitb src dst, .tst dst, .tstb dst] ∨
      (i ∈ [.mov src dst, .bic src dst, .bis src dst, .add src dst, .sub src dst] ∧
        Apart (regAddr s.params .pc) (destinationWord src dst s).1) ∨
      (i ∈ [.clr dst, .com dst, .inc dst, .dec dst, .neg dst, .adc dst, .sbc dst, .swab dst] ∧
        Apart (regAddr s.params .pc) (resolve dst (s.decoded false)).1) ∨
      (i ∈ [.movb src dst, .bicb src dst, .bisb src dst] ∧
        ¬ InWord (destinationByte src dst s).1 (regAddr s.params .pc)) ∨
      (i ∈ [.clrb dst, .comb dst, .incb dst, .decb dst, .negb dst, .adcb dst, .sbcb dst] ∧
        ¬ InWord (resolve dst (s.decoded true)).1 (regAddr s.params .pc))) →
    t.reg .pc = s.reg .pc + BitVec.ofNat 16 (i.length - 2)

/-- Call and return are inverse: an RTS that finds the linkage register, `sp` and the word at `sp` as the JSR left them goes back to
the address after the JSR and restores the linkage register and `sp`. The specifier does not step `sp` or the linkage register,
and the pushed word is on no register (R244). -/
def Obligations.ReturnUndoesCall : Prop :=
  ∀ (r : Reg) (dst : Specifier) (s t v : State), s.params.Valid →
    dst.mode ≠ .register → r ≠ .sp → steppedReg dst ≠ some .sp → (r ≠ .pc → steppedReg dst ≠ some r) →
    exec (.jsr r dst) s = .next t → t.status = .running →
    (∀ q, Apart (s.reg .sp - 2#16) (regAddr s.params q)) →
    v.params = s.params → (r ≠ .pc → v.reg r = t.reg r) → v.reg .sp = t.reg .sp →
    v.peekWord (v.reg .sp) = t.peekWord (t.reg .sp) →
    ∃ w, exec (.rts r) v = .next w ∧ w.reg .pc = (resolve dst (s.decoded false)).2.reg .pc ∧
      w.reg .sp = s.reg .sp ∧ (r ≠ .pc → w.reg r = s.reg r)

/-- The invariant is kept by every step from every state that meets it, and no step changes the parameters (R7, R35, R38). The
canonical form of the byte array is the model's own, not a rule of the spec (notes/assumptions/6.md). -/
def Obligations.StepKeepsTheInvariant : Prop :=
  ∀ s t : State, s.Inv → step s = .next t → t.Inv ∧ t.params = s.params

/-! ## Load and reset -/

/-- The state before any image is loaded meets the invariant: its parameters are within the constraints of R7, its byte array is in
canonical form, and its advisory bit is bit 0 of `pc` (R35). The canonical form, and memory reading 0 where nothing is listed, are the
model's own choice and no rule of the spec (notes/assumptions/6.md, DESIGN CHOICE; R39 leaves those bytes open). So are the contents
of reset: the default parameters (notes/assumptions/2.md), `SP_INIT`, R0 to R5 and `PSW` (3.md to 5.md) and PC = 0 with no image
loaded (notes/assumptions/7.md), all DESIGN CHOICE. -/
def Obligations.ResetMeetsTheInvariant : Prop := State.reset.Inv

/-- What the spec gives of the state after load holds of reset: `Running`, word mode, `sp` = `SP_INIT`, the advisory bit `pc[0]`, an
empty trace, and the default parameters (R7, R39; that reset has the defaults is notes/assumptions/2.md, DESIGN CHOICE).
The values of R0 to R5, `PSW`, memory, `SP_INIT` and PC are the model's own choice (notes/assumptions/3.md to 7.md) and are not stated here. -/
def Obligations.ResetHasTheStatedValues : Prop :=
  State.reset.status = .running ∧ State.reset.byteMode = false ∧ State.reset.reg .sp = State.reset.params.spInit ∧
  State.reset.advisoryOddPc = (State.reset.reg .pc).getLsbD 0 ∧ State.reset.trace = [] ∧
  State.reset.params.regBase = 0o177700 ∧ State.reset.params.pswAddr = 0o177776 ∧ State.reset.params.stackLimit = 0o400 ∧
  State.reset.params.movbSext = false

/-- An image without `SetEntry` is refused; any other is loaded, `pc` is the value of its last `SetEntry`, whatever it stored, and the
state outside the array is as the spec says after load (R39, R292, R293). -/
def Obligations.LoadEntersAtTheLastEntry : Prop :=
  ∀ (before after : List Directive) (launch : State), (∀ e, .setEntry e ∉ after) →
    loadImage after launch = .refused .imageWithoutEntry ∧
    ∀ e, ∃ t, loadImage (before ++ [.setEntry e] ++ after) launch = .next t ∧ t.reg .pc = e ∧ t.status = .running ∧
      t.byteMode = false ∧ t.advisoryOddPc = e.getLsbD 0 ∧ t.trace = [] ∧ t.params = launch.params

/-- Where the bytes of an image go: an image that stores nothing leaves the launch state but for `sp` = `SP_INIT` and `pc`; the first
store without `SetOrigin` is at address 0; a store after `SetOrigin(a)` writes the two bytes at `a`, the next one those at `a + 2`,
over whatever was stored there before, and `pc` is assigned after all stores (R292). -/
def Obligations.LoadStoresInOrder : Prop :=
  ∀ (image : List Directive) (launch t : State) (e a v w : Word), loadImage (image ++ [.setEntry e]) launch = .next t →
    ((∀ x, .storeWord x ∉ image) → t.reg .sp = launch.params.spInit ∧
      ∀ c, ¬ InWord c (regAddr launch.params .sp) → ¬ InWord c (regAddr launch.params .pc) → t.peek c = launch.peek c) ∧
    (∃ u, loadImage (image ++ [.setOrigin a, .storeWord v, .storeWord w, .setEntry e]) launch = .next u ∧
      ∀ c, ¬ InWord c (regAddr launch.params .pc) →
        u.peek c = if c = a + 3#16 then w.extractLsb' 8 8 else if c = a + 2#16 then w.extractLsb' 0 8
          else if c = a + 1#16 then v.extractLsb' 8 8 else if c = a then v.extractLsb' 0 8 else t.peek c) ∧
    loadImage (.storeWord v :: image ++ [.setEntry e]) launch =
      loadImage (.setOrigin 0 :: .storeWord v :: image ++ [.setEntry e]) launch
end

