-- ==== Sys2Proof/Laws/Decode.lean ====
section
/-! SUPPORT. The six fields of a word built from fields, the numbers of registers and modes, and the bits a format fixes. -/

namespace Sys2Proof

/-! ## Numbers -/

@[simp] theorem Reg.ofBits_bits (r : Reg) : Reg.ofBits r.bits = r := by cases r <;> rfl
@[simp] theorem Mode.ofBits_bits (m : Mode) : Mode.ofBits m.bits = m := by cases m <;> rfl
@[simp] theorem Reg.bits_ofBits (b : BitVec 3) : (Reg.ofBits b).bits = b := by revert b; decide
@[simp] theorem Mode.bits_ofBits (b : BitVec 3) : (Mode.ofBits b).bits = b := by revert b; decide

theorem Mode.ofBits_eq_register_iff (b : BitVec 3) : Mode.ofBits b = .register ↔ b = 0 := by revert b; decide

/-! ## Fields of a word -/

theorem getLsbD_wordOfFields (t : BitVec 1) (b4 b3 b2 b1 b0 : BitVec 3) (i : Nat) :
    (wordOfFields t b4 b3 b2 b1 b0).getLsbD i =
      if i < 3 then b0.getLsbD i else if i < 6 then b1.getLsbD (i - 3) else if i < 9 then b2.getLsbD (i - 6)
      else if i < 12 then b3.getLsbD (i - 9) else if i < 15 then b4.getLsbD (i - 12) else t.getLsbD (i - 15) := by
  have e : (wordOfFields t b4 b3 b2 b1 b0).getLsbD i = (t ++ b4 ++ b3 ++ b2 ++ b1 ++ b0).getLsbD i := rfl
  rw [e]
  simp only [BitVec.getLsbD_append, Nat.sub_sub]
  grind

section fields
variable (t : BitVec 1) (b4 b3 b2 b1 b0 : BitVec 3)

@[simp] theorem f0_wordOfFields : f0 (wordOfFields t b4 b3 b2 b1 b0) = b0 := by
  apply BitVec.eq_of_getLsbD_eq
  intro i hi
  simp only [f0, BitVec.getLsbD_extractLsb', getLsbD_wordOfFields]
  grind
@[simp] theorem f1_wordOfFields : f1 (wordOfFields t b4 b3 b2 b1 b0) = b1 := by
  apply BitVec.eq_of_getLsbD_eq
  intro i hi
  simp only [f1, BitVec.getLsbD_extractLsb', getLsbD_wordOfFields]
  grind
@[simp] theorem f2_wordOfFields : f2 (wordOfFields t b4 b3 b2 b1 b0) = b2 := by
  apply BitVec.eq_of_getLsbD_eq
  intro i hi
  simp only [f2, BitVec.getLsbD_extractLsb', getLsbD_wordOfFields]
  grind
@[simp] theorem f3_wordOfFields : f3 (wordOfFields t b4 b3 b2 b1 b0) = b3 := by
  apply BitVec.eq_of_getLsbD_eq
  intro i hi
  simp only [f3, BitVec.getLsbD_extractLsb', getLsbD_wordOfFields]
  grind
@[simp] theorem f4_wordOfFields : f4 (wordOfFields t b4 b3 b2 b1 b0) = b4 := by
  apply BitVec.eq_of_getLsbD_eq
  intro i hi
  simp only [f4, BitVec.getLsbD_extractLsb', getLsbD_wordOfFields]
  grind
@[simp] theorem topBit_wordOfFields : topBit (wordOfFields t b4 b3 b2 b1 b0) = t.getLsbD 0 := by
  simp only [topBit, getLsbD_wordOfFields]
  rfl

/-- A word is the six fields it splits into. -/
theorem wordOfFields_fields (ir : Word) :
    wordOfFields (ir.extractLsb' 15 1) (f4 ir) (f3 ir) (f2 ir) (f1 ir) (f0 ir) = ir := by
  apply BitVec.eq_of_getLsbD_eq
  intro i hi
  simp only [getLsbD_wordOfFields, f0, f1, f2, f3, f4, BitVec.getLsbD_extractLsb']
  grind

end fields

@[simp] theorem branchOffset_formatB (op off : BitVec 8) : branchOffset (formatB op off) = off := by
  apply BitVec.eq_of_getLsbD_eq
  intro i hi
  simp only [branchOffset, formatB, BitVec.getLsbD_extractLsb', BitVec.getLsbD_append]
  grind

/-! ## The bits a format fixes -/

theorem wordOfFields_and (t t' : BitVec 1) (b4 b3 b2 b1 b0 c4 c3 c2 c1 c0 : BitVec 3) :
    wordOfFields t b4 b3 b2 b1 b0 &&& wordOfFields t' c4 c3 c2 c1 c0 =
      wordOfFields (t &&& t') (b4 &&& c4) (b3 &&& c3) (b2 &&& c2) (b1 &&& c1) (b0 &&& c0) := by
  apply BitVec.eq_of_getLsbD_eq
  intro i hi
  simp only [BitVec.getLsbD_and, getLsbD_wordOfFields]
  grind

@[simp] theorem field_and_seven (b : BitVec 3) : b &&& 7#3 = b := by revert b; decide
@[simp] theorem bit_and_one (b : BitVec 1) : b &&& 1#1 = b := by revert b; decide

theorem formatD_masked (t : BitVec 1) (op : BitVec 3) (s d : Specifier) :
    formatD t op s d &&& 0xF000#16 = wordOfFields t op 0 0 0 0 := by
  rw [show 0xF000#16 = wordOfFields 1 7 0 0 0 0 from rfl, formatD, wordOfFields_and]
  simp

theorem formatS_masked (t : BitVec 1) (op : BitVec 3) (d : Specifier) :
    formatS t op d &&& 0xFFC0#16 = wordOfFields t 0 5 op 0 0 := by
  rw [show 0xFFC0#16 = wordOfFields 1 7 7 7 0 0 from rfl, formatS, wordOfFields_and]
  simp

theorem formatS'_masked (op : BitVec 3) (d : Specifier) : formatS' op d &&& 0xFFC0#16 = wordOfFields 0 0 0 op 0 0 := by
  rw [show 0xFFC0#16 = wordOfFields 1 7 7 7 0 0 from rfl, formatS', wordOfFields_and]
  simp

theorem formatJ_masked (r : Reg) (d : Specifier) : formatJ r d &&& 0xFE00#16 = wordOfFields 0 0 4 0 0 0 := by
  rw [show 0xFE00#16 = wordOfFields 1 7 7 0 0 0 from rfl, formatJ, wordOfFields_and]
  simp

theorem formatT_masked (r : Reg) : formatT r &&& 0xFFF8#16 = wordOfFields 0 0 0 2 0 0 := by
  rw [show 0xFFF8#16 = wordOfFields 1 7 7 7 7 0 from rfl, formatT, wordOfFields_and]
  simp

theorem formatB_masked (op off : BitVec 8) : formatB op off &&& 0xFF00#16 = op ++ 0#8 := by
  apply BitVec.eq_of_getLsbD_eq
  intro i hi
  rw [show 0xFF00#16 = 0xFF#8 ++ 0#8 from rfl]
  simp only [formatB, BitVec.getLsbD_and, BitVec.getLsbD_append]
  rw [show (0xFF#8) = BitVec.allOnes 8 from rfl, BitVec.getLsbD_allOnes]
  grind

end Sys2Proof
end

