-- ==== Sys2Proof/Laws/Memory.lean ====
section
/-! SUPPORT. The laws of the byte array as a list of cells: read after write for every list, the canonical form kept by every
write, and equal arrays being equal lists. -/

namespace Sys2Proof.Machine

theorem Memory.read_erase (m : Memory) (a c : Nat) :
    Memory.read (Memory.erase a m) c = if c = a then unlistedByte else Memory.read m c := by
  induction m with
  | nil => simp [Memory.erase, Memory.read]
  | cons cell rest ih =>
    obtain ⟨k, b⟩ := cell
    simp only [Memory.erase, Memory.read]
    split <;> simp only [Memory.read, ih] <;> grind

theorem Memory.read_insert_self (m : Memory) (a : Nat) (b : Byte) (h : Memory.read m a = unlistedByte)
    (hn : ∀ c ∈ m, c.1 ≠ a) : Memory.read (Memory.insert a b m) a = b := by
  induction m with
  | nil => simp [Memory.insert, Memory.read]
  | cons cell rest ih =>
    obtain ⟨k, c⟩ := cell
    have hk : k ≠ a := hn (k, c) (by simp)
    simp only [Memory.insert]
    split
    · simp [Memory.read]
    · simp only [Memory.read, hk, if_false] at h ⊢
      exact ih h fun x hx => hn x (by simp [hx])

theorem Memory.read_insert_other (m : Memory) (a c : Nat) (b : Byte) (h : c ≠ a) :
    Memory.read (Memory.insert a b m) c = Memory.read m c := by
  induction m with
  | nil => simp [Memory.insert, Memory.read, h.symm]
  | cons cell rest ih =>
    obtain ⟨k, d⟩ := cell
    simp only [Memory.insert]
    split <;> simp [Memory.read, ih, h.symm]

theorem Memory.erase_no_key (m : Memory) (a : Nat) : ∀ c ∈ Memory.erase a m, c.1 ≠ a := by
  induction m with
  | nil => simp [Memory.erase]
  | cons cell rest ih =>
    obtain ⟨k, b⟩ := cell
    simp only [Memory.erase]
    split
    · exact ih
    · rename_i h
      intro c hc
      rcases List.mem_cons.mp hc with rfl | hc
      · exact h
      · exact ih c hc

/-- Read after write, for every list, canonical or not. -/
theorem Memory.read_write (m : Memory) (a c : Nat) (b : Byte) :
    Memory.read (Memory.write m a b) c = if c = a then b else Memory.read m c := by
  unfold Memory.write
  split
  · rename_i h
    rw [Memory.read_erase, h]
  · by_cases h : c = a
    · subst h
      rw [Memory.read_insert_self _ _ _ (by simp [Memory.read_erase]) (Memory.erase_no_key m c)]
      simp
    · rw [Memory.read_insert_other _ _ _ _ h, Memory.read_erase, if_neg h, if_neg h]

theorem Memory.wfFrom_mono {lo lo' : Nat} (h : lo' ≤ lo) {m : Memory} (hm : Memory.wfFrom lo m = true) :
    Memory.wfFrom lo' m = true := by
  cases m with
  | nil => rfl
  | cons cell rest =>
    obtain ⟨k, b⟩ := cell
    simp only [Memory.wfFrom, Bool.and_eq_true, decide_eq_true_eq] at hm ⊢
    grind

theorem Memory.wfFrom_erase (a : Nat) (m : Memory) : ∀ lo, Memory.wfFrom lo m = true → Memory.wfFrom lo (Memory.erase a m) = true := by
  induction m with
  | nil => intro lo h; exact h
  | cons cell rest ih =>
    obtain ⟨k, b⟩ := cell
    intro lo h
    simp only [Memory.wfFrom, Bool.and_eq_true, decide_eq_true_eq] at h
    simp only [Memory.erase]
    split
    · exact Memory.wfFrom_mono (by omega) (ih (k + 1) h.2)
    · simp only [Memory.wfFrom, Bool.and_eq_true, decide_eq_true_eq]
      exact ⟨h.1, ih (k + 1) h.2⟩

theorem Memory.wfFrom_insert (a : Nat) (b : Byte) (ha : a < 65536) (hb : b ≠ unlistedByte) (m : Memory)
    (hn : ∀ c ∈ m, c.1 ≠ a) :
    ∀ lo, lo ≤ a → Memory.wfFrom lo m = true → Memory.wfFrom lo (Memory.insert a b m) = true := by
  induction m with
  | nil => intro lo hlo _; simp [Memory.insert, Memory.wfFrom, hlo, ha, hb]
  | cons cell rest ih =>
    obtain ⟨k, c⟩ := cell
    intro lo hlo h
    have hk : k ≠ a := hn (k, c) (by simp)
    simp only [Memory.wfFrom, Bool.and_eq_true, decide_eq_true_eq] at h
    simp only [Memory.insert]
    split
    · simp only [Memory.wfFrom, Bool.and_eq_true, decide_eq_true_eq, bne_iff_ne]
      exact ⟨⟨⟨hlo, ha⟩, hb⟩, ⟨⟨by omega, h.1.1.2⟩, by simpa using h.1.2⟩, h.2⟩
    · simp only [Memory.wfFrom, Bool.and_eq_true, decide_eq_true_eq]
      exact ⟨h.1, ih (fun x hx => hn x (by simp [hx])) (k + 1) (by omega) h.2⟩

/-- Every write inside the address space keeps the canonical form. -/
theorem Memory.wf_write {m : Memory} (h : Memory.wf m = true) {a : Nat} (ha : a < 65536) (b : Byte) :
    Memory.wf (Memory.write m a b) = true := by
  unfold Memory.wf Memory.write at *
  split
  · exact Memory.wfFrom_erase a m 0 h
  · rename_i hb
    exact Memory.wfFrom_insert a b ha hb _ (Memory.erase_no_key m a) 0 (Nat.zero_le _) (Memory.wfFrom_erase a m 0 h)

theorem Memory.read_below {m : Memory} : ∀ {lo a : Nat}, Memory.wfFrom lo m = true → a < lo → Memory.read m a = unlistedByte := by
  induction m with
  | nil => intros; rfl
  | cons cell rest ih =>
    obtain ⟨k, b⟩ := cell
    intro lo a h ha
    simp only [Memory.wfFrom, Bool.and_eq_true, decide_eq_true_eq] at h
    rw [Memory.read, if_neg (by omega)]
    exact ih h.2 (by omega)

/-- Two canonical lists that read alike at every address are equal. -/
theorem Memory.wf_ext {m : Memory} : ∀ {m' : Memory} {lo : Nat}, Memory.wfFrom lo m = true → Memory.wfFrom lo m' = true →
    (∀ a, Memory.read m a = Memory.read m' a) → m = m' := by
  induction m with
  | nil =>
    intro m' lo _ h' he
    cases m' with
    | nil => rfl
    | cons cell rest =>
      obtain ⟨k, b⟩ := cell
      simp only [Memory.wfFrom, Bool.and_eq_true] at h'
      have := he k
      simp only [Memory.read, if_true] at this
      simp [← this] at h'
  | cons cell rest ih =>
    obtain ⟨k, b⟩ := cell
    intro m' lo h h' he
    simp only [Memory.wfFrom, Bool.and_eq_true, decide_eq_true_eq, bne_iff_ne] at h
    cases m' with
    | nil =>
      have := he k
      simp only [Memory.read, if_true] at this
      exact absurd this h.1.2
    | cons cell' rest' =>
      obtain ⟨k', b'⟩ := cell'
      simp only [Memory.wfFrom, Bool.and_eq_true, decide_eq_true_eq, bne_iff_ne] at h'
      have below : ∀ a, a < k + 1 → Memory.read rest a = unlistedByte := fun a ha => Memory.read_below h.2 ha
      have below' : ∀ a, a < k' + 1 → Memory.read rest' a = unlistedByte := fun a ha => Memory.read_below h'.2 ha
      have hk : k = k' := by
        have e1 := he k
        have e2 := he k'
        simp only [Memory.read, if_true] at e1 e2
        grind
      subst hk
      have hb : b = b' := by simpa [Memory.read] using he k
      subst hb
      rw [ih h.2 h'.2]
      intro a
      by_cases ha : k = a
      · subst ha; rw [below k (by omega), below' k (by omega)]
      · simpa [Memory.read, ha] using he a

end Sys2Proof.Machine
end

