-- ==== Sys2Proof/Laws/State.lean ====
section
/-! SUPPORT. What each update leaves of each field, so that no later proof unfolds a record update. -/

namespace Sys2Proof.Machine

variable (s : State)

@[simp] theorem poke_params (a : Word) (b : Byte) : (s.poke a b).params = s.params := rfl
@[simp] theorem poke_byteMode (a : Word) (b : Byte) : (s.poke a b).byteMode = s.byteMode := rfl
@[simp] theorem poke_status (a : Word) (b : Byte) : (s.poke a b).status = s.status := rfl
@[simp] theorem poke_advisory (a : Word) (b : Byte) : (s.poke a b).advisoryOddPc = s.advisoryOddPc := rfl
@[simp] theorem poke_trace (a : Word) (b : Byte) : (s.poke a b).trace = s.trace := rfl

@[simp] theorem pokeWord_params (a v : Word) : (s.pokeWord a v).params = s.params := rfl
@[simp] theorem pokeWord_byteMode (a v : Word) : (s.pokeWord a v).byteMode = s.byteMode := rfl
@[simp] theorem pokeWord_status (a v : Word) : (s.pokeWord a v).status = s.status := rfl
@[simp] theorem pokeWord_advisory (a v : Word) : (s.pokeWord a v).advisoryOddPc = s.advisoryOddPc := rfl
@[simp] theorem pokeWord_trace (a v : Word) : (s.pokeWord a v).trace = s.trace := rfl

@[simp] theorem setReg_params (r : Reg) (v : Word) : (s.setReg r v).params = s.params := rfl
@[simp] theorem setReg_byteMode (r : Reg) (v : Word) : (s.setReg r v).byteMode = s.byteMode := rfl
@[simp] theorem setReg_status (r : Reg) (v : Word) : (s.setReg r v).status = s.status := rfl
@[simp] theorem setReg_advisory (r : Reg) (v : Word) : (s.setReg r v).advisoryOddPc = s.advisoryOddPc := rfl
@[simp] theorem setReg_trace (r : Reg) (v : Word) : (s.setReg r v).trace = s.trace := rfl

@[simp] theorem setPsw_params (v : Word) : (s.setPsw v).params = s.params := rfl
@[simp] theorem setPsw_byteMode (v : Word) : (s.setPsw v).byteMode = s.byteMode := rfl
@[simp] theorem setPsw_status (v : Word) : (s.setPsw v).status = s.status := rfl
@[simp] theorem setPsw_advisory (v : Word) : (s.setPsw v).advisoryOddPc = s.advisoryOddPc := rfl
@[simp] theorem setPsw_trace (v : Word) : (s.setPsw v).trace = s.trace := rfl

@[simp] theorem setFlags_params (u : FlagUpdate) : (s.setFlags u).params = s.params := rfl
@[simp] theorem setFlags_byteMode (u : FlagUpdate) : (s.setFlags u).byteMode = s.byteMode := rfl
@[simp] theorem setFlags_status (u : FlagUpdate) : (s.setFlags u).status = s.status := rfl
@[simp] theorem setFlags_advisory (u : FlagUpdate) : (s.setFlags u).advisoryOddPc = s.advisoryOddPc := rfl
@[simp] theorem setFlags_trace (u : FlagUpdate) : (s.setFlags u).trace = s.trace := rfl

@[simp] theorem advancePc_params : (advancePc s).params = s.params := rfl
@[simp] theorem advancePc_byteMode : (advancePc s).byteMode = s.byteMode := rfl
@[simp] theorem advancePc_status : (advancePc s).status = s.status := rfl
@[simp] theorem advancePc_advisory : (advancePc s).advisoryOddPc = s.advisoryOddPc := rfl
@[simp] theorem advancePc_trace : (advancePc s).trace = s.trace := rfl

@[simp] theorem note_params (k : AccessKind) (a : Word) : (s.note k a).params = s.params := by
  unfold State.note; split <;> rfl
@[simp] theorem note_mem (k : AccessKind) (a : Word) : (s.note k a).mem = s.mem := by
  unfold State.note; split <;> rfl
@[simp] theorem note_byteMode (k : AccessKind) (a : Word) : (s.note k a).byteMode = s.byteMode := by
  unfold State.note; split <;> rfl
@[simp] theorem note_status (k : AccessKind) (a : Word) : (s.note k a).status = s.status := by
  unfold State.note; split <;> rfl
@[simp] theorem note_advisory (k : AccessKind) (a : Word) : (s.note k a).advisoryOddPc = s.advisoryOddPc := by
  unfold State.note; split <;> rfl

@[simp] theorem decoded_params (b : Bool) : (s.decoded b).params = s.params := rfl
@[simp] theorem decoded_mem (b : Bool) : (s.decoded b).mem = s.mem := rfl
@[simp] theorem decoded_byteMode (b : Bool) : (s.decoded b).byteMode = b := rfl
@[simp] theorem decoded_status (b : Bool) : (s.decoded b).status = s.status := rfl
@[simp] theorem decoded_advisory (b : Bool) : (s.decoded b).advisoryOddPc = s.advisoryOddPc := rfl
@[simp] theorem decoded_trace (b : Bool) : (s.decoded b).trace = s.trace := rfl

@[simp] theorem endStep_params : (endStep s).params = s.params := rfl
@[simp] theorem endStep_mem : (endStep s).mem = s.mem := rfl
@[simp] theorem endStep_byteMode : (endStep s).byteMode = s.byteMode := rfl
@[simp] theorem endStep_status : (endStep s).status = s.status := rfl
@[simp] theorem endStep_trace : (endStep s).trace = s.trace := rfl

end Sys2Proof.Machine
end

