-- ==== Sys2Proof/Laws/Ops.lean ====
section
/-! SUPPORT. What each named operation does, said once: bytes and words of the array, registers, the status word, traced
accesses, the stack primitives, and the canonical form. -/

namespace Sys2Proof.Machine

variable (s : State)

/-! ## Words of two bytes -/

@[simp] theorem loByte_wordOf (hi lo : Byte) : loByte (wordOf hi lo) = lo := by
  apply BitVec.eq_of_getLsbD_eq
  intro i hi
  simp only [loByte, wordOf, BitVec.getLsbD_extractLsb', BitVec.getLsbD_append]
  grind

@[simp] theorem hiByte_wordOf (hi lo : Byte) : hiByte (wordOf hi lo) = hi := by
  apply BitVec.eq_of_getLsbD_eq
  intro i hi
  simp only [hiByte, wordOf, BitVec.getLsbD_extractLsb', BitVec.getLsbD_append]
  grind

@[simp] theorem wordOf_hi_lo (v : Word) : wordOf (hiByte v) (loByte v) = v := by
  apply BitVec.eq_of_getLsbD_eq
  intro i hi
  simp only [wordOf, hiByte, loByte, BitVec.getLsbD_extractLsb', BitVec.getLsbD_append]
  grind

@[simp] theorem word_succ_ne (a : Word) : a + 1#16 ≠ a := by
  intro h
  have := congrArg BitVec.toNat h
  simp only [BitVec.toNat_add, BitVec.toNat_ofNat] at this
  omega

@[simp] theorem ne_word_succ (a : Word) : a ≠ a + 1#16 := (word_succ_ne a).symm

/-! ## Bytes -/

theorem peek_poke (a c : Word) (b : Byte) : (s.poke a b).peek c = if c = a then b else s.peek c := by
  simp only [State.peek, State.poke, Memory.read_write, BitVec.toNat_inj]

theorem peek_pokeWord (a v c : Word) :
    (s.pokeWord a v).peek c = if c = a + 1#16 then hiByte v else if c = a then loByte v else s.peek c := by
  simp only [State.pokeWord, peek_poke]

@[simp] theorem peek_pokeWord_lo (a v : Word) : (s.pokeWord a v).peek a = loByte v := by
  simp [peek_pokeWord]

@[simp] theorem peek_pokeWord_hi (a v : Word) : (s.pokeWord a v).peek (a + 1#16) = hiByte v := by
  simp [peek_pokeWord]

theorem peek_pokeWord_outside {a v c : Word} (h : ¬ InWord c a) : (s.pokeWord a v).peek c = s.peek c := by
  simp only [InWord, not_or] at h
  simp [peek_pokeWord, h.1, h.2]

@[simp] theorem peekWord_pokeWord (a v : Word) : (s.pokeWord a v).peekWord a = v := by
  simp [State.peekWord]

theorem peekWord_congr {s t : State} {a : Word} (h0 : t.peek a = s.peek a) (h1 : t.peek (a + 1#16) = s.peek (a + 1#16)) :
    t.peekWord a = s.peekWord a := by
  simp [State.peekWord, h0, h1]

theorem peekWord_pokeWord_apart {a v c : Word} (h : Apart c a) : (s.pokeWord a v).peekWord c = s.peekWord c :=
  peekWord_congr (peek_pokeWord_outside s (h c (.inl rfl))) (peek_pokeWord_outside s (h (c + 1#16) (.inr rfl)))

theorem peek_of_mem {s t : State} (h : t.mem = s.mem) (a : Word) : t.peek a = s.peek a := by
  simp [State.peek, h]

@[simp] theorem note_peek (k : AccessKind) (c a : Word) : (s.note k c).peek a = s.peek a := peek_of_mem (note_mem s k c) a
@[simp] theorem note_peekWord (k : AccessKind) (c a : Word) : (s.note k c).peekWord a = s.peekWord a := by
  simp [State.peekWord]
@[simp] theorem decoded_peek (b : Bool) (a : Word) : (s.decoded b).peek a = s.peek a := rfl
@[simp] theorem decoded_peekWord (b : Bool) (a : Word) : (s.decoded b).peekWord a = s.peekWord a := rfl
@[simp] theorem endStep_peek (a : Word) : (endStep s).peek a = s.peek a := rfl
@[simp] theorem endStep_peekWord (a : Word) : (endStep s).peekWord a = s.peekWord a := rfl

/-! ## Words apart -/

theorem Apart.symm {v w : Word} (h : Apart v w) : Apart w v := fun a hw hv => h a hv hw

theorem apart_iff {v w : Word} : Apart v w ↔ v ≠ w ∧ v ≠ w + 1#16 ∧ v + 1#16 ≠ w := by
  constructor
  · intro h
    exact ⟨fun e => h v (.inl rfl) (.inl e), fun e => h v (.inl rfl) (.inr e), fun e => h (v + 1#16) (.inr rfl) (.inl e)⟩
  · rintro ⟨h0, h1, h2⟩ a (rfl | rfl) (h | h)
    · exact h0 h
    · exact h1 h
    · exact h2 h
    · exact h0 (by simpa using h)

/-! ## Registers and status word -/

theorem regNumber_inj {q r : Reg} (h : regNumber q = regNumber r) : q = r := by
  cases q <;> cases r <;> first | rfl | simp [regNumber] at h

theorem regNumber_lt (r : Reg) : regNumber r < 8 := by cases r <;> decide

/-- Different registers have no byte in common, wherever the range lies. -/
theorem regAddr_apart (p : Params) {q r : Reg} (h : q ≠ r) : Apart (regAddr p q) (regAddr p r) := by
  have hn : regNumber q ≠ regNumber r := fun e => h (regNumber_inj e)
  have hq := regNumber_lt q
  have hr := regNumber_lt r
  rw [apart_iff]
  refine ⟨?_, ?_, ?_⟩ <;> intro e <;> have := congrArg BitVec.toNat e <;>
    simp only [regAddr, BitVec.toNat_add, BitVec.toNat_ofNat] at this <;> omega

/-- The registers and the status word have no byte in common (R7). -/
theorem regAddr_apart_psw {p : Params} (h : p.Valid) (r : Reg) : Apart (regAddr p r) p.pswAddr := by
  have hr := regNumber_lt r
  have h1 := h.regEven; have h2 := h.regLow; have h3 := h.regHigh; have h4 := h.pswEven
  have h5 := h.pswLow; have h6 := h.pswHigh; have h7 := h.disjoint
  rw [apart_iff]
  refine ⟨?_, ?_, ?_⟩ <;> intro e <;> have := congrArg BitVec.toNat e <;>
    simp only [regAddr, BitVec.toNat_add, BitVec.toNat_ofNat] at this <;> omega

/-- Both bytes of a register are register-mapped (R60). -/
theorem isReg_regAddr {p : Params} (h : p.Valid) (r : Reg) : isReg p (regAddr p r) = true := by
  have hr := regNumber_lt r
  have h3 := h.regHigh
  have e : (regAddr p r).toNat = p.regBase.toNat + 2 * regNumber r := by
    simp only [regAddr, BitVec.toNat_add, BitVec.toNat_ofNat]; omega
  simp only [isReg, e, Bool.or_eq_true, Bool.and_eq_true, decide_eq_true_eq]
  omega

/-- A byte of a register is register-mapped (R60). -/
theorem isReg_of_inWord_regAddr {p : Params} (h : p.Valid) {r : Reg} {a : Word} (ha : InWord a (regAddr p r)) :
    isReg p a = true := by
  have hr := regNumber_lt r
  have h3 := h.regHigh
  have e : (regAddr p r).toNat = p.regBase.toNat + 2 * regNumber r := by
    simp only [regAddr, BitVec.toNat_add, BitVec.toNat_ofNat]; omega
  rcases ha with rfl | rfl
  · exact isReg_regAddr h r
  · simp only [isReg, BitVec.toNat_add, e, BitVec.toNat_ofNat, Bool.or_eq_true, Bool.and_eq_true, decide_eq_true_eq]
    omega

@[simp] theorem reg_setReg (r : Reg) (v : Word) : (s.setReg r v).reg r = v := by
  simp [State.reg, State.setReg]

theorem reg_setReg_ne {q r : Reg} (h : q ≠ r) (v : Word) : (s.setReg r v).reg q = s.reg q := by
  simp only [State.reg, State.setReg, pokeWord_params]
  exact peekWord_pokeWord_apart s (regAddr_apart s.params h)

theorem peek_setReg_outside {r : Reg} {v a : Word} (h : ¬ InWord a (regAddr s.params r)) : (s.setReg r v).peek a = s.peek a :=
  peek_pokeWord_outside s h

@[simp] theorem psw_setPsw (v : Word) : (s.setPsw v).psw = v := by
  simp [State.psw, State.setPsw]

theorem reg_setPsw (h : s.params.Valid) (v : Word) (r : Reg) : (s.setPsw v).reg r = s.reg r := by
  simp only [State.reg, State.setPsw, pokeWord_params]
  exact peekWord_pokeWord_apart s (regAddr_apart_psw h r)

theorem psw_setReg (h : s.params.Valid) (r : Reg) (v : Word) : (s.setReg r v).psw = s.psw := by
  simp only [State.psw, State.setReg, pokeWord_params]
  exact peekWord_pokeWord_apart s (regAddr_apart_psw h r).symm

@[simp] theorem note_reg (k : AccessKind) (a : Word) (r : Reg) : (s.note k a).reg r = s.reg r := by simp [State.reg]
@[simp] theorem note_psw (k : AccessKind) (a : Word) : (s.note k a).psw = s.psw := by simp [State.psw]
@[simp] theorem decoded_reg (b : Bool) (r : Reg) : (s.decoded b).reg r = s.reg r := rfl
@[simp] theorem decoded_psw (b : Bool) : (s.decoded b).psw = s.psw := rfl
@[simp] theorem endStep_reg (r : Reg) : (endStep s).reg r = s.reg r := rfl
@[simp] theorem endStep_psw : (endStep s).psw = s.psw := rfl
@[simp] theorem advancePc_reg_pc : (advancePc s).reg .pc = s.reg .pc + 2#16 := by simp [advancePc]
theorem advancePc_reg_ne {r : Reg} (h : r ≠ .pc) : (advancePc s).reg r = s.reg r := reg_setReg_ne s h _

/-! ## Trace -/

@[simp] theorem visible_append (p : Params) (k l : List TraceEvent) : visible p (k ++ l) = visible p k ++ visible p l := by
  simp [visible]

@[simp] theorem visible_nil (p : Params) : visible p [] = [] := rfl

theorem visible_cons (p : Params) (e : TraceEvent) (l : List TraceEvent) : visible p (e :: l) = visible p [e] ++ visible p l :=
  visible_append p [e] l

theorem note_trace (k : AccessKind) (a : Word) : (s.note k a).trace = s.trace ++ visible s.params [⟨k, a⟩] := by
  unfold State.note visible
  cases h : isReg s.params a <;> simp [h]

/-! ## Stack primitives (R66, R67) -/

/-- What `PushWord` answers. -/
theorem pushWord_eq (v : Word) : pushWord v s =
    if (s.reg .sp - 2#16).toNat < s.params.stackLimit.toNat then none
    else some (memWriteWord (s.reg .sp - 2#16) v (s.setReg .sp (s.reg .sp - 2#16))) := rfl

/-- What a successful `PushWord` can do. -/
theorem pushWord_cases {v : Word} {t : State} (h : pushWord v s = some t) :
    s.params.stackLimit.toNat ≤ (s.reg .sp - 2#16).toNat ∧
      t = memWriteWord (s.reg .sp - 2#16) v (s.setReg .sp (s.reg .sp - 2#16)) := by
  rw [pushWord_eq] at h
  split at h
  · cases h
  · exact ⟨by omega, by simpa using h.symm⟩

/-! ## The canonical form -/

/-- `s.mem` is canonical. -/
def State.memOk (s : State) : Prop := Memory.wf s.mem = true

theorem memOk_poke {s : State} (h : s.memOk) (a : Word) (b : Byte) : (s.poke a b).memOk := Memory.wf_write h a.isLt b
theorem memOk_pokeWord {s : State} (h : s.memOk) (a v : Word) : (s.pokeWord a v).memOk := memOk_poke (memOk_poke h _ _) _ _
theorem memOk_setReg {s : State} (h : s.memOk) (r : Reg) (v : Word) : (s.setReg r v).memOk := memOk_pokeWord h _ _
theorem memOk_setPsw {s : State} (h : s.memOk) (v : Word) : (s.setPsw v).memOk := memOk_pokeWord h _ _
theorem memOk_setFlags {s : State} (h : s.memOk) (u : FlagUpdate) : (s.setFlags u).memOk := memOk_setPsw h _
theorem memOk_of_mem {s t : State} (h : s.memOk) (e : t.mem = s.mem) : t.memOk := by
  unfold State.memOk at *; rw [e]; exact h
theorem memOk_note {s : State} (h : s.memOk) (k : AccessKind) (a : Word) : (s.note k a).memOk := memOk_of_mem h (note_mem s k a)
theorem memOk_decoded {s : State} (h : s.memOk) (b : Bool) : (s.decoded b).memOk := h
theorem memOk_advancePc {s : State} (h : s.memOk) : (advancePc s).memOk := memOk_setReg h _ _
theorem memOk_memWriteWord {s : State} (h : s.memOk) (a v : Word) : (memWriteWord a v s).memOk :=
  memOk_note (memOk_pokeWord h a v) _ _
theorem memOk_memWriteByte {s : State} (h : s.memOk) (a : Word) (b : Byte) : (memWriteByte a b s).memOk :=
  memOk_note (memOk_poke h a b) _ _

end Sys2Proof.Machine
end

