-- ==== Sys2Proof/Laws/Flags.lean ====
section
/-! SUPPORT. The condition-code unit: what a flag update does to the status word, how an instruction that ends with one ends, and
the flags that an access leaves alone. -/

namespace Sys2Proof.Machine

/-! ## Bits of the status word -/

theorem getLsbD_writeBit (i j : Nat) (b : Bool) (w : Word) (hi : i < 16) :
    (writeBit i b w).getLsbD j = if j = i then b else w.getLsbD j := by
  unfold writeBit
  cases b <;> by_cases hj : j < 16 <;>
    simp [BitVec.getLsbD_or, BitVec.getLsbD_and, BitVec.getLsbD_not, BitVec.getLsbD_twoPow, hj] <;> grind

theorem getLsbD_updateBit (i j : Nat) (o : Option Bool) (w : Word) (hi : i < 16) :
    (updateBit i o w).getLsbD j = if j = i then o.getD (w.getLsbD j) else w.getLsbD j := by
  cases o with
  | none => simp [updateBit]
  | some b => simp [updateBit, getLsbD_writeBit i j b w hi]

/-- The flags after an update: the named ones as given, the others as they were. -/
def Flags.updated (f : Flags) (u : FlagUpdate) : Flags := ⟨u.n.getD f.n, u.z.getD f.z, u.v.getD f.v, u.c.getD f.c⟩

theorem flagsOf_apply (u : FlagUpdate) (w : Word) : flagsOf (u.apply w) = (flagsOf w).updated u := by
  simp only [flagsOf, FlagUpdate.apply, Flags.updated, getLsbD_updateBit _ _ _ _ (by decide : (0 : Nat) < 16),
    getLsbD_updateBit _ _ _ _ (by decide : (1 : Nat) < 16), getLsbD_updateBit _ _ _ _ (by decide : (2 : Nat) < 16),
    getLsbD_updateBit _ _ _ _ (by decide : (3 : Nat) < 16), reduceIte, Nat.reduceEqDiff]
  try rfl

theorem getLsbD_apply_rest (u : FlagUpdate) (w : Word) {i : Nat} (h : 4 ≤ i) : (u.apply w).getLsbD i = w.getLsbD i := by
  simp only [FlagUpdate.apply]
  rw [getLsbD_updateBit _ _ _ _ (by decide), getLsbD_updateBit _ _ _ _ (by decide), getLsbD_updateBit _ _ _ _ (by decide),
    getLsbD_updateBit _ _ _ _ (by decide)]
  simp only [show i ≠ 3 by omega, show i ≠ 2 by omega, show i ≠ 1 by omega, show i ≠ 0 by omega, if_false]

/-! ## The flags of a state -/

variable (s : State)

theorem flags_setFlags (u : FlagUpdate) : (s.setFlags u).flags = s.flags.updated u := by
  simp [State.flags, State.setFlags, flagsOf_apply]

theorem peek_setFlags_outside {u : FlagUpdate} {a : Word} (h : ¬ InWord a s.params.pswAddr) :
    (s.setFlags u).peek a = s.peek a := peek_pokeWord_outside s h

theorem flags_setReg (h : s.params.Valid) (r : Reg) (v : Word) : (s.setReg r v).flags = s.flags := by
  simp [State.flags, psw_setReg s h]

@[simp] theorem note_flags (k : AccessKind) (a : Word) : (s.note k a).flags = s.flags := by simp [State.flags]
@[simp] theorem decoded_flags (b : Bool) : (s.decoded b).flags = s.flags := rfl
@[simp] theorem endStep_flags : (endStep s).flags = s.flags := rfl

theorem flags_memWriteWord_apart {a v : Word} (h : Apart s.params.pswAddr a) : (memWriteWord a v s).flags = s.flags := by
  simp only [memWriteWord, State.flags, State.psw, note_params, note_peekWord, pokeWord_params]
  rw [peekWord_pokeWord_apart s h]

/-- How an instruction that ends with a flag write-back ends (R148). -/
theorem endsWith_setFlags (u : FlagUpdate) :
    ∃ t, complete (s.setFlags u) = .next t ∧ EndsWith t s (s.flags.updated u) := by
  refine ⟨_, rfl, ?_⟩
  constructor
  · exact flags_setFlags s u
  · intro i hi
    show (s.setFlags u).psw.getLsbD i = _
    simp only [State.setFlags, psw_setPsw]
    exact getLsbD_apply_rest u s.psw hi
  · intro a ha
    exact peek_setFlags_outside s ha
  all_goals rfl

end Sys2Proof.Machine
end

