-- ==== Sys2Proof/Laws/Operands.lean ====
section
/-! SUPPORT. The operand resolver and operand data access, said once: what each leaves unchanged, the trace it adds, and that it
keeps the canonical form. -/

namespace Sys2Proof.Machine

variable (s : State)

/-! ## Traced reads and writes -/

@[simp] theorem memReadWord_fst (a : Word) : (memReadWord a s).1 = s.peekWord a := rfl
@[simp] theorem memReadWord_snd (a : Word) : (memReadWord a s).2 = s.note .read a := rfl
@[simp] theorem memReadByte_fst (a : Word) : (memReadByte a s).1 = s.peek a := rfl
@[simp] theorem memReadByte_snd (a : Word) : (memReadByte a s).2 = s.note .read a := rfl
@[simp] theorem opReadWord_fst (a : Word) : (opReadWord a s).1 = s.peekWord a := rfl
@[simp] theorem opReadWord_snd (a : Word) : (opReadWord a s).2 = s.note .read a := rfl

/-- The byte read is `M[ea]` in both branches of R127. -/
@[simp] theorem opReadByte_fst (a : Word) : (opReadByte a s).1 = s.peek a := by
  unfold opReadByte
  split <;> simp [State.peekWord]

@[simp] theorem opReadByte_snd (a : Word) : (opReadByte a s).2 = s.note .read a := by
  unfold opReadByte
  split <;> rfl

@[simp] theorem memWriteWord_params (a v : Word) : (memWriteWord a v s).params = s.params := by simp [memWriteWord]
@[simp] theorem memWriteWord_byteMode (a v : Word) : (memWriteWord a v s).byteMode = s.byteMode := by simp [memWriteWord]
@[simp] theorem memWriteWord_status (a v : Word) : (memWriteWord a v s).status = s.status := by simp [memWriteWord]
@[simp] theorem memWriteWord_advisory (a v : Word) : (memWriteWord a v s).advisoryOddPc = s.advisoryOddPc := by
  simp [memWriteWord]
theorem memWriteWord_trace (a v : Word) : (memWriteWord a v s).trace = s.trace ++ visible s.params [⟨.write, a⟩] := by
  simp [memWriteWord, note_trace]
theorem peek_memWriteWord (a v c : Word) :
    (memWriteWord a v s).peek c = if c = a + 1#16 then hiByte v else if c = a then loByte v else s.peek c := by
  simp only [memWriteWord, note_peek, peek_pokeWord]

theorem peek_memWriteWord_outside {a v c : Word} (h : ¬ InWord c a) : (memWriteWord a v s).peek c = s.peek c := by
  simp only [memWriteWord, note_peek, peek_pokeWord_outside s h]

/-- A word written apart from a register leaves the register. -/
theorem reg_memWriteWord_apart {a v : Word} {r : Reg} (h : Apart (regAddr s.params r) a) :
    (memWriteWord a v s).reg r = s.reg r := by
  simp only [State.reg, memWriteWord_params]
  exact peekWord_congr (peek_memWriteWord_outside s (h _ (.inl rfl))) (peek_memWriteWord_outside s (h _ (.inr rfl)))

@[simp] theorem memWriteByte_params (a : Word) (b : Byte) : (memWriteByte a b s).params = s.params := by simp [memWriteByte]
@[simp] theorem memWriteByte_byteMode (a : Word) (b : Byte) : (memWriteByte a b s).byteMode = s.byteMode := by
  simp [memWriteByte]
@[simp] theorem memWriteByte_advisory (a : Word) (b : Byte) : (memWriteByte a b s).advisoryOddPc = s.advisoryOddPc := by
  simp [memWriteByte]
theorem memWriteByte_trace (a : Word) (b : Byte) : (memWriteByte a b s).trace = s.trace ++ visible s.params [⟨.write, a⟩] := by
  simp [memWriteByte, note_trace]
theorem peek_memWriteByte (a c : Word) (b : Byte) : (memWriteByte a b s).peek c = if c = a then b else s.peek c := by
  simp only [memWriteByte, note_peek, peek_poke]

/-! ## Byte writes of operands (R128) -/

/-- Without sign extension a byte write changes exactly the byte at the effective address, in both branches of R128. -/
theorem peek_opWriteByte (a c : Word) (b : Byte) : (opWriteByte false a b s).peek c = if c = a then b else s.peek c := by
  unfold opWriteByte
  split
  · simp only [memReadWord_fst, memReadWord_snd, Bool.false_eq_true, if_false, peek_memWriteWord, hiByte_wordOf, loByte_wordOf,
      note_peek, State.peekWord]
    by_cases h1 : c = a + 1#16
    · subst h1; simp
    · simp [h1]
  · exact peek_memWriteByte s a c b

/-- With sign extension a byte write at a register-mapped address writes the whole word. -/
theorem peek_opWriteByte_sext {a : Word} (h : isReg s.params a = true) (c : Word) (b : Byte) :
    (opWriteByte true a b s).peek c = if c = a + 1#16 then hiByte (sext8 b) else if c = a then loByte (sext8 b) else s.peek c := by
  simp [opWriteByte, h, peek_memWriteWord]

@[simp] theorem opWriteByte_params (x : Bool) (a : Word) (b : Byte) : (opWriteByte x a b s).params = s.params := by
  unfold opWriteByte; split
  · cases x <;> simp
  · simp
@[simp] theorem opWriteByte_byteMode (x : Bool) (a : Word) (b : Byte) : (opWriteByte x a b s).byteMode = s.byteMode := by
  unfold opWriteByte; split
  · cases x <;> simp
  · simp
@[simp] theorem opWriteByte_advisory (x : Bool) (a : Word) (b : Byte) : (opWriteByte x a b s).advisoryOddPc = s.advisoryOddPc := by
  unfold opWriteByte; split
  · cases x <;> simp
  · simp
theorem opWriteByte_trace (x : Bool) (a : Word) (b : Byte) :
    (opWriteByte x a b s).trace = s.trace ++ visible s.params [⟨.write, a⟩] := by
  unfold opWriteByte; split
  · rename_i h
    have e : ∀ k, visible s.params [⟨k, a⟩] = [] := fun k => by simp [visible, h]
    cases x <;> simp [memWriteWord_trace, note_trace, e]
  · exact memWriteByte_trace s a b

theorem memOk_opWriteByte {s : State} (h : s.memOk) (x : Bool) (a : Word) (b : Byte) : (opWriteByte x a b s).memOk := by
  unfold opWriteByte; split
  · cases x <;> exact memOk_memWriteWord (memOk_note h _ _) _ _
  · exact memOk_memWriteByte h a b

/-! ## The resolver -/

@[simp] theorem resolve_params (d : Specifier) : (resolve d s).2.params = s.params := by
  unfold resolve; cases d.mode <;> simp
@[simp] theorem resolve_byteMode (d : Specifier) : (resolve d s).2.byteMode = s.byteMode := by
  unfold resolve; cases d.mode <;> simp
@[simp] theorem resolve_status (d : Specifier) : (resolve d s).2.status = s.status := by
  unfold resolve; cases d.mode <;> simp
@[simp] theorem resolve_advisory (d : Specifier) : (resolve d s).2.advisoryOddPc = s.advisoryOddPc := by
  unfold resolve; cases d.mode <;> simp

/-- A resolve changes no byte but those of the register its mode writes. -/
theorem resolve_peek {d : Specifier} {a : Word} (h : ¬ Stepped d s.params a) : (resolve d s).2.peek a = s.peek a := by
  have out : ∀ (t : State) (r : Reg) (v : Word), t.params = s.params → (∀ b, t.peek b = s.peek b) →
      ¬ InWord a (regAddr s.params r) → (t.setReg r v).peek a = s.peek a := by
    intro t r v hp hm h
    rw [peek_setReg_outside t (by rwa [hp]), hm]
  simp only [Stepped, steppedReg] at h
  unfold resolve
  cases hm : d.mode <;> simp [hm] at h ⊢
  · exact out s _ _ rfl (fun _ => rfl) h
  · exact out (s.note _ _) _ _ (by simp) (by simp) h
  · exact out s _ _ rfl (fun _ => rfl) h
  · exact out s _ _ rfl (fun _ => rfl) h
  · exact out (s.note _ _) _ _ (by simp) (by simp) h
  · exact out (s.note _ _) _ _ (by simp) (by simp) h

/-- A resolve keeps the canonical form. -/
theorem memOk_resolve {s : State} (h : s.memOk) (d : Specifier) : (resolve d s).2.memOk := by
  unfold resolve
  cases d.mode
  · exact h
  · exact h
  · exact memOk_setReg h _ _
  · exact memOk_setReg (memOk_note h _ _) _ _
  · exact memOk_setReg h _ _
  · exact memOk_note (memOk_setReg h _ _) _ _
  · exact memOk_advancePc (memOk_note h _ _)
  · exact memOk_note (memOk_advancePc (memOk_note h _ _)) _ _

/-- The bytes a resolve may change are register bytes, so the status word is not among them. -/
theorem Stepped.inWord {d : Specifier} {p : Params} {a : Word} (h : Stepped d p a) : ∃ r, InWord a (regAddr p r) :=
  let ⟨r, _, hr⟩ := h
  ⟨r, hr⟩

theorem Stepped.not_psw {d : Specifier} {p : Params} (hv : p.Valid) {a : Word} (h : Stepped d p a) :
    ¬ InWord a p.pswAddr := by
  obtain ⟨r, hr⟩ := h.inWord
  exact regAddr_apart_psw hv r a hr

/-- A resolve leaves every register but the one its mode writes. -/
theorem resolve_reg {d : Specifier} {r : Reg} (h : steppedReg d ≠ some r) : (resolve d s).2.reg r = s.reg r := by
  have out : ∀ a, InWord a (regAddr s.params r) → ¬ Stepped d s.params a := by
    rintro a ha ⟨q, hq, hqa⟩
    exact regAddr_apart s.params (fun e : q = r => h (by rw [hq, e])) a hqa ha
  simp only [State.reg, resolve_params]
  exact peekWord_congr (resolve_peek s (out _ (.inl rfl))) (resolve_peek s (out _ (.inr rfl)))

/-- A resolve leaves the status word alone. -/
theorem resolve_psw (hv : s.params.Valid) (d : Specifier) : (resolve d s).2.psw = s.psw := by
  simp only [State.psw, resolve_params]
  refine peekWord_congr (resolve_peek s fun h => h.not_psw hv (.inl rfl)) (resolve_peek s fun h => h.not_psw hv (.inr rfl))

/-- A resolve only adds events to the trace. -/
theorem resolve_trace (d : Specifier) : ∃ l, (resolve d s).2.trace = s.trace ++ l := by
  unfold resolve
  cases d.mode <;> simp only [memReadWord_snd, setReg_trace, advancePc_trace, note_trace, List.append_assoc] <;>
    first
      | exact ⟨_, rfl⟩
      | exact ⟨[], by simp⟩

end Sys2Proof.Machine
end

