-- ==== Sys2Proof/Laws/Frames.lean ====
section
/-! SUPPORT. From the state after the data write to what a whole instruction leaves unchanged, and the same for the source and
destination of the data instructions. -/

namespace Sys2Proof.Machine

/-- An instruction that ends with a flag write-back on `u` keeps of `s` what `u` keeps. -/
theorem keeps_of_endsWith {s u t : State} {f : Flags} {b : Bool} {touched : Word → Prop} (hv : s.params.Valid)
    (h : EndsWith t u f) (hp : u.params = s.params) (ha : u.advisoryOddPc = s.advisoryOddPc) (hb : u.byteMode = b)
    (hm : ∀ a, ¬ touched a → u.peek a = s.peek a) : Keeps s t b touched where
  bytes a h1 h2 := (h.bytes a (by rwa [hp])).trans (hm a h1)
  registers r hr := by
    have out : ∀ a, InWord a (regAddr s.params r) → t.peek a = s.peek a := fun a hi =>
      (h.bytes a (by rw [hp]; exact fun hx => regAddr_apart_psw hv r a hi hx)).trans (hm a (hr a hi))
    simp only [State.reg, h.params, hp]
    exact peekWord_congr (out _ (.inl rfl)) (out _ (.inr rfl))
  pswRest hw i hi := by
    rw [h.pswRest i hi]
    simp only [State.psw, hp]
    rw [peekWord_congr (hm _ (hw _ (.inl rfl))) (hm _ (hw _ (.inr rfl)))]
  params := h.params.trans hp
  advisory := h.advisory.trans ha
  byteMode := h.byteMode.trans hb

/-- A flag the update does not name is the one in the status word after the data write, which is the one before it where nothing
touched the status word. -/
theorem flags_of_untouched {s u : State} {touched : Word → Prop} (hp : u.params = s.params)
    (hm : ∀ a, ¬ touched a → u.peek a = s.peek a) (h : ∀ a, InWord a s.params.pswAddr → ¬ touched a) : u.flags = s.flags := by
  have : u.psw = s.psw := by
    simp only [State.psw, hp]
    exact peekWord_congr (hm _ (h _ (.inl rfl))) (hm _ (h _ (.inr rfl)))
  simp only [State.flags, this]

/-! ## Sources and destinations -/

variable (s : State)

@[simp] theorem sourceWord_params (d : Specifier) : (sourceWord d s).2.params = s.params := by simp [sourceWord]
@[simp] theorem sourceWord_byteMode (d : Specifier) : (sourceWord d s).2.byteMode = s.byteMode := by simp [sourceWord]
@[simp] theorem sourceWord_advisory (d : Specifier) : (sourceWord d s).2.advisoryOddPc = s.advisoryOddPc := by simp [sourceWord]
@[simp] theorem sourceByte_params (d : Specifier) : (sourceByte d s).2.params = s.params := by simp [sourceByte]
@[simp] theorem sourceByte_byteMode (d : Specifier) : (sourceByte d s).2.byteMode = s.byteMode := by simp [sourceByte]
@[simp] theorem sourceByte_advisory (d : Specifier) : (sourceByte d s).2.advisoryOddPc = s.advisoryOddPc := by simp [sourceByte]

theorem sourceWord_peek {d : Specifier} {a : Word} (h : ¬ Stepped d s.params a) : (sourceWord d s).2.peek a = s.peek a := by
  simp [sourceWord, resolve_peek s h]

theorem sourceByte_peek {d : Specifier} {a : Word} (h : ¬ Stepped d s.params a) : (sourceByte d s).2.peek a = s.peek a := by
  simp [sourceByte, resolve_peek s h]

@[simp] theorem destinationWord_params (src dst : Specifier) : (destinationWord src dst s).2.params = s.params := by
  simp [destinationWord]
@[simp] theorem destinationWord_byteMode (src dst : Specifier) : (destinationWord src dst s).2.byteMode = false := by
  simp [destinationWord]
@[simp] theorem destinationWord_advisory (src dst : Specifier) :
    (destinationWord src dst s).2.advisoryOddPc = s.advisoryOddPc := by
  simp [destinationWord]
@[simp] theorem destinationByte_params (src dst : Specifier) : (destinationByte src dst s).2.params = s.params := by
  simp [destinationByte]
@[simp] theorem destinationByte_byteMode (src dst : Specifier) : (destinationByte src dst s).2.byteMode = true := by
  simp [destinationByte]
@[simp] theorem destinationByte_advisory (src dst : Specifier) :
    (destinationByte src dst s).2.advisoryOddPc = s.advisoryOddPc := by
  simp [destinationByte]

theorem destinationWord_peek {src dst : Specifier} {a : Word} (h1 : ¬ Stepped src s.params a) (h2 : ¬ Stepped dst s.params a) :
    (destinationWord src dst s).2.peek a = s.peek a := by
  unfold destinationWord
  rw [resolve_peek _ (by simpa using h2), sourceWord_peek _ (by simpa using h1), decoded_peek]

theorem destinationByte_peek {src dst : Specifier} {a : Word} (h1 : ¬ Stepped src s.params a) (h2 : ¬ Stepped dst s.params a) :
    (destinationByte src dst s).2.peek a = s.peek a := by
  unfold destinationByte
  rw [resolve_peek _ (by simpa using h2), sourceByte_peek _ (by simpa using h1), decoded_peek]

/-! ## The canonical form -/

theorem memOk_sourceWord {s : State} (h : s.memOk) (d : Specifier) : (sourceWord d s).2.memOk := by
  unfold sourceWord
  simp only [opReadWord_snd]
  exact memOk_note (memOk_resolve h d) _ _

theorem memOk_sourceByte {s : State} (h : s.memOk) (d : Specifier) : (sourceByte d s).2.memOk := by
  unfold sourceByte
  simp only [opReadByte_snd]
  exact memOk_note (memOk_resolve h d) _ _

/-- An instruction that ends with a flag write-back, or completes, keeps the canonical form. -/
theorem memOk_complete {s t : State} (h : s.memOk) (e : complete s = .next t) : t.memOk := by
  cases e; exact h

end Sys2Proof.Machine
end

