-- ==== Sys2Proof/Laws/PerInstr.lean ====
section
/-! SUPPORT. What holds of every instruction as syntax, one lemma per constructor. -/

namespace Sys2Proof.Laws.Encodes

open Sys2Proof

/-- The encoded word of an instruction selects the instruction's own row of the opcode map: `IR and mask = match` (R93). -/
def Statement (i : Instr) : Prop := i.opcodeRow.selects (encodeWord i) = true

theorem mov (src : Specifier) (dst : Specifier) : Statement (.mov src dst) := beq_iff_eq.mpr (formatD_masked _ _ src dst)
theorem movb (src : Specifier) (dst : Specifier) : Statement (.movb src dst) := beq_iff_eq.mpr (formatD_masked _ _ src dst)
theorem cmp (src : Specifier) (dst : Specifier) : Statement (.cmp src dst) := beq_iff_eq.mpr (formatD_masked _ _ src dst)
theorem cmpb (src : Specifier) (dst : Specifier) : Statement (.cmpb src dst) := beq_iff_eq.mpr (formatD_masked _ _ src dst)
theorem bit (src : Specifier) (dst : Specifier) : Statement (.bit src dst) := beq_iff_eq.mpr (formatD_masked _ _ src dst)
theorem bitb (src : Specifier) (dst : Specifier) : Statement (.bitb src dst) := beq_iff_eq.mpr (formatD_masked _ _ src dst)
theorem bic (src : Specifier) (dst : Specifier) : Statement (.bic src dst) := beq_iff_eq.mpr (formatD_masked _ _ src dst)
theorem bicb (src : Specifier) (dst : Specifier) : Statement (.bicb src dst) := beq_iff_eq.mpr (formatD_masked _ _ src dst)
theorem bis (src : Specifier) (dst : Specifier) : Statement (.bis src dst) := beq_iff_eq.mpr (formatD_masked _ _ src dst)
theorem bisb (src : Specifier) (dst : Specifier) : Statement (.bisb src dst) := beq_iff_eq.mpr (formatD_masked _ _ src dst)
theorem add (src : Specifier) (dst : Specifier) : Statement (.add src dst) := beq_iff_eq.mpr (formatD_masked _ _ src dst)
theorem sub (src : Specifier) (dst : Specifier) : Statement (.sub src dst) := beq_iff_eq.mpr (formatD_masked _ _ src dst)
theorem clr (dst : Specifier) : Statement (.clr dst) := beq_iff_eq.mpr (formatS_masked _ _ dst)
theorem clrb (dst : Specifier) : Statement (.clrb dst) := beq_iff_eq.mpr (formatS_masked _ _ dst)
theorem com (dst : Specifier) : Statement (.com dst) := beq_iff_eq.mpr (formatS_masked _ _ dst)
theorem comb (dst : Specifier) : Statement (.comb dst) := beq_iff_eq.mpr (formatS_masked _ _ dst)
theorem inc (dst : Specifier) : Statement (.inc dst) := beq_iff_eq.mpr (formatS_masked _ _ dst)
theorem incb (dst : Specifier) : Statement (.incb dst) := beq_iff_eq.mpr (formatS_masked _ _ dst)
theorem dec (dst : Specifier) : Statement (.dec dst) := beq_iff_eq.mpr (formatS_masked _ _ dst)
theorem decb (dst : Specifier) : Statement (.decb dst) := beq_iff_eq.mpr (formatS_masked _ _ dst)
theorem neg (dst : Specifier) : Statement (.neg dst) := beq_iff_eq.mpr (formatS_masked _ _ dst)
theorem negb (dst : Specifier) : Statement (.negb dst) := beq_iff_eq.mpr (formatS_masked _ _ dst)
theorem adc (dst : Specifier) : Statement (.adc dst) := beq_iff_eq.mpr (formatS_masked _ _ dst)
theorem adcb (dst : Specifier) : Statement (.adcb dst) := beq_iff_eq.mpr (formatS_masked _ _ dst)
theorem sbc (dst : Specifier) : Statement (.sbc dst) := beq_iff_eq.mpr (formatS_masked _ _ dst)
theorem sbcb (dst : Specifier) : Statement (.sbcb dst) := beq_iff_eq.mpr (formatS_masked _ _ dst)
theorem tst (dst : Specifier) : Statement (.tst dst) := beq_iff_eq.mpr (formatS_masked _ _ dst)
theorem tstb (dst : Specifier) : Statement (.tstb dst) := beq_iff_eq.mpr (formatS_masked _ _ dst)
theorem swab (dst : Specifier) : Statement (.swab dst) := beq_iff_eq.mpr (formatS'_masked _ dst)
theorem clc : Statement (.clc) := rfl
theorem clv : Statement (.clv) := rfl
theorem clz : Statement (.clz) := rfl
theorem cln : Statement (.cln) := rfl
theorem sec : Statement (.sec) := rfl
theorem sev : Statement (.sev) := rfl
theorem sez : Statement (.sez) := rfl
theorem sen : Statement (.sen) := rfl
theorem br (off : BitVec 8) : Statement (.br off) := beq_iff_eq.mpr (formatB_masked _ off)
theorem bne (off : BitVec 8) : Statement (.bne off) := beq_iff_eq.mpr (formatB_masked _ off)
theorem beq (off : BitVec 8) : Statement (.beq off) := beq_iff_eq.mpr (formatB_masked _ off)
theorem bge (off : BitVec 8) : Statement (.bge off) := beq_iff_eq.mpr (formatB_masked _ off)
theorem blt (off : BitVec 8) : Statement (.blt off) := beq_iff_eq.mpr (formatB_masked _ off)
theorem bgt (off : BitVec 8) : Statement (.bgt off) := beq_iff_eq.mpr (formatB_masked _ off)
theorem ble (off : BitVec 8) : Statement (.ble off) := beq_iff_eq.mpr (formatB_masked _ off)
theorem bpl (off : BitVec 8) : Statement (.bpl off) := beq_iff_eq.mpr (formatB_masked _ off)
theorem bmi (off : BitVec 8) : Statement (.bmi off) := beq_iff_eq.mpr (formatB_masked _ off)
theorem bhi (off : BitVec 8) : Statement (.bhi off) := beq_iff_eq.mpr (formatB_masked _ off)
theorem blos (off : BitVec 8) : Statement (.blos off) := beq_iff_eq.mpr (formatB_masked _ off)
theorem bvc (off : BitVec 8) : Statement (.bvc off) := beq_iff_eq.mpr (formatB_masked _ off)
theorem bvs (off : BitVec 8) : Statement (.bvs off) := beq_iff_eq.mpr (formatB_masked _ off)
theorem bcc (off : BitVec 8) : Statement (.bcc off) := beq_iff_eq.mpr (formatB_masked _ off)
theorem bcs (off : BitVec 8) : Statement (.bcs off) := beq_iff_eq.mpr (formatB_masked _ off)
theorem jmp (dst : Specifier) : Statement (.jmp dst) := beq_iff_eq.mpr (formatS'_masked _ dst)
theorem jsr (reg : Reg) (dst : Specifier) : Statement (.jsr reg dst) := beq_iff_eq.mpr (formatJ_masked reg dst)
theorem rts (reg : Reg) : Statement (.rts reg) := beq_iff_eq.mpr (formatT_masked reg)
theorem halt : Statement (.halt) := rfl
theorem wait : Statement (.wait) := rfl
theorem reset : Statement (.reset) := rfl

end Sys2Proof.Laws.Encodes
end

