-- ==== Sys2Proof/Tests/Slice0.lean ====
section
/-! SUPPORT. The model's own tests. Every expected result is the spec's: the words and examples of 30_encoding.md, 40_operand_resolver.md
and the instruction files, all in octal, with the instruction at 001000. The last part shows, for each statement that has
hypotheses, a state and operands that meet them together. -/

namespace Sys2Proof.Tests

set_option Elab.async false

open Sys2Proof Sys2Proof.Machine

/-! ## Well-formed instructions: an ill-formed term for the one check (R98) -/

theorem test_jmp_register_is_ill_formed : Instr.wellFormed (.jmp ⟨.register, .r1⟩) = false := by decide
theorem test_jsr_register_is_ill_formed : Instr.wellFormed (.jsr .pc ⟨.register, .r1⟩) = false := by decide
theorem test_jmp_deferred_is_well_formed : Instr.wellFormed (.jmp ⟨.deferred, .r1⟩) = true := by decide

/-! ## Decoding: a word for every constructor, written out from the opcode map (R93) and the formats (R83) -/

/-- Format D with source `@(R3)+` (33) and destination `-(R4)` (44). -/
theorem test_decode_double_operand :
    decodeWord 0o013344 = .instr (.mov ⟨.autoIncDeferred, .r3⟩ ⟨.autoDec, .r4⟩) ∧
    decodeWord 0o113344 = .instr (.movb ⟨.autoIncDeferred, .r3⟩ ⟨.autoDec, .r4⟩) ∧
    decodeWord 0o023344 = .instr (.cmp ⟨.autoIncDeferred, .r3⟩ ⟨.autoDec, .r4⟩) ∧
    decodeWord 0o123344 = .instr (.cmpb ⟨.autoIncDeferred, .r3⟩ ⟨.autoDec, .r4⟩) ∧
    decodeWord 0o033344 = .instr (.bit ⟨.autoIncDeferred, .r3⟩ ⟨.autoDec, .r4⟩) ∧
    decodeWord 0o133344 = .instr (.bitb ⟨.autoIncDeferred, .r3⟩ ⟨.autoDec, .r4⟩) ∧
    decodeWord 0o043344 = .instr (.bic ⟨.autoIncDeferred, .r3⟩ ⟨.autoDec, .r4⟩) ∧
    decodeWord 0o143344 = .instr (.bicb ⟨.autoIncDeferred, .r3⟩ ⟨.autoDec, .r4⟩) ∧
    decodeWord 0o053344 = .instr (.bis ⟨.autoIncDeferred, .r3⟩ ⟨.autoDec, .r4⟩) ∧
    decodeWord 0o153344 = .instr (.bisb ⟨.autoIncDeferred, .r3⟩ ⟨.autoDec, .r4⟩) ∧
    decodeWord 0o063344 = .instr (.add ⟨.autoIncDeferred, .r3⟩ ⟨.autoDec, .r4⟩) ∧
    decodeWord 0o163344 = .instr (.sub ⟨.autoIncDeferred, .r3⟩ ⟨.autoDec, .r4⟩) := by decide

/-- Formats S and S' with destination `X(R5)` (65) and `@X(SP)` (76). -/
theorem test_decode_single_operand :
    decodeWord 0o005065 = .instr (.clr ⟨.indexed, .r5⟩) ∧
    decodeWord 0o105065 = .instr (.clrb ⟨.indexed, .r5⟩) ∧
    decodeWord 0o005165 = .instr (.com ⟨.indexed, .r5⟩) ∧
    decodeWord 0o105165 = .instr (.comb ⟨.indexed, .r5⟩) ∧
    decodeWord 0o005265 = .instr (.inc ⟨.indexed, .r5⟩) ∧
    decodeWord 0o105265 = .instr (.incb ⟨.indexed, .r5⟩) ∧
    decodeWord 0o005365 = .instr (.dec ⟨.indexed, .r5⟩) ∧
    decodeWord 0o105365 = .instr (.decb ⟨.indexed, .r5⟩) ∧
    decodeWord 0o005465 = .instr (.neg ⟨.indexed, .r5⟩) ∧
    decodeWord 0o105465 = .instr (.negb ⟨.indexed, .r5⟩) ∧
    decodeWord 0o005565 = .instr (.adc ⟨.indexed, .r5⟩) ∧
    decodeWord 0o105565 = .instr (.adcb ⟨.indexed, .r5⟩) ∧
    decodeWord 0o005665 = .instr (.sbc ⟨.indexed, .r5⟩) ∧
    decodeWord 0o105665 = .instr (.sbcb ⟨.indexed, .r5⟩) ∧
    decodeWord 0o005765 = .instr (.tst ⟨.indexed, .r5⟩) ∧
    decodeWord 0o105765 = .instr (.tstb ⟨.indexed, .r5⟩) ∧
    decodeWord 0o000376 = .instr (.swab ⟨.indexedDeferred, .sp⟩) := by decide

/-- The eight words of format C. -/
theorem test_decode_condition_codes :
    decodeWord 0o000241 = .instr .clc ∧
    decodeWord 0o000242 = .instr .clv ∧
    decodeWord 0o000244 = .instr .clz ∧
    decodeWord 0o000250 = .instr .cln ∧
    decodeWord 0o000261 = .instr .sec ∧
    decodeWord 0o000262 = .instr .sev ∧
    decodeWord 0o000264 = .instr .sez ∧
    decodeWord 0o000270 = .instr .sen := by decide

/-- Format B with offset 0o375. -/
theorem test_decode_branches :
    decodeWord 0o000775 = .instr (.br 0o375) ∧
    decodeWord 0o001375 = .instr (.bne 0o375) ∧
    decodeWord 0o001775 = .instr (.beq 0o375) ∧
    decodeWord 0o002375 = .instr (.bge 0o375) ∧
    decodeWord 0o002775 = .instr (.blt 0o375) ∧
    decodeWord 0o003375 = .instr (.bgt 0o375) ∧
    decodeWord 0o003775 = .instr (.ble 0o375) ∧
    decodeWord 0o100375 = .instr (.bpl 0o375) ∧
    decodeWord 0o100775 = .instr (.bmi 0o375) ∧
    decodeWord 0o101375 = .instr (.bhi 0o375) ∧
    decodeWord 0o101775 = .instr (.blos 0o375) ∧
    decodeWord 0o102375 = .instr (.bvc 0o375) ∧
    decodeWord 0o102775 = .instr (.bvs 0o375) ∧
    decodeWord 0o103375 = .instr (.bcc 0o375) ∧
    decodeWord 0o103775 = .instr (.bcs 0o375) := by decide

/-- Formats S' (JMP), J, T and Z. -/
theorem test_decode_jumps_and_control :
    decodeWord 0o000137 = .instr (.jmp ⟨.autoIncDeferred, .pc⟩) ∧
    decodeWord 0o004767 = .instr (.jsr .pc ⟨.indexed, .pc⟩) ∧
    decodeWord 0o004521 = .instr (.jsr .r5 ⟨.autoInc, .r1⟩) ∧
    decodeWord 0o000205 = .instr (.rts .r5) ∧
    decodeWord 0o000000 = .instr .halt ∧ decodeWord 0o000001 = .instr .wait ∧ decodeWord 0o000005 = .instr .reset := by decide

/-- Both ends of ranges of R96, and the bytes of a word in memory order. -/
theorem test_decode_rejects :
    decodeWord 0o000002 = .reject .controlSpace ∧ decodeWord 0o000077 = .reject .controlSpace ∧
    decodeWord 0o000210 = .reject .conditionCodeSpace ∧ decodeWord 0o000240 = .reject .conditionCodeSpace ∧
    decodeWord 0o000277 = .reject .conditionCodeSpace ∧ decodeWord 0o006000 = .reject .shiftSpace ∧
    decodeWord 0o107777 = .reject .shiftSpace ∧ decodeWord 0o104400 = .reject .trapSpace ∧
    decodeWord 0o070000 = .reject .extendedSpace ∧ decodeWord 0o177777 = .reject .extendedSpace ∧
    decode [0o303] = .reject .truncated ∧ decode [0o300, 0o000, 0o111] = .instr (.swab ⟨.register, .r0⟩) [0o111] := by decide

/-! ## One step of each instruction -/

/-- The state with the words stored from 001000 on, which `pc` holds, and the given registers and status word. -/
def at1000 (words : List Word) (regs : List (Reg × Word)) (psw : Word) : State :=
  let image := (words.foldl (fun p v => (p.1 + 2, p.2.pokeWord p.1 v)) ((0o1000 : Word), State.reset)).2
  (regs.foldl (fun s p => s.setReg p.1 p.2) (image.setReg .pc 0o1000)).setPsw psw

/-- The state a step answers. -/
def after (s : State) : State :=
  match step s with
  | .next t => t
  | .fault _ => s
  | .refused _ => s

/-- What a test of a data instruction looks at: a register, the four flags, `pc`. -/
def sees (r : Reg) (s : State) : Word × Flags × Word := (s.reg r, s.flags, s.reg .pc)

/-- R161. -/
theorem test_mov :
    sees .r0 (after (at1000 [0o012700, 0o177777] [] 0o01)) = (0o177777, ⟨true, false, false, true⟩, 0o001004) := by decide +kernel

/-- R162, `MOVB_SEXT` = false. -/
theorem test_movb :
    sees .r0 (after (at1000 [0o112700, 0o000200] [(.r0, 0o052525)] 0o00)) = (0o052600, ⟨true, false, false, false⟩, 0o001004) := by decide +kernel

/-- R163. -/
theorem test_cmp :
    sees .r1 (after (at1000 [0o020001] [(.r0, 0o000001), (.r1, 0o000002)] 0o00)) = (0o000002, ⟨true, false, false, true⟩, 0o001002) := by decide +kernel

/-- R164. -/
theorem test_cmpb :
    sees .r0 (after (at1000 [0o120001] [(.r0, 0o000200), (.r1, 0o000001)] 0o01)) = (0o000200, ⟨false, false, true, false⟩, 0o001002) := by decide +kernel

/-- R165. -/
theorem test_bit :
    sees .r0 (after (at1000 [0o032700, 0o100000] [(.r0, 0o100001)] 0o03)) = (0o100001, ⟨true, false, false, true⟩, 0o001004) := by decide +kernel

/-- R166. -/
theorem test_bitb :
    sees .r0 (after (at1000 [0o132700, 0o000001] [(.r0, 0o177776)] 0o02)) = (0o177776, ⟨false, true, false, false⟩, 0o001004) := by decide +kernel

/-- R167. -/
theorem test_bic :
    sees .r0 (after (at1000 [0o042700, 0o177400] [(.r0, 0o123456)] 0o00)) = (0o000056, ⟨false, false, false, false⟩, 0o001004) := by decide +kernel

/-- R168. -/
theorem test_bicb :
    sees .r0 (after (at1000 [0o142700, 0o000017] [(.r0, 0o177777)] 0o01)) = (0o177760, ⟨true, false, false, true⟩, 0o001004) := by decide +kernel

/-- R169. -/
theorem test_bis :
    sees .r0 (after (at1000 [0o052700, 0o100000] [(.r0, 0o000001)] 0o00)) = (0o100001, ⟨true, false, false, false⟩, 0o001004) := by decide +kernel

/-- R170. -/
theorem test_bisb :
    sees .r0 (after (at1000 [0o152700, 0o000200] [] 0o00)) = (0o000200, ⟨true, false, false, false⟩, 0o001004) := by decide +kernel

/-- R171. -/
theorem test_add :
    sees .r1 (after (at1000 [0o060001] [(.r0, 0o100000), (.r1, 0o100000)] 0o00)) = (0o000000, ⟨false, true, true, true⟩, 0o001002) := by decide +kernel

/-- R172. -/
theorem test_sub :
    sees .r1 (after (at1000 [0o160001] [(.r0, 0o000001), (.r1, 0o100000)] 0o00)) = (0o077777, ⟨false, false, true, false⟩, 0o001002) := by decide +kernel

/-- R181. -/
theorem test_clr :
    sees .r0 (after (at1000 [0o005000] [(.r0, 0o123456)] 0o13)) = (0o000000, ⟨false, true, false, false⟩, 0o001002) := by decide +kernel

/-- R182. -/
theorem test_clrb :
    sees .r0 (after (at1000 [0o105000] [(.r0, 0o123456)] 0o13)) = (0o123400, ⟨false, true, false, false⟩, 0o001002) := by decide +kernel

/-- R183. -/
theorem test_com :
    sees .r0 (after (at1000 [0o005100] [(.r0, 0o013333)] 0o00)) = (0o164444, ⟨true, false, false, true⟩, 0o001002) := by decide +kernel

/-- R184. -/
theorem test_comb :
    sees .r0 (after (at1000 [0o105100] [(.r0, 0o123400)] 0o02)) = (0o123777, ⟨true, false, false, true⟩, 0o001002) := by decide +kernel

/-- R185. -/
theorem test_inc :
    sees .r0 (after (at1000 [0o005200] [(.r0, 0o077777)] 0o01)) = (0o100000, ⟨true, false, true, true⟩, 0o001002) := by decide +kernel

/-- R186: no carry into the neighbouring byte. -/
theorem test_incb :
    sees .r0 (after (at1000 [0o105200] [(.r0, 0o001377)] 0o00)) = (0o001000, ⟨false, true, false, false⟩, 0o001002) := by decide +kernel

/-- R187. -/
theorem test_dec :
    sees .r1 (after (at1000 [0o005301] [(.r1, 0o000001)] 0o01)) = (0o000000, ⟨false, true, false, true⟩, 0o001002) := by decide +kernel

/-- R188. -/
theorem test_decb :
    sees .r0 (after (at1000 [0o105300] [(.r0, 0o000200)] 0o00)) = (0o000177, ⟨false, false, true, false⟩, 0o001002) := by decide +kernel

/-- R189. -/
theorem test_neg :
    sees .r0 (after (at1000 [0o005400] [(.r0, 0o000006)] 0o00)) = (0o177772, ⟨true, false, false, true⟩, 0o001002) := by decide +kernel

/-- R190: byte 0o200 stays. -/
theorem test_negb :
    sees .r0 (after (at1000 [0o105400] [(.r0, 0o000200)] 0o00)) = (0o000200, ⟨true, false, true, true⟩, 0o001002) := by decide +kernel

/-- R191. -/
theorem test_adc :
    sees .r0 (after (at1000 [0o005500] [(.r0, 0o177777)] 0o01)) = (0o000000, ⟨false, true, false, true⟩, 0o001002) := by decide +kernel

/-- R192. -/
theorem test_adcb :
    sees .r0 (after (at1000 [0o105500] [(.r0, 0o000377)] 0o01)) = (0o000000, ⟨false, true, false, true⟩, 0o001002) := by decide +kernel

/-- R193. -/
theorem test_sbc :
    sees .r0 (after (at1000 [0o005600] [] 0o01)) = (0o177777, ⟨true, false, false, true⟩, 0o001002) := by decide +kernel

/-- R194. -/
theorem test_sbcb :
    sees .r0 (after (at1000 [0o105600] [] 0o01)) = (0o000377, ⟨true, false, false, true⟩, 0o001002) := by decide +kernel

/-- R195: N is that of the negated operand. -/
theorem test_tst :
    sees .r0 (after (at1000 [0o005700] [(.r0, 0o000001)] 0o03)) = (0o000001, ⟨true, false, false, false⟩, 0o001002) := by decide +kernel

/-- R196. -/
theorem test_tstb :
    sees .r0 (after (at1000 [0o105700] [(.r0, 0o177401)] 0o03)) = (0o177401, ⟨true, false, false, false⟩, 0o001002) := by decide +kernel

/-- R197. -/
theorem test_swab :
    sees .r0 (after (at1000 [0o000300] [(.r0, 0o100001)] 0o03)) = (0o000600, ⟨true, false, false, false⟩, 0o001002) := by decide +kernel

/-- R162, `MOVB_SEXT` = true. -/
theorem test_movb_sext :
    let s := at1000 [0o112700, 0o000200] [(.r0, 0o052525)] 0
    (after { s with params := { s.params with movbSext := true } }).reg .r0 = 0o177600 := by decide +kernel

/-- R129(a): `MOV R0,(R0)+` stores the old R0. -/
theorem test_mov_same_register :
    let s := after (at1000 [0o010020] [(.r0, 0o002000)] 0)
    s.reg .r0 = 0o002002 ∧ s.peekWord 0o002000 = 0o002000 := by decide +kernel

/-- R148: `MOV #357,@#PSW_ADDR` leaves 0o341. -/
theorem test_mov_to_psw :
    (after (at1000 [0o012737, 0o000357, 0o177776] [] 0)).psw = 0o341 := by decide +kernel

/-- R130: `ADD 4(R1),6(R2)` with its whole trace. -/
theorem test_add_indexed_trace :
    let s := ((at1000 [0o066162, 4, 6] [(.r1, 0o002000), (.r2, 0o003000)] 0).pokeWord 0o002004 0o11).pokeWord 0o003006 0o22
    (after s).peekWord 0o003006 = 0o33 ∧ (after s).reg .pc = 0o001006 ∧
    (after s).trace = [⟨.instructionFetch, 0o001000⟩, ⟨.read, 0o001002⟩, ⟨.read, 0o002004⟩, ⟨.read, 0o001004⟩,
      ⟨.read, 0o003006⟩, ⟨.write, 0o003006⟩] := by decide +kernel

/-- R115, R116, R118: the step of the auto modes in byte mode: 1, 2 through SP, 2 through PC, and a pointer at an odd address. -/
theorem test_byte_mode_steps :
    let s := ((at1000 [] [(.r2, 0o001000), (.sp, 0o001000), (.r4, 0o001002), (.pc, 0o001002)] 0).decoded true).pokeWord 0o001001 0o010004
    (resolve ⟨.autoInc, .r2⟩ s).2.reg .r2 = 0o001001 ∧ (resolve ⟨.autoInc, .sp⟩ s).2.reg .sp = 0o001002 ∧
    (resolve ⟨.autoInc, .pc⟩ s).2.reg .pc = 0o001004 ∧ (resolve ⟨.autoDecDeferred, .r4⟩ s).1 = 0o010004 := by decide +kernel

/-! ### Condition codes (R211 to R218): the status word before and after -/

/-- R211. -/
theorem test_clc : (after (at1000 [0o000241] [] 0o17)).psw = 0o16 := by decide +kernel
/-- R212. -/
theorem test_clv : (after (at1000 [0o000242] [] 0o17)).psw = 0o15 := by decide +kernel
/-- R213. -/
theorem test_clz : (after (at1000 [0o000244] [] 0o17)).psw = 0o13 := by decide +kernel
/-- R214. -/
theorem test_cln : (after (at1000 [0o000250] [] 0o17)).psw = 0o07 := by decide +kernel
/-- R215. -/
theorem test_sec : (after (at1000 [0o000261] [] 0o00)).psw = 0o01 := by decide +kernel
/-- R216. -/
theorem test_sev : (after (at1000 [0o000262] [] 0o00)).psw = 0o02 := by decide +kernel
/-- R217. -/
theorem test_sez : (after (at1000 [0o000264] [] 0o00)).psw = 0o04 := by decide +kernel
/-- R218. -/
theorem test_sen : (after (at1000 [0o000270] [] 0o00)).psw = 0o10 := by decide +kernel

/-! ### Branches (R221 to R235): `pc` after a taken and, but for BR, after a branch not taken -/

/-- R221. -/
theorem test_br :
    (after (at1000 [0o000775] [] 0o00)).reg .pc = 0o000774 := by decide +kernel
/-- R222. -/
theorem test_bne :
    (after (at1000 [0o001375] [] 0o00)).reg .pc = 0o000774 ∧
    (after (at1000 [0o001375] [] 0o04)).reg .pc = 0o001002 := by decide +kernel
/-- R223. -/
theorem test_beq :
    (after (at1000 [0o001402] [] 0o04)).reg .pc = 0o001006 ∧
    (after (at1000 [0o001402] [] 0o00)).reg .pc = 0o001002 := by decide +kernel
/-- R224. -/
theorem test_bge :
    (after (at1000 [0o002002] [] 0o12)).reg .pc = 0o001006 ∧
    (after (at1000 [0o002002] [] 0o10)).reg .pc = 0o001002 := by decide +kernel
/-- R225. -/
theorem test_blt :
    (after (at1000 [0o002402] [] 0o10)).reg .pc = 0o001006 ∧
    (after (at1000 [0o002402] [] 0o00)).reg .pc = 0o001002 := by decide +kernel
/-- R226. -/
theorem test_bgt :
    (after (at1000 [0o003002] [] 0o00)).reg .pc = 0o001006 ∧
    (after (at1000 [0o003002] [] 0o04)).reg .pc = 0o001002 := by decide +kernel
/-- R227. -/
theorem test_ble :
    (after (at1000 [0o003402] [] 0o04)).reg .pc = 0o001006 ∧
    (after (at1000 [0o003402] [] 0o00)).reg .pc = 0o001002 := by decide +kernel
/-- R228. -/
theorem test_bpl :
    (after (at1000 [0o100002] [] 0o00)).reg .pc = 0o001006 ∧
    (after (at1000 [0o100002] [] 0o10)).reg .pc = 0o001002 := by decide +kernel
/-- R229. -/
theorem test_bmi :
    (after (at1000 [0o100402] [] 0o10)).reg .pc = 0o001006 ∧
    (after (at1000 [0o100402] [] 0o00)).reg .pc = 0o001002 := by decide +kernel
/-- R230. -/
theorem test_bhi :
    (after (at1000 [0o101002] [] 0o00)).reg .pc = 0o001006 ∧
    (after (at1000 [0o101002] [] 0o01)).reg .pc = 0o001002 := by decide +kernel
/-- R231. -/
theorem test_blos :
    (after (at1000 [0o101402] [] 0o01)).reg .pc = 0o001006 ∧
    (after (at1000 [0o101402] [] 0o00)).reg .pc = 0o001002 := by decide +kernel
/-- R232. -/
theorem test_bvc :
    (after (at1000 [0o102002] [] 0o00)).reg .pc = 0o001006 ∧
    (after (at1000 [0o102002] [] 0o02)).reg .pc = 0o001002 := by decide +kernel
/-- R233. -/
theorem test_bvs :
    (after (at1000 [0o102402] [] 0o02)).reg .pc = 0o001006 ∧
    (after (at1000 [0o102402] [] 0o00)).reg .pc = 0o001002 := by decide +kernel
/-- R234. -/
theorem test_bcc :
    (after (at1000 [0o103002] [] 0o00)).reg .pc = 0o001006 ∧
    (after (at1000 [0o103002] [] 0o01)).reg .pc = 0o001002 := by decide +kernel
/-- R235. -/
theorem test_bcs :
    (after (at1000 [0o103402] [] 0o01)).reg .pc = 0o001006 ∧
    (after (at1000 [0o103402] [] 0o00)).reg .pc = 0o001002 := by decide +kernel

/-! ### Jumps, control, faults -/

/-- R241: `JMP @(R1)+`. -/
theorem test_jmp :
    let s := after ((at1000 [0o000131] [(.r1, 0o002000)] 0).pokeWord 0o002000 0o003000)
    s.reg .pc = 0o003000 ∧ s.reg .r1 = 0o002002 ∧ s.trace = [⟨.instructionFetch, 0o001000⟩, ⟨.read, 0o002000⟩] := by decide +kernel

/-- R241: an odd target raises the advisory only. -/
theorem test_jmp_odd :
    let s := after (at1000 [0o000111] [(.r1, 0o002001)] 0)
    s.reg .pc = 0o002001 ∧ s.advisoryOddPc = true ∧ s.status = .running := by decide +kernel

/-- R242: `JSR R1,(R1)+` pushes the register as the resolve left it. -/
theorem test_jsr :
    let s := after (at1000 [0o004121] [(.r1, 0o002000), (.sp, 0o001000)] 0)
    s.reg .pc = 0o002000 ∧ s.reg .r1 = 0o001002 ∧ s.reg .sp = 0o000776 ∧ s.peekWord 0o000776 = 0o002002 ∧
    s.trace = [⟨.instructionFetch, 0o001000⟩, ⟨.write, 0o000776⟩] := by decide +kernel

/-- R242, R263: `JSR PC,@#2000` with sp = 000401 overflows, with sp = 000402 does not, with sp = 0 lands on the status word. -/
theorem test_jsr_limit :
    let s := fun sp => after (at1000 [0o004737, 0o002000] [(.sp, sp)] 0)
    (s 0o401).status = .faulted .stackOverflow ∧ (s 0o401).reg .pc = 0o001004 ∧ (s 0o401).reg .sp = 0o000401 ∧
    (s 0o402).reg .sp = 0o000400 ∧ (s 0o402).peekWord 0o400 = 0o001004 ∧ (s 0).psw = 0o001004 := by decide +kernel

/-- R243: `RTS R5`. -/
theorem test_rts :
    let s := after ((at1000 [0o000205] [(.r5, 0o002000), (.sp, 0o000776)] 0).pokeWord 0o000776 0o001234)
    s.reg .pc = 0o002000 ∧ s.reg .r5 = 0o001234 ∧ s.reg .sp = 0o001000 := by decide +kernel

/-- R243: `RTS SP`; the step of `sp` is lost. -/
theorem test_rts_sp :
    let s := after ((at1000 [0o000206] [(.sp, 0o000776)] 0).pokeWord 0o000776 0o001234)
    s.reg .pc = 0o000776 ∧ s.reg .sp = 0o001234 := by decide +kernel

/-- R250: the source's scenario, from the load of the smallest image; a second step does nothing. -/
theorem test_halt :
    loadImage [.setOrigin 0, .storeWord 0, .setEntry 0] State.reset = .next State.reset ∧
    (after State.reset).status = .halted ∧ (after State.reset).reg .pc = 2 ∧ (after (after State.reset)) = after State.reset ∧
    (after State.reset).trace = [⟨.instructionFetch, 0⟩] := ⟨rfl, by decide +kernel, by decide +kernel, by decide +kernel, by decide +kernel⟩

/-- R251. -/
theorem test_wait :
    let s := after (at1000 [0o000001] [(.r1, 5)] 0o17)
    s.status = .waiting ∧ s.reg .pc = 0o001002 ∧ s.psw = 0o17 ∧ s.reg .r1 = 5 := by decide +kernel

/-- R252: RESET, and the next step as from `Running`. -/
theorem test_reset :
    let s := after (at1000 [0o000005, 0o005200] [(.r0, 7)] 0o17)
    s.status = .reset ∧ s.reg .r0 = 7 ∧ s.psw = 0o17 ∧ (after s).status = .running ∧ (after s).reg .r0 = 0o10 ∧
    (after s).psw = 1 := by decide +kernel

/-- R254: 000240 and `JMP R1`. -/
theorem test_illegal :
    let s := after (at1000 [0o000240] [(.r0, 7)] 0o17)
    s.status = .faulted .illegalInstruction ∧ s.reg .pc = 0o001002 ∧ s.reg .r0 = 7 ∧ s.psw = 0o17 ∧
    (after (at1000 [0o000101] [] 0)).status = .faulted .illegalInstruction := by decide +kernel

/-- The state a load over `State.reset` answers. -/
def loaded (image : List Directive) : State :=
  match loadImage image State.reset with
  | .next s => s
  | .fault _ => State.reset
  | .refused _ => State.reset

/-- R292: stores go to the cursor, which starts at 0 and wraps; an image may preset a register; the last entry wins. -/
theorem test_load :
    let image := [.storeWord 0o123456, .setOrigin 0o177704, .storeWord 7, .setEntry 2, .setOrigin 0o177775, .storeWord 0o052525,
      .setEntry 0o1001]
    let s := loaded image
    s.peekWord 0 = 0o123456 ∧ s.reg .r2 = 7 ∧ s.reg .pc = 0o1001 ∧ s.advisoryOddPc = true ∧
      s.peek 0o177776 = 0o125 ∧ s.trace = [] := by decide +kernel

/-- The host's placement: step runs the placed instruction first after reset. -/
theorem test_with_fetch_word : (after (State.reset.withFetchWord 16 0o005200)).reg .r0 = 1 := by decide +kernel

/-! ## The hypotheses of the statements can be met -/

theorem valid_default : Params.default.Valid := by constructor <;> decide

/-- The parameters at the ends of their ranges: registers lowest with the status word just above, and the reverse. -/
theorem valid_low : (⟨0o100000, 0o100020, 0, 0, true⟩ : Params).Valid := by constructor <;> decide
theorem valid_high : (⟨0o177760, 0o177756, 0o177777, 0, false⟩ : Params).Valid := by constructor <;> decide

/-- A state at 001000 with the given word there, and the state after its fetch. -/
def word (v : Word) : State := at1000 [v] [(.r1, 0o002000), (.sp, 0o001000)] 0o17
def fetched (v : Word) : State := (fetchInstruction (word v)).2

/-- The mode field of a specifier makes the word apart from another by evaluation. -/
theorem apart_by {v w : Word} (h : (v ≠ w && v ≠ w + 1#16 && v + 1#16 ≠ w) = true) : Apart v w := by
  rw [apart_iff]
  simpa [and_assoc] using h

theorem witness_DecoderFollowsTheOpcodeMap :
    decodeWord 0o010102 = .instr (.mov ⟨.register, .r1⟩ ⟨.register, .r2⟩) ∧
    (⟨0x0005, 0xFFFF⟩ : OpcodeRow) ∈ opcodeMap ∧ (0o000005 : Word) &&& 0xFFFF = 0x0005 := by decide

theorem witness_IllegalWordsAreTheListedRanges :
    (word 0o000240).status.terminal = false ∧ (word 0o000240).peekWord ((word 0o000240).reg .pc) = 0o000240 ∧
    decodeWord 0o000240 = .reject .conditionCodeSpace := by decide +kernel

theorem witness_ByteInstructionsSetByteMode :
    decodeWord 0o110102 = .instr (.movb ⟨.register, .r1⟩ ⟨.register, .r2⟩) ∧ ∃ t, exec .clc State.reset = .next t :=
  ⟨by decide, _, rfl⟩

theorem witness_RegistersAreSeparateWordsOfMemory : State.reset.params.Valid := valid_default

theorem witness_PopUndoesPush :
    ((word 0).reg .sp - 2#16 = 0o000776) ∧ (word 0).params.stackLimit.toNat ≤ ((word 0).reg .sp - 2#16).toNat ∧
    (∃ u, pushWord 5 (word 0) = some u) ∧ Apart ((word 0).reg .sp - 2#16) (regAddr (word 0).params .sp) ∧
    (((word 0).setReg .sp 1).reg .sp).toNat < 2 :=
  ⟨by decide +kernel, by decide +kernel, Option.isSome_iff_exists.mp (by decide +kernel), apart_by (by decide +kernel),
    by decide +kernel⟩

/-- `PushWord` at the limit: the new stack pointer just below it and on it. -/
theorem witness_PopUndoesPush_limit :
    (((word 0).setReg .sp 0o401).reg .sp - 2#16).toNat < (word 0).params.stackLimit.toNat ∧
    (((word 0).setReg .sp 0o402).reg .sp - 2#16).toNat = (word 0).params.stackLimit.toNat := by decide +kernel

/-- Both ends of the register range, both bytes of the status word, and the addresses next to them. -/
theorem witness_OperandAccess :
    isReg Params.default 0o177700 = true ∧ isReg Params.default 0o177717 = true ∧ isReg Params.default 0o177777 = true ∧
    isReg Params.default 0o177677 = false ∧ isReg Params.default 0o177720 = false ∧ isReg Params.default 0o177775 = false := by
  decide

theorem witness_ResolveFrame :
    State.reset.params.Valid ∧ ¬ Stepped ⟨.autoInc, .r1⟩ Params.default 0o001000 ∧ steppedReg ⟨.autoInc, .r1⟩ ≠ some .r2 := by
  refine ⟨valid_default, ?_, by decide⟩
  rintro ⟨r, h, hi⟩
  cases h
  revert hi
  unfold InWord
  decide

theorem witness_JmpGoesToTheEffectiveAddress :
    (⟨.deferred, .r1⟩ : Specifier).mode ≠ .register ∧ (⟨.register, .r1⟩ : Specifier).mode = .register := by decide

/-- The push on the limit, and just below it. -/
theorem witness_JsrPushesLinksAndJumps :
    (⟨.deferred, .r1⟩ : Specifier).mode ≠ .register ∧
    ((resolve ⟨.deferred, .r1⟩ (((word 0).setReg .sp 0o402).decoded false)).2.reg .sp - 2#16).toNat =
      (word 0).params.stackLimit.toNat ∧
    ((resolve ⟨.deferred, .r1⟩ (((word 0).setReg .sp 0o401).decoded false)).2.reg .sp - 2#16).toNat <
      (word 0).params.stackLimit.toNat := by decide +kernel

theorem witness_RtsReturnsThroughTheLinkageRegister :
    Reg.r5 ≠ .pc ∧ Reg.r5 ≠ .sp ∧ Reg.r0 ≠ .r5 ∧ Reg.r0 ≠ .pc ∧ Reg.r0 ≠ .sp := by decide

theorem witness_StackOverflowLeavesTheResolvedState :
    let s := (word 0).setReg .sp 0o401
    s.params.Valid ∧ (⟨.deferred, .r1⟩ : Specifier).mode ≠ .register ∧
    ((resolve ⟨.deferred, .r1⟩ (s.decoded false)).2.reg .sp - 2#16).toNat < s.params.stackLimit.toNat ∧
    steppedReg ⟨.deferred, .r1⟩ ≠ some .sp ∧ isReg s.params 0o001000 = false ∧
    ∃ t, exec (.jsr .pc ⟨.deferred, .r1⟩) s = .next t ∧ t.status = .faulted .stackOverflow :=
  ⟨valid_default, by decide, by decide +kernel, by decide, by decide, _, rfl, by decide +kernel⟩

theorem witness_WordStoresTouchOnlyTheDestination :
    State.reset.params.Valid ∧ (∃ t, exec (.mov ⟨.register, .r1⟩ ⟨.deferred, .r1⟩) (fetched 0) = .next t) ∧
    (∃ t, exec (.inc ⟨.deferred, .r1⟩) (fetched 0) = .next t) ∧
    Apart (fetched 0).params.pswAddr (destinationWord ⟨.register, .r1⟩ ⟨.deferred, .r1⟩ (fetched 0)).1 ∧
    Apart (fetched 0).params.pswAddr (resolve ⟨.deferred, .r1⟩ ((fetched 0).decoded false)).1 :=
  ⟨valid_default, ⟨_, rfl⟩, ⟨_, rfl⟩, apart_by (by decide +kernel), apart_by (by decide +kernel)⟩

theorem witness_ByteStoresTouchOnlyTheDestination :
    State.reset.params.Valid ∧ (∃ t, exec (.movb ⟨.register, .r1⟩ ⟨.deferred, .r1⟩) (fetched 0) = .next t) ∧
    (∃ t, exec (.bicb ⟨.register, .r1⟩ ⟨.deferred, .r1⟩) (fetched 0) = .next t) ∧
    (∃ t, exec (.incb ⟨.deferred, .r1⟩) (fetched 0) = .next t) ∧
    ¬ InWord (destinationByte ⟨.register, .r1⟩ ⟨.deferred, .r1⟩ (fetched 0)).1 (fetched 0).params.pswAddr ∧
    ¬ InWord (resolve ⟨.deferred, .r1⟩ ((fetched 0).decoded true)).1 (fetched 0).params.pswAddr :=
  ⟨valid_default, ⟨_, rfl⟩, ⟨_, rfl⟩, ⟨_, rfl⟩, by unfold InWord; decide +kernel, by unfold InWord; decide +kernel⟩

theorem witness_ComparesStoreNothing :
    State.reset.params.Valid ∧ (∃ t, exec (.cmpb ⟨.register, .r1⟩ ⟨.deferred, .r1⟩) (fetched 0) = .next t) ∧
    (∃ t, exec (.bit ⟨.register, .r1⟩ ⟨.deferred, .r1⟩) (fetched 0) = .next t) ∧
    (∃ t, exec (.tst ⟨.deferred, .r1⟩) (fetched 0) = .next t) := ⟨valid_default, ⟨_, rfl⟩, ⟨_, rfl⟩, ⟨_, rfl⟩⟩

theorem witness_JumpsTouchOnlyTheirRegisters :
    State.reset.params.Valid ∧ (∃ t, exec (.jmp ⟨.deferred, .r1⟩) (fetched 0) = .next t) ∧
    (∃ t, exec (.jsr .pc ⟨.deferred, .r1⟩) (fetched 0) = .next t ∧ t.status = .running) ∧
    (∃ t, exec (.rts .pc) (fetched 0) = .next t) ∧
    Apart (fetched 0).params.pswAddr ((resolve ⟨.deferred, .r1⟩ ((fetched 0).decoded false)).2.reg .sp - 2#16) :=
  ⟨valid_default, ⟨_, rfl⟩, ⟨_, rfl, by decide +kernel⟩, ⟨_, rfl⟩, apart_by (by decide +kernel)⟩

theorem witness_CarryAndOverflowAreThoseOfTheIntegers : 8 ∈ [8, 16] ∧ 16 ∈ [8, 16] := by decide

theorem witness_StepRunsTheDecodedInstruction :
    (word 0o005200).status.terminal = false ∧
    decode [(word 0o005200).peek ((word 0o005200).reg .pc), (word 0o005200).peek ((word 0o005200).reg .pc + 1#16)] =
      .instr (.inc ⟨.register, .r0⟩) [] ∧
    ∃ t, exec (.inc ⟨.register, .r0⟩) (fetched 0o005200) = .next t := ⟨by decide +kernel, by decide +kernel, _, rfl⟩

theorem witness_IllegalInstructionChangesNothingElse :
    (word 0o000240).params.Valid ∧ (word 0o000240).status.terminal = false ∧
    decodeWord ((word 0o000240).peekWord ((word 0o000240).reg .pc)) = .reject .conditionCodeSpace ∧
    decodeWord ((word 0o000101).peekWord ((word 0o000101).reg .pc)) = .instr (.jmp ⟨.register, .r1⟩) ∧
    decodeWord ((word 0o004701).peekWord ((word 0o004701).reg .pc)) = .instr (.jsr .pc ⟨.register, .r1⟩) :=
  ⟨valid_default, by decide +kernel, by decide +kernel, by decide +kernel, by decide +kernel⟩

/-- A state in each part of the diagram. -/
theorem witness_StateDiagram :
    (after (word 0)).status ∈ [Status.halted, .waiting, .faulted .illegalInstruction, .faulted .stackOverflow] ∧
    (after (word 5)).status ∈ [Status.running, .reset] ∧ (word 0).status ∈ [Status.running, .reset] := by decide +kernel

theorem witness_TerminalStatesStay : (after (word 0)).status.terminal = true := by decide +kernel

/-- `StatusWordKept`: an illegal word, a branch, a JSR that faults, and one that pushes apart from the status word. -/
theorem witness_StatusWordKept :
    (word 0o004711).params.Valid ∧ (∃ t, step (word 0o004711) = .next t) ∧ (word 0o004711).status.terminal = false ∧
    decodeWord ((word 0o000240).peekWord ((word 0o000240).reg .pc)) = .reject .conditionCodeSpace ∧
    decodeWord ((word 0o000403).peekWord ((word 0o000403).reg .pc)) = .instr (.br 3) ∧
    decodeWord ((word 0o004711).peekWord ((word 0o004711).reg .pc)) = .instr (.jsr .pc ⟨.deferred, .r1⟩) ∧
    (after ((word 0o004711).setReg .sp 0o401)).isFaulted ∧
    Apart (word 0o004711).params.pswAddr
      ((resolve ⟨.deferred, .r1⟩ ((fetchInstruction (word 0o004711)).2.decoded false)).2.reg .sp - 2#16) :=
  ⟨valid_default, ⟨_, rfl⟩, by decide +kernel, by decide +kernel, by decide +kernel, by decide +kernel,
    ⟨.stackOverflow, by decide +kernel⟩, apart_by (by decide +kernel)⟩

theorem witness_ByteModeAndAdvisoryNeverCarry : (word 0).status.terminal = false ∧ (after (word 5)).status.terminal = false := by
  decide +kernel

/-- `DataInstructionsMoveOnByTheirLength`: one of each of the five alternatives. -/
theorem witness_DataInstructionsMoveOnByTheirLength :
    let s := fetched 0
    let d : Specifier := ⟨.deferred, .r1⟩
    s.params.Valid ∧ d.reg ≠ .pc ∧ (∃ t, exec (.cmp d d) s = .next t) ∧
    ((∃ t, exec (.mov d d) s = .next t) ∧ Apart (regAddr s.params .pc) (destinationWord d d s).1) ∧
    ((∃ t, exec (.com d) s = .next t) ∧ Apart (regAddr s.params .pc) (resolve d (s.decoded false)).1) ∧
    ((∃ t, exec (.movb d d) s = .next t) ∧ ¬ InWord (destinationByte d d s).1 (regAddr s.params .pc)) ∧
    ((∃ t, exec (.negb d) s = .next t) ∧ ¬ InWord (resolve d (s.decoded true)).1 (regAddr s.params .pc)) :=
  ⟨valid_default, by decide, ⟨_, rfl⟩, ⟨⟨_, rfl⟩, apart_by (by decide +kernel)⟩, ⟨⟨_, rfl⟩, apart_by (by decide +kernel)⟩,
    ⟨⟨_, rfl⟩, by unfold InWord; decide +kernel⟩, ⟨_, rfl⟩, by unfold InWord; decide +kernel⟩

theorem apart_registers (s : State) (h : ([.r0, .r1, .r2, .r3, .r4, .r5, .sp, .pc] : List Reg).all (fun q =>
    decide (s.reg .sp - 2#16 ≠ regAddr s.params q) && decide (s.reg .sp - 2#16 ≠ regAddr s.params q + 1#16) &&
      decide (s.reg .sp - 2#16 + 1#16 ≠ regAddr s.params q)) = true) (q : Reg) :
    Apart (s.reg .sp - 2#16) (regAddr s.params q) := by
  rw [apart_iff]
  have := List.all_eq_true.mp h q (by cases q <;> decide)
  simpa [and_assoc] using this

/-- `ReturnUndoesCall`: `JSR PC,(R1)` and `JSR R5,(R1)`, and an RTS in the very state they leave. -/
theorem witness_ReturnUndoesCall :
    let s := fetched 0
    let d : Specifier := ⟨.deferred, .r1⟩
    s.params.Valid ∧ d.mode ≠ .register ∧ steppedReg d ≠ some .sp ∧ steppedReg d ≠ some .r5 ∧
    (∃ t, exec (.jsr .pc d) s = .next t ∧ t.status = .running ∧ t.params = s.params) ∧
    (∃ t, exec (.jsr .r5 d) s = .next t ∧ t.status = .running ∧ t.params = s.params) ∧
    ∀ q, Apart (s.reg .sp - 2#16) (regAddr s.params q) :=
  ⟨valid_default, by decide, by decide, by decide, ⟨_, rfl, by decide +kernel, by decide +kernel⟩,
    ⟨_, rfl, by decide +kernel, by decide +kernel⟩, apart_registers _ (by decide +kernel)⟩

/-- The invariant holds of a state from which a step is taken. -/
theorem witness_StepKeepsTheInvariant : (word 0o005200).Inv ∧ ∃ t, step (word 0o005200) = .next t :=
  ⟨⟨valid_default, by decide +kernel, by decide +kernel⟩, _, rfl⟩

theorem witness_LoadEntersAtTheLastEntry : ∀ e, Directive.setEntry e ∉ [Directive.setOrigin 0, .storeWord 5] := by
  intro e h
  simp at h

theorem witness_LoadStoresInOrder :
    (∃ t, loadImage ([.setOrigin 8] ++ [.setEntry 4]) State.reset = .next t) ∧ (∀ x, Directive.storeWord x ∉ [Directive.setOrigin 8]) := by
  refine ⟨⟨_, rfl⟩, ?_⟩
  intro x h
  simp at h

end Sys2Proof.Tests
end

section
/-! The statements on memory and the stack: a byte access sees the bytes of a word access (R52), what the traced primitives do
(R55 to R58), and that a pop undoes a push (R66 to R68). -/

namespace Sys2Proof.Machine

variable (s : State)

/-! ## A word as a number and as two bytes (R51, R52) -/

/-- The little-endian value of a word (R51). -/
theorem wordOf_toNat (hi lo : Byte) : (wordOf hi lo).toNat = lo.toNat + 256 * hi.toNat := by
  rw [wordOf, BitVec.toNat_append, ← Nat.shiftLeft_add_eq_or_of_lt lo.isLt, Nat.shiftLeft_eq]
  omega

theorem peekWord_toNat (a : Word) : (s.peekWord a).toNat =
    (Memory.read s.mem a.toNat).toNat + 256 * (Memory.read s.mem ((a.toNat + 1) % 65536)).toNat := by
  have hnext : (a + 1#16).toNat = (a.toNat + 1) % 65536 := BitVec.toNat_add a 1#16
  rw [State.peekWord, wordOf_toNat, State.peek, State.peek, hnext]

@[simp] theorem peekWord_memWriteWord (a v : Word) : (memWriteWord a v s).peekWord a = v := by
  simp [memWriteWord]

/-- A byte written at a word's address is its low byte; the high byte stays. -/
theorem peekWord_memWriteByte_lo (a : Word) (b : Byte) :
    (memWriteByte a b s).peekWord a = wordOf (hiByte (s.peekWord a)) b := by
  simp [State.peekWord, peek_memWriteByte]

/-- A byte written just past a word's address is its high byte; the low byte stays. -/
theorem peekWord_memWriteByte_hi (a : Word) (b : Byte) :
    (memWriteByte (a + 1#16) b s).peekWord a = wordOf b (loByte (s.peekWord a)) := by
  simp [State.peekWord, peek_memWriteByte]

/-- Settles O8, by the bytes each write leaves, read one by one and as a word. -/
theorem mixedWidthAccessSeesTheSameBytes : Obligations.MixedWidthAccessSeesTheSameBytes := by
  intro s a v b
  have hlo : (memWriteWord a v s).peek a = loByte v := by simp [peek_memWriteWord]
  have hhi : (memWriteWord a v s).peek (a + 1#16) = hiByte v := by simp [peek_memWriteWord]
  exact ⟨hlo, hhi, peekWord_memWriteByte_lo s a b, peekWord_memWriteByte_hi s a b, peekWord_memWriteWord s a v,
    peekWord_toNat s a⟩

/-! ## Events of the traced primitives (R55 to R58, R64) -/

/-- An access emits one event, none at a register-mapped address (R64). -/
theorem note_trace_eq_ite (kind : AccessKind) (a : Word) :
    (s.note kind a).trace = if isReg s.params a then s.trace else s.trace ++ [⟨kind, a⟩] := by
  unfold State.note
  split <;> rfl

theorem memWriteByte_trace_eq_note (a : Word) (b : Byte) : (memWriteByte a b s).trace = (s.note .write a).trace := by
  rw [memWriteByte_trace, note_trace]

theorem memWriteWord_trace_eq_note (a v : Word) : (memWriteWord a v s).trace = (s.note .write a).trace := by
  rw [memWriteWord_trace, note_trace]

/-- Settles O9, from the law of each primitive. -/
theorem accessPrimitives : Obligations.AccessPrimitives := by
  intro s a v b
  exact ⟨memReadByte_fst s a, memReadByte_snd s a, memReadWord_fst s a, memReadWord_snd s a, rfl, rfl,
    fun c => peek_memWriteByte s a c b, fun c => peek_memWriteWord s a v c,
    memWriteByte_trace_eq_note s a b, memWriteWord_trace_eq_note s a v,
    fun kind => ⟨note_mem s kind a, note_trace_eq_ite s kind a⟩, advancePc_reg_pc s, advancePc_trace s⟩

/-! ## The stack primitives (R66 to R68) -/

/-- `PushWord` overflows exactly below the limit (R66). -/
theorem pushWord_eq_none_iff (v : Word) :
    pushWord v s = none ↔ (s.reg .sp - 2#16).toNat < s.params.stackLimit.toNat := by
  simp [pushWord_eq]

/-- On or above the limit `PushWord` writes `sp`, then the word at the new `sp` (R66). -/
theorem pushWord_of_limit_le {v : Word} (h : s.params.stackLimit.toNat ≤ (s.reg .sp - 2#16).toNat) :
    pushWord v s = some (memWriteWord (s.reg .sp - 2#16) v (s.setReg .sp (s.reg .sp - 2#16))) := by
  rw [pushWord_eq, if_neg (Nat.not_lt.mpr h)]

@[simp] theorem popWord_fst : (popWord s).1 = s.peekWord (s.reg .sp) := rfl

/-- `PopWord` notes the read and steps `sp` by 2 (R67). -/
theorem popWord_snd : (popWord s).2 = (s.note .read (s.reg .sp)).setReg .sp (s.reg .sp + 2#16) := by
  simp [popWord]

/-- A stack pointer below 2 wraps at the bottom of the address space. -/
theorem sub_two_toNat_of_lt {a : Word} (h : a.toNat < 2) : (a - 2#16).toNat = a.toNat + 65534 := by
  rw [BitVec.toNat_sub, BitVec.toNat_ofNat]
  omega

/-- A push whose slot is not the bytes of `sp` leaves `sp` at the slot and the word in it (R68). -/
theorem pushWord_sp_and_slot {s u : State} {v : Word} (hpush : pushWord v s = some u)
    (hslot : Apart (s.reg .sp - 2#16) (regAddr s.params .sp)) :
    u.reg .sp = s.reg .sp - 2#16 ∧ u.peekWord (u.reg .sp) = v := by
  obtain ⟨-, rfl⟩ := pushWord_cases s hpush
  have hsp : (memWriteWord (s.reg .sp - 2#16) v (s.setReg .sp (s.reg .sp - 2#16))).reg .sp = s.reg .sp - 2#16 :=
    (reg_memWriteWord_apart (s.setReg .sp _) hslot.symm).trans (reg_setReg s .sp _)
  exact ⟨hsp, by rw [hsp, peekWord_memWriteWord]⟩

/-- Settles O11: the laws of `PushWord` and `PopWord`, then a pop from the slot that the push left. -/
theorem popUndoesPush : Obligations.PopUndoesPush := by
  refine ⟨fun s v => ⟨pushWord_eq_none_iff s v, pushWord_of_limit_le s, sub_two_toNat_of_lt, popWord_fst s, popWord_snd s⟩, ?_⟩
  intro s u v hpush hslot
  obtain ⟨hsp, hword⟩ := pushWord_sp_and_slot hpush hslot
  have hrestored : (popWord u).2.reg .sp = s.reg .sp := by
    rw [popWord_snd, reg_setReg, hsp, BitVec.sub_add_cancel]
  exact ⟨hsp, hword, hword, hrestored⟩

end Sys2Proof.Machine
end

section
/-! The decoder against the opcode map: the encoding of a decoded instruction is the word it was decoded from (R84, R93), the rows
of the map exclude each other and the words the decoder rejects (R93, R96), and byte instructions are those of R85. -/

namespace Sys2Proof

variable {ir : Word}

/-! ## Fields as numbers (R81) -/

theorem topBit_eq_decide (ir : Word) : topBit ir = decide (32768 ≤ ir.toNat) := BitVec.msb_eq_decide ir

theorem f1_toNat (ir : Word) : (f1 ir).toNat = ir.toNat / 8 % 8 := by simp [f1, Nat.shiftRight_eq_div_pow]
theorem f2_toNat (ir : Word) : (f2 ir).toNat = ir.toNat / 64 % 8 := by simp [f2, Nat.shiftRight_eq_div_pow]
theorem f3_toNat (ir : Word) : (f3 ir).toNat = ir.toNat / 512 % 8 := by simp [f3, Nat.shiftRight_eq_div_pow]
theorem f4_toNat (ir : Word) : (f4 ir).toNat = ir.toNat / 4096 % 8 := by simp [f4, Nat.shiftRight_eq_div_pow]

/-- Bit 8, which tells the two branches of a pair apart, is the top bit of `f2` (R84). -/
theorem bit8_eq_decide (ir : Word) : ir.getLsbD 8 = decide (4 ≤ (f2 ir).toNat) := by
  rw [BitVec.getLsbD, Nat.testBit_eq_decide_div_mod_eq, f2_toNat, decide_eq_decide]
  omega

/-- The high byte of a word from its fields. -/
theorem toNat_div_256 (ir : Word) :
    ir.toNat / 256 = 128 * (topBit ir).toNat + 16 * (f4 ir).toNat + 2 * (f3 ir).toNat + (f2 ir).toNat / 4 := by
  have hlt := ir.isLt
  rw [topBit_eq_decide, f4_toNat, f3_toNat, f2_toNat]
  by_cases htop : 32768 ≤ ir.toNat
  · simp only [htop, decide_true, Bool.toNat_true]
    omega
  · simp only [htop, decide_false, Bool.toNat_false]
    omega

/-! ## A word is its format with its own operands, one lemma per format (R83) -/

theorem wordOfFields_of_fields {t : BitVec 1} {b4 b3 b2 b1 b0 : BitVec 3} (ht : topBit ir = t.getLsbD 0) (h4 : f4 ir = b4)
    (h3 : f3 ir = b3) (h2 : f2 ir = b2) (h1 : f1 ir = b1) (h0 : f0 ir = b0) : wordOfFields t b4 b3 b2 b1 b0 = ir := by
  have ht' : ir.extractLsb' 15 1 = t := by
    apply BitVec.eq_of_getLsbD_eq
    intro i hi
    obtain rfl : i = 0 := by omega
    simpa [topBit] using ht
  rw [← ht', ← h4, ← h3, ← h2, ← h1, ← h0, wordOfFields_fields]

theorem formatD_of_fields {t : BitVec 1} {op : BitVec 3} (ht : topBit ir = t.getLsbD 0) (h4 : (f4 ir).toNat = op.toNat) :
    formatD t op (srcSpecifier ir) (dstSpecifier ir) = ir :=
  wordOfFields_of_fields ht (BitVec.eq_of_toNat_eq h4) (by simp [srcSpecifier]) (by simp [srcSpecifier])
    (by simp [dstSpecifier]) (by simp [dstSpecifier])

theorem formatS_of_fields {t : BitVec 1} {op : BitVec 3} (ht : topBit ir = t.getLsbD 0) (h4 : (f4 ir).toNat = 0)
    (h3 : (f3 ir).toNat = 5) (h2 : (f2 ir).toNat = op.toNat) : formatS t op (dstSpecifier ir) = ir :=
  wordOfFields_of_fields ht (BitVec.eq_of_toNat_eq h4) (BitVec.eq_of_toNat_eq h3) (BitVec.eq_of_toNat_eq h2)
    (by simp [dstSpecifier]) (by simp [dstSpecifier])

theorem formatS'_of_fields {op : BitVec 3} (ht : topBit ir = false) (h4 : (f4 ir).toNat = 0)
    (h3 : (f3 ir).toNat = 0) (h2 : (f2 ir).toNat = op.toNat) : formatS' op (dstSpecifier ir) = ir :=
  wordOfFields_of_fields ht (BitVec.eq_of_toNat_eq h4) (BitVec.eq_of_toNat_eq h3) (BitVec.eq_of_toNat_eq h2)
    (by simp [dstSpecifier]) (by simp [dstSpecifier])

theorem formatJ_of_fields (ht : topBit ir = false) (h4 : (f4 ir).toNat = 0) (h3 : (f3 ir).toNat = 4) :
    formatJ (Reg.ofBits (f2 ir)) (dstSpecifier ir) = ir :=
  wordOfFields_of_fields ht (BitVec.eq_of_toNat_eq h4) (BitVec.eq_of_toNat_eq h3) (by simp)
    (by simp [dstSpecifier]) (by simp [dstSpecifier])

theorem formatT_of_fields (ht : topBit ir = false) (h4 : (f4 ir).toNat = 0) (h3 : (f3 ir).toNat = 0) (h2 : (f2 ir).toNat = 2)
    (h1 : f1 ir = 0) : formatT (Reg.ofBits (f0 ir)) = ir :=
  wordOfFields_of_fields ht (BitVec.eq_of_toNat_eq h4) (BitVec.eq_of_toNat_eq h3) (BitVec.eq_of_toNat_eq h2) h1 (by simp)

theorem formatB_toNat (op off : BitVec 8) : (formatB op off).toNat = 256 * op.toNat + off.toNat := by
  rw [formatB, BitVec.toNat_append, ← Nat.shiftLeft_add_eq_or_of_lt off.isLt, Nat.shiftLeft_eq, Nat.mul_comm]

theorem formatB_of_fields {op : BitVec 8} {t : Bool} {k b : Nat} (ht : topBit ir = t) (h4 : (f4 ir).toNat = 0)
    (h3 : (f3 ir).toNat = k) (h2 : (f2 ir).toNat / 4 = b) (hop : op.toNat = 128 * t.toNat + 2 * k + b) :
    formatB op (branchOffset ir) = ir := by
  have hhigh : ir.toNat / 256 = op.toNat := by
    rw [toNat_div_256, ht, h4, h3, h2, hop]
    omega
  apply BitVec.eq_of_toNat_eq
  rw [formatB_toNat, ← hhigh, branchOffset, BitVec.extractLsb'_toNat, Nat.shiftRight_zero, Nat.div_add_mod]

/-! ## The encoding of what is decoded is the word itself, level by level of the decoder (R84, R93) -/

theorem encodeWord_of_decodeReturnOrFlags {i : Instr} (h : decodeReturnOrFlags ir = .instr i) (ht : topBit ir = false)
    (h4 : (f4 ir).toNat = 0) (h3 : (f3 ir).toNat = 0) (h2 : (f2 ir).toNat = 2) : encodeWord i = ir := by
  unfold decodeReturnOrFlags at h
  split at h
  next h1 =>
    cases h
    exact formatT_of_fields ht h4 h3 h2 h1
  next =>
    repeat' split at h
    all_goals cases h
    all_goals exact Eq.symm ‹_›

theorem encodeWord_of_decodeControl {i : Instr} (h : decodeControl ir = .instr i) (ht : topBit ir = false)
    (h4 : (f4 ir).toNat = 0) (h3 : (f3 ir).toNat = 0) : encodeWord i = ir := by
  unfold decodeControl at h
  split at h
  next =>
    repeat' split at h
    all_goals cases h
    all_goals exact Eq.symm ‹_›
  next h2 =>
    cases h
    exact formatS'_of_fields ht h4 h3 h2
  next h2 => exact encodeWord_of_decodeReturnOrFlags h ht h4 h3 h2
  next h2 =>
    cases h
    exact formatS'_of_fields ht h4 h3 h2
  next =>
    have hlt : (f2 ir).toNat < 8 := (f2 ir).isLt
    have hbit : (f2 ir).toNat / 4 = 1 := by grind
    cases h
    exact formatB_of_fields ht h4 h3 hbit rfl

/-- A pair of branches is encoded with an even opcode byte and the next one (R236). -/
theorem encodeWord_of_branchPair {first second : BitVec 8 → Instr} {i : Instr} {op : BitVec 8} {t : Bool} {k : Nat}
    (h : branchPair first second ir = .instr i) (ht : topBit ir = t) (h4 : (f4 ir).toNat = 0) (h3 : (f3 ir).toNat = k)
    (hop : op.toNat = 128 * t.toNat + 2 * k) (hfirst : ∀ off, encodeWord (first off) = formatB op off)
    (hsecond : ∀ off, encodeWord (second off) = formatB (op + 1#8) off) : encodeWord i = ir := by
  have hlt : (f2 ir).toNat < 8 := (f2 ir).isLt
  have hnext : (op + 1#8).toNat = op.toNat + 1 := by
    rw [BitVec.toNat_add, BitVec.toNat_ofNat]
    omega
  cases h
  rw [bit8_eq_decide]
  by_cases hbit : 4 ≤ (f2 ir).toNat
  · rw [decide_eq_true hbit, if_pos rfl, hsecond]
    exact formatB_of_fields ht h4 h3 (b := 1) (by omega) (by omega)
  · rw [decide_eq_false hbit, if_neg Bool.false_ne_true, hfirst]
    exact formatB_of_fields ht h4 h3 (b := 0) (by omega) (by omega)

theorem encodeWord_of_decodeSingle {i : Instr} (h : decodeSingle ir = .instr i) (h4 : (f4 ir).toNat = 0)
    (h3 : (f3 ir).toNat = 5) : encodeWord i = ir := by
  have hlt : (f2 ir).toNat < 8 := (f2 ir).isLt
  unfold decodeSingle at h
  dsimp only at h
  split at h <;> cases h
  case h_15 | h_16 => -- TST and TSTB
    have h2 : (f2 ir).toNat = 7 := by grind
    exact formatS_of_fields ‹_› h4 h3 h2
  all_goals exact formatS_of_fields ‹_› h4 h3 ‹_›

theorem encodeWord_of_decodeClassZero {i : Instr} (h : decodeClassZero ir = .instr i) (h4 : (f4 ir).toNat = 0) :
    encodeWord i = ir := by
  unfold decodeClassZero at h
  split at h
  next h3 ht => exact encodeWord_of_decodeControl h ht h4 h3
  case h_9 h3 ht => -- JSR
    cases h
    exact formatJ_of_fields ht h4 h3
  case h_11 h3 => exact encodeWord_of_decodeSingle h h4 h3
  case h_10 | h_12 => cases h -- rejected: the trap and shift spaces
  all_goals exact encodeWord_of_branchPair h ‹_› h4 ‹_› rfl (fun _ => rfl) (fun _ => rfl)

/-- The encoding of the instruction a word decodes to is the word (R93). -/
theorem encodeWord_of_decodeWord {i : Instr} (h : decodeWord ir = .instr i) : encodeWord i = ir := by
  unfold decodeWord at h
  dsimp only at h
  split at h
  next h4 => exact encodeWord_of_decodeClassZero h h4
  all_goals cases h
  all_goals exact formatD_of_fields ‹_› ‹_›

/-! ## The rows of the opcode map (R93) -/

theorem opcodeRow_mem_opcodeMap (i : Instr) : i.opcodeRow ∈ opcodeMap := by
  cases i <;> exact List.mem_of_elem_eq_true rfl

open Laws.Encodes in
theorem encodeWord_selects_opcodeRow : ∀ i : Instr, i.opcodeRow.selects (encodeWord i) = true
  | .mov s d => mov s d | .movb s d => movb s d | .cmp s d => cmp s d | .cmpb s d => cmpb s d
  | .bit s d => bit s d | .bitb s d => bitb s d | .bic s d => bic s d | .bicb s d => bicb s d
  | .bis s d => bis s d | .bisb s d => bisb s d | .add s d => add s d | .sub s d => sub s d
  | .clr d => clr d | .clrb d => clrb d | .com d => com d | .comb d => comb d | .inc d => inc d | .incb d => incb d
  | .dec d => dec d | .decb d => decb d | .neg d => neg d | .negb d => negb d | .adc d => adc d | .adcb d => adcb d
  | .sbc d => sbc d | .sbcb d => sbcb d | .tst d => tst d | .tstb d => tstb d | .swab d => swab d
  | .clc => clc | .clv => clv | .clz => clz | .cln => cln | .sec => sec | .sev => sev | .sez => sez | .sen => sen
  | .br off => br off | .bne off => bne off | .beq off => beq off | .bge off => bge off | .blt off => blt off
  | .bgt off => bgt off | .ble off => ble off | .bpl off => bpl off | .bmi off => bmi off | .bhi off => bhi off
  | .blos off => blos off | .bvc off => bvc off | .bvs off => bvs off | .bcc off => bcc off | .bcs off => bcs off
  | .jmp d => jmp d | .jsr r d => jsr r d | .rts r => rts r | .halt => halt | .wait => wait | .reset => reset

theorem decodeWord_selects_opcodeRow {i : Instr} (h : decodeWord ir = .instr i) :
    ir &&& i.opcodeRow.mask = i.opcodeRow.pattern := by
  have hsel := beq_iff_eq.mp (encodeWord_selects_opcodeRow i)
  rwa [encodeWord_of_decodeWord h] at hsel

theorem opcodeMap_disjoint : ∀ r₁ ∈ opcodeMap, ∀ r₂ ∈ opcodeMap,
    r₁.pattern &&& r₂.mask = r₂.pattern &&& r₁.mask → r₁ = r₂ := by decide +kernel

/-- A word selects at most one row: two selected rows ask the same of the bits that both fix. -/
theorem selected_row_unique {r₁ r₂ : OpcodeRow} (m₁ : r₁ ∈ opcodeMap) (m₂ : r₂ ∈ opcodeMap)
    (h₁ : ir &&& r₁.mask = r₁.pattern) (h₂ : ir &&& r₂.mask = r₂.pattern) : r₁ = r₂ := by
  apply opcodeMap_disjoint r₁ m₁ r₂ m₂
  rw [← h₁, ← h₂, BitVec.and_assoc, BitVec.and_assoc, BitVec.and_comm r₁.mask]

/-- What a row asks of a word, it asks of each field. -/
theorem fields_of_selects {row : OpcodeRow} (h : ir &&& row.mask = row.pattern) :
    (topBit ir && topBit row.mask) = topBit row.pattern ∧ f4 ir &&& f4 row.mask = f4 row.pattern ∧
    f3 ir &&& f3 row.mask = f3 row.pattern ∧ f2 ir &&& f2 row.mask = f2 row.pattern ∧
    f1 ir &&& f1 row.mask = f1 row.pattern := by
  rw [← h]
  simp [topBit, f4, f3, f2, f1, BitVec.extractLsb'_and]

/-- A row that fixes a whole field has its value in the pattern. -/
theorem field_of_full_mask {x m p : BitVec 3} (h : x &&& m = p) (hm : m = 7) : x = p := by
  rw [← h, hm]
  exact (field_and_seven x).symm

/-! ## The words the decoder rejects (R84, R96) -/

/-- The three words of the control space that are instructions (R93). -/
def controlWords : List Word := [0o000000, 0o000001, 0o000005]

/-- The eight condition-code words (R93). -/
def conditionCodeWords : List Word :=
  [0o000241, 0o000242, 0o000244, 0o000250, 0o000261, 0o000262, 0o000264, 0o000270]

/-- Where each rejection lies, by the fields of the word. -/
def Reject.Region : Reject → Word → Prop
  | .controlSpace, ir =>
    topBit ir = false ∧ (f4 ir).toNat = 0 ∧ (f3 ir).toNat = 0 ∧ (f2 ir).toNat = 0 ∧ ir ∉ controlWords
  | .conditionCodeSpace, ir =>
    topBit ir = false ∧ (f4 ir).toNat = 0 ∧ (f3 ir).toNat = 0 ∧ (f2 ir).toNat = 2 ∧ f1 ir ≠ 0 ∧ ir ∉ conditionCodeWords
  | .trapSpace, ir => topBit ir = true ∧ (f4 ir).toNat = 0 ∧ (f3 ir).toNat = 4
  | .shiftSpace, ir => (f4 ir).toNat = 0 ∧ 6 ≤ (f3 ir).toNat
  | .extendedSpace, ir => (f4 ir).toNat = 7
  | .truncated, _ => False

theorem region_of_decodeReturnOrFlags {why : Reject} (h : decodeReturnOrFlags ir = .reject why) (ht : topBit ir = false)
    (h4 : (f4 ir).toNat = 0) (h3 : (f3 ir).toNat = 0) (h2 : (f2 ir).toNat = 2) : why.Region ir := by
  unfold decodeReturnOrFlags at h
  split at h
  next => cases h
  next h1 =>
    repeat' split at h
    all_goals cases h
    refine ⟨ht, h4, h3, h2, h1, ?_⟩
    simp only [conditionCodeWords, List.mem_cons, List.not_mem_nil, or_false, not_or]
    and_intros <;> assumption

theorem region_of_decodeControl {why : Reject} (h : decodeControl ir = .reject why) (ht : topBit ir = false)
    (h4 : (f4 ir).toNat = 0) (h3 : (f3 ir).toNat = 0) : why.Region ir := by
  unfold decodeControl at h
  split at h
  next h2 =>
    repeat' split at h
    all_goals cases h
    refine ⟨ht, h4, h3, h2, ?_⟩
    simp only [controlWords, List.mem_cons, List.not_mem_nil, or_false, not_or]
    and_intros <;> assumption
  case h_3 h2 => exact region_of_decodeReturnOrFlags h ht h4 h3 h2
  all_goals cases h

theorem decodeSingle_ne_reject (ir : Word) (why : Reject) : decodeSingle ir ≠ .reject why := by
  unfold decodeSingle
  split <;> exact Decoded.noConfusion

theorem region_of_decodeClassZero {why : Reject} (h : decodeClassZero ir = .reject why) (h4 : (f4 ir).toNat = 0) :
    why.Region ir := by
  have hlt : (f3 ir).toNat < 8 := (f3 ir).isLt
  unfold decodeClassZero at h
  split at h
  next h3 ht => exact region_of_decodeControl h ht h4 h3
  case h_10 h3 ht => -- the trap space
    cases h
    exact ⟨ht, h4, h3⟩
  case h_11 => exact absurd h (decodeSingle_ne_reject ir why)
  case h_12 => -- the shift space
    cases h
    exact ⟨h4, by grind⟩
  all_goals cases h

theorem region_of_decodeWord {why : Reject} (h : decodeWord ir = .reject why) : why.Region ir := by
  have hlt : (f4 ir).toNat < 8 := (f4 ir).isLt
  unfold decodeWord at h
  dsimp only at h
  split at h
  next h4 => exact region_of_decodeClassZero h h4
  all_goals cases h
  change (f4 ir).toNat = 7
  grind

theorem decodeWord_of_region {why : Reject} (h : why.Region ir) : decodeWord ir = .reject why := by
  cases why
  case controlSpace =>
    obtain ⟨ht, h4, h3, h2, hne⟩ := h
    simp only [controlWords, List.mem_cons, List.not_mem_nil, or_false, not_or, BitVec.ofNat_eq_ofNat] at hne
    simp [decodeWord, decodeClassZero, decodeControl, ht, h4, h3, h2, hne]
  case conditionCodeSpace =>
    obtain ⟨ht, h4, h3, h2, h1, hne⟩ := h
    simp only [conditionCodeWords, List.mem_cons, List.not_mem_nil, or_false, not_or, BitVec.ofNat_eq_ofNat] at h1 hne
    simp [decodeWord, decodeClassZero, decodeControl, decodeReturnOrFlags, ht, h4, h3, h2, h1, hne]
  case trapSpace =>
    obtain ⟨ht, h4, h3⟩ := h
    simp [decodeWord, decodeClassZero, ht, h4, h3]
  case shiftSpace =>
    obtain ⟨h4, h3⟩ := h
    have hlt : (f3 ir).toNat < 8 := (f3 ir).isLt
    obtain h3 | h3 : (f3 ir).toNat = 6 ∨ (f3 ir).toNat = 7 := by omega
    · simp [decodeWord, decodeClassZero, h4, h3]
    · simp [decodeWord, decodeClassZero, h4, h3]
  case extendedSpace =>
    have h4 : (f4 ir).toNat = 7 := h
    simp [decodeWord, h4]
  case truncated => exact h.elim

theorem decodeWord_reject_iff {why : Reject} : decodeWord ir = .reject why ↔ why.Region ir :=
  ⟨region_of_decodeWord, decodeWord_of_region⟩

theorem Reject.exists_iff {p : Reject → Prop} : (∃ why, p why) ↔
    p .controlSpace ∨ p .conditionCodeSpace ∨ p .trapSpace ∨ p .shiftSpace ∨ p .extendedSpace ∨ p .truncated := by
  constructor
  · rintro ⟨why, h⟩
    cases why <;> simp [h]
  · rintro (h | h | h | h | h | h) <;> exact ⟨_, h⟩

/-! ## No row selects a rejected word (R93, R96) -/

theorem rows_in_controlSpace : ∀ row ∈ opcodeMap, (false && topBit row.mask) = topBit row.pattern →
    0 &&& f4 row.mask = f4 row.pattern → 0 &&& f3 row.mask = f3 row.pattern → 0 &&& f2 row.mask = f2 row.pattern →
    row.mask = 0xFFFF ∧ row.pattern ∈ controlWords := by decide +kernel

/-- The rows between 000200 and 000277 are RTS and the condition-code words. -/
theorem rows_in_conditionCodeSpace : ∀ row ∈ opcodeMap, (false && topBit row.mask) = topBit row.pattern →
    0 &&& f4 row.mask = f4 row.pattern → 0 &&& f3 row.mask = f3 row.pattern → 2 &&& f2 row.mask = f2 row.pattern →
    (f1 row.mask = 7 ∧ f1 row.pattern = 0) ∨ (row.mask = 0xFFFF ∧ row.pattern ∈ conditionCodeWords) := by decide +kernel

theorem no_row_in_trapSpace : ∀ row ∈ opcodeMap, (true && topBit row.mask) = topBit row.pattern →
    0 &&& f4 row.mask = f4 row.pattern → 4 &&& f3 row.mask ≠ f3 row.pattern := by decide +kernel

theorem no_row_in_shiftSpace : ∀ row ∈ opcodeMap, ∀ b3 : BitVec 3, 6 ≤ b3.toNat →
    0 &&& f4 row.mask = f4 row.pattern → b3 &&& f3 row.mask ≠ f3 row.pattern := by decide +kernel

theorem no_row_in_extendedSpace : ∀ row ∈ opcodeMap, 7 &&& f4 row.mask ≠ f4 row.pattern := by decide +kernel

theorem Reject.Region.not_selects {why : Reject} (h : why.Region ir) {row : OpcodeRow} (hrow : row ∈ opcodeMap) :
    ir &&& row.mask ≠ row.pattern := by
  intro hsel
  obtain ⟨st, s4, s3, s2, s1⟩ := fields_of_selects hsel
  have single_word : row.mask = 0xFFFF → ir = row.pattern := fun hmask => by
    rw [← hsel, hmask]
    exact BitVec.and_allOnes.symm
  cases why
  case controlSpace =>
    obtain ⟨ht, h4, h3, h2, hne⟩ := h
    rw [ht] at st
    rw [BitVec.eq_of_toNat_eq (y := 0) h4] at s4
    rw [BitVec.eq_of_toNat_eq (y := 0) h3] at s3
    rw [BitVec.eq_of_toNat_eq (y := 0) h2] at s2
    obtain ⟨hmask, hmem⟩ := rows_in_controlSpace row hrow st s4 s3 s2
    exact hne (single_word hmask ▸ hmem)
  case conditionCodeSpace =>
    obtain ⟨ht, h4, h3, h2, h1, hne⟩ := h
    rw [ht] at st
    rw [BitVec.eq_of_toNat_eq (y := 0) h4] at s4
    rw [BitVec.eq_of_toNat_eq (y := 0) h3] at s3
    rw [BitVec.eq_of_toNat_eq (y := 2) h2] at s2
    obtain ⟨hmask, hzero⟩ | ⟨hmask, hmem⟩ := rows_in_conditionCodeSpace row hrow st s4 s3 s2
    · exact h1 ((field_of_full_mask s1 hmask).trans hzero)
    · exact hne (single_word hmask ▸ hmem)
  case trapSpace =>
    obtain ⟨ht, h4, h3⟩ := h
    rw [ht] at st
    rw [BitVec.eq_of_toNat_eq (y := 0) h4] at s4
    rw [BitVec.eq_of_toNat_eq (y := 4) h3] at s3
    exact no_row_in_trapSpace row hrow st s4 s3
  case shiftSpace =>
    obtain ⟨h4, h3⟩ := h
    rw [BitVec.eq_of_toNat_eq (y := 0) h4] at s4
    exact no_row_in_shiftSpace row hrow _ h3 s4 s3
  case extendedSpace =>
    rw [BitVec.eq_of_toNat_eq (y := 7) h] at s4
    exact no_row_in_extendedSpace row hrow s4
  case truncated => exact h

/-- A word that selects a row decodes to an instruction of that row. -/
theorem exists_decodeWord_of_selects {row : OpcodeRow} (hrow : row ∈ opcodeMap) (h : ir &&& row.mask = row.pattern) :
    ∃ i, decodeWord ir = .instr i ∧ i.opcodeRow = row := by
  cases hd : decodeWord ir with
  | reject why => exact absurd h ((region_of_decodeWord hd).not_selects hrow)
  | instr i =>
    exact ⟨i, rfl, selected_row_unique (opcodeRow_mem_opcodeMap i) hrow (decodeWord_selects_opcodeRow hd) h⟩

/-! ## Byte instructions (R85) -/

/-- The word has `t` = 1 and is of the double-operand class with `f4` in 1..5 or of the single-operand class (R85). -/
def isByteWord (w : Word) : Bool :=
  topBit w && (decide (1 ≤ (f4 w).toNat) && decide ((f4 w).toNat ≤ 5) || f4 w == 0 && f3 w == 5)

theorem isByteWord_iff (w : Word) : isByteWord w = true ↔
    topBit w = true ∧ ((1 ≤ (f4 w).toNat ∧ (f4 w).toNat ≤ 5) ∨ (f4 w = 0 ∧ f3 w = 5)) := by
  simp only [isByteWord, Bool.and_eq_true, Bool.or_eq_true, decide_eq_true_iff, beq_iff_eq]

theorem isByte_eq_isByteWord_pattern (i : Instr) : i.isByte = isByteWord i.opcodeRow.pattern := by
  cases i <;> simp only [Instr.isByte, Instr.opcodeRow] <;> decide

/-- Every row fixes `t` and `f4`, and `f3` where `f4` = 0. -/
theorem opcodeMap_masks : ∀ row ∈ opcodeMap,
    topBit row.mask = true ∧ f4 row.mask = 7 ∧ (f4 row.pattern = 0 → f3 row.mask = 7) := by decide +kernel

/-- So the words of a row are byte words where its pattern is. -/
theorem isByteWord_of_selects {row : OpcodeRow} (hrow : row ∈ opcodeMap) (h : ir &&& row.mask = row.pattern) :
    isByteWord ir = isByteWord row.pattern := by
  obtain ⟨mt, m4, m3⟩ := opcodeMap_masks row hrow
  obtain ⟨st, s4, s3, -, -⟩ := fields_of_selects h
  have et : topBit ir = topBit row.pattern := by rw [← st, mt, Bool.and_true]
  have e4 : f4 ir = f4 row.pattern := field_of_full_mask s4 m4
  unfold isByteWord
  rw [et, e4]
  by_cases hzero : f4 row.pattern = 0
  · rw [field_of_full_mask s3 (m3 hzero)]
  · rw [beq_false_of_ne hzero, Bool.false_and, Bool.false_and]

theorem isByte_eq_isByteWord {i : Instr} (h : decodeWord ir = .instr i) : i.isByte = isByteWord ir := by
  rw [isByte_eq_isByteWord_pattern, isByteWord_of_selects (opcodeRow_mem_opcodeMap i) (decodeWord_selects_opcodeRow h)]

/-- Setting bit 15 sets `t`. -/
theorem wordOfFields_or_top (b4 b3 b2 b1 b0 : BitVec 3) :
    wordOfFields 1 b4 b3 b2 b1 b0 = wordOfFields 0 b4 b3 b2 b1 b0 ||| 0x8000#16 := by
  apply BitVec.eq_of_getLsbD_eq
  intro i hi
  rw [show 0x8000#16 = wordOfFields 1 0 0 0 0 0 from rfl]
  simp only [BitVec.getLsbD_or, getLsbD_wordOfFields]
  grind

/-! ## JMP and JSR with a register-direct operand (R98) -/

theorem decodeWord_jmp_register_iff (ir : Word) :
    (0o000100 ≤ ir.toNat ∧ ir.toNat ≤ 0o000107) ↔ ∃ q, decodeWord ir = .instr (.jmp ⟨.register, q⟩) := by
  constructor
  · rintro ⟨hlo, hhi⟩
    have ht : topBit ir = false := by rw [topBit_eq_decide, decide_eq_false_iff_not]; omega
    have h4 : (f4 ir).toNat = 0 := by rw [f4_toNat]; omega
    have h3 : (f3 ir).toNat = 0 := by rw [f3_toNat]; omega
    have h2 : (f2 ir).toNat = 1 := by rw [f2_toNat]; omega
    have h1 : (f1 ir).toNat = 0 := by rw [f1_toNat]; omega
    refine ⟨Reg.ofBits (f0 ir), ?_⟩
    simp [decodeWord, decodeClassZero, decodeControl, dstSpecifier, Mode.ofBits, ht, h4, h3, h2, h1]
  · rintro ⟨q, h⟩
    rw [← encodeWord_of_decodeWord h]
    cases q <;> decide

theorem formatJ_register_masked (r q : Reg) : formatJ r ⟨.register, q⟩ &&& 0xFE38#16 = 0x0800#16 := by
  rw [show 0xFE38#16 = wordOfFields 1 7 7 0 7 0 from rfl, formatJ, wordOfFields_and]
  simp only [BitVec.ofNat_eq_ofNat, BitVec.and_zero]
  rfl

theorem decodeWord_jsr_register_iff (ir : Word) :
    ir &&& 0xFE38 = 0x0800 ↔ ∃ r q, decodeWord ir = .instr (.jsr r ⟨.register, q⟩) := by
  constructor
  · intro hsel
    obtain ⟨st, s4, s3, -, s1⟩ := fields_of_selects (row := ⟨0x0800, 0xFE38⟩) hsel
    have ht : topBit ir = false := (Bool.and_true _).symm.trans st
    have h4 : f4 ir = 0 := field_of_full_mask s4 rfl
    have h3 : f3 ir = 4 := field_of_full_mask s3 rfl
    have h1 : f1 ir = 0 := field_of_full_mask s1 rfl
    refine ⟨Reg.ofBits (f2 ir), Reg.ofBits (f0 ir), ?_⟩
    simp [decodeWord, decodeClassZero, dstSpecifier, Mode.ofBits, ht, h4, h3, h1]
  · rintro ⟨r, q, h⟩
    rw [← encodeWord_of_decodeWord h]
    exact formatJ_register_masked r q

end Sys2Proof
end

section
/-! The statements on the encoding (R85, R93, R96, R98): what the decoder's laws say of a step and of `BYTEMODE`. -/

namespace Sys2Proof.Machine

/-- Settles O3: a decoded word is its own encoding, and a word that selects a row is not rejected and selects no second row. -/
theorem decoderFollowsTheOpcodeMap : Obligations.DecoderFollowsTheOpcodeMap :=
  ⟨rfl, fun _ => ⟨fun i h => ⟨opcodeRow_mem_opcodeMap i, decodeWord_selects_opcodeRow h, encodeWord_of_decodeWord h⟩,
    fun _ hrow hsel => exists_decodeWord_of_selects hrow hsel⟩⟩

/-! ## Illegal words (R96, R254) -/

/-- The regions of the decoder cover the ranges of R96, field by field as numbers. -/
theorem exists_region_iff_illegalRanges (ir : Word) :
    (∃ why : Reject, why.Region ir) ↔ ∃ range ∈ illegalRanges, range.1 ≤ ir.toNat ∧ ir.toNat ≤ range.2 := by
  have hlt := ir.isLt
  simp only [Reject.exists_iff, Reject.Region, controlWords, conditionCodeWords, illegalRanges, topBit_eq_decide, f4_toNat,
    f3_toNat, f2_toNat, f1_toNat, ne_eq, ← BitVec.toNat_inj, decide_eq_true_eq, decide_eq_false_iff_not, List.cons_append,
    List.nil_append, List.mem_cons, List.not_mem_nil, or_false, not_or, exists_eq_or_imp, exists_eq_left, BitVec.toNat_ofNat,
    BitVec.ofNat_eq_ofNat]
  constructor
  · omega
  · rintro (h | h | h | h | h | h | h | h | h | h | h | h | h | h | h | h | h | h) <;> omega

theorem exists_reject_iff_illegalRanges (ir : Word) :
    (∃ why, decodeWord ir = .reject why) ↔ ∃ range ∈ illegalRanges, range.1 ≤ ir.toNat ∧ ir.toNat ≤ range.2 := by
  simp only [decodeWord_reject_iff, exists_region_iff_illegalRanges]

/-- A step that fetches a rejected word is the fetch and the fault (R254). -/
theorem step_of_reject {s : State} {why : Reject} (hrun : s.status.terminal = false)
    (h : decodeWord (s.peekWord (s.reg .pc)) = .reject why) :
    step s = endOutcome (illegalInstruction (fetchInstruction s).2) := by
  have hir : decodeWord (fetchInstruction s).1 = .reject why := h
  simp only [step, hrun, Bool.false_eq_true, if_false, decodeAndExecute, hir]

/-- Settles O4: the decoder rejects by regions, which are the listed ranges, and a rejected word raises the fault. -/
theorem illegalWordsAreTheListedRanges : Obligations.IllegalWordsAreTheListedRanges := by
  refine fun ir => ⟨exists_reject_iff_illegalRanges ir, fun s hrun hir hrej => ?_⟩
  obtain ⟨why, hwhy⟩ := hrej
  exact ⟨_, step_of_reject hrun (hir ▸ hwhy), rfl⟩

/-- Settles O5: the words by their fields, the fault by the first test of each meaning. -/
theorem registerDirectJumpsAreIllegal : Obligations.RegisterDirectJumpsAreIllegal :=
  ⟨decodeWord_jmp_register_iff, decodeWord_jsr_register_iff, fun _ _ _ => ⟨rfl, rfl⟩⟩

/-! ## `BYTEMODE` after each order of an instruction: as decode left it (R33, R142) -/

section byteMode

variable {s t : State} {b : Bool} {src dst : Specifier}

@[simp] theorem opWriteWord_byteMode (a v : Word) : (opWriteWord a v s).byteMode = s.byteMode := memWriteWord_byteMode s a v

theorem complete_byteMode (h : complete s = .next t) (hb : s.byteMode = b) : t.byteMode = b := by
  cases h
  exact hb

theorem moveWord_byteMode (h : moveWord src dst s = .next t) (hb : s.byteMode = b) : t.byteMode = b :=
  complete_byteMode h (by simpa)

theorem moveByte_byteMode (h : moveByte src dst s = .next t) (hb : s.byteMode = b) : t.byteMode = b :=
  complete_byteMode h (by simpa)

theorem compareWord_byteMode {cc : Word → Word → FlagUpdate} (h : compareWord cc src dst s = .next t) (hb : s.byteMode = b) :
    t.byteMode = b := complete_byteMode h (by simpa)

theorem compareByte_byteMode {cc : Byte → Byte → FlagUpdate} (h : compareByte cc src dst s = .next t) (hb : s.byteMode = b) :
    t.byteMode = b := complete_byteMode h (by simpa)

theorem binaryWord_byteMode {op : Word → Word → Word × FlagUpdate} (h : binaryWord op src dst s = .next t)
    (hb : s.byteMode = b) : t.byteMode = b := complete_byteMode h (by simpa)

theorem binaryByte_byteMode {op : Byte → Byte → Byte × FlagUpdate} (h : binaryByte op src dst s = .next t)
    (hb : s.byteMode = b) : t.byteMode = b := complete_byteMode h (by simpa)

theorem clearWord_byteMode (h : clearWord dst s = .next t) (hb : s.byteMode = b) : t.byteMode = b :=
  complete_byteMode h (by simpa)

theorem clearByte_byteMode (h : clearByte dst s = .next t) (hb : s.byteMode = b) : t.byteMode = b :=
  complete_byteMode h (by simpa)

theorem testWord_byteMode {cc : Word → FlagUpdate} (h : testWord cc dst s = .next t) (hb : s.byteMode = b) : t.byteMode = b :=
  complete_byteMode h (by simpa)

theorem testByte_byteMode {cc : Byte → FlagUpdate} (h : testByte cc dst s = .next t) (hb : s.byteMode = b) : t.byteMode = b :=
  complete_byteMode h (by simpa)

theorem unaryWord_byteMode {op : Word → Word × FlagUpdate} (h : unaryWord op dst s = .next t) (hb : s.byteMode = b) :
    t.byteMode = b := complete_byteMode h (by simpa)

theorem unaryByte_byteMode {op : Byte → Byte × FlagUpdate} (h : unaryByte op dst s = .next t) (hb : s.byteMode = b) :
    t.byteMode = b := complete_byteMode h (by simpa)

theorem branchIf_byteMode {cond : Flags → Bool} {off : BitVec 8} (h : branchIf cond off s = .next t) (hb : s.byteMode = b) :
    t.byteMode = b := by
  unfold branchIf at h
  split at h
  · exact complete_byteMode h hb
  · exact complete_byteMode h hb

theorem execJmp_byteMode (h : execJmp dst s = .next t) : t.byteMode = false := by
  unfold execJmp at h
  split at h
  · cases h
    rfl
  · exact complete_byteMode h (by simp)

theorem execJsr_byteMode {r : Reg} (h : execJsr r dst s = .next t) : t.byteMode = false := by
  unfold execJsr at h
  split at h
  · cases h
    rfl
  · dsimp only at h
    split at h
    next =>
      cases h
      exact resolve_byteMode (s.decoded false) dst
    next u hpush =>
      obtain ⟨-, rfl⟩ := pushWord_cases _ hpush
      exact complete_byteMode h (by simp)

theorem execRts_byteMode {r : Reg} (h : execRts r s = .next t) : t.byteMode = false :=
  complete_byteMode h (by simp [popWord])

/-- After an instruction `BYTEMODE` says whether it was a byte instruction (R33, R85, R142). -/
theorem exec_byteMode {i : Instr} (h : exec i s = .next t) : t.byteMode = i.isByte := by
  cases i
  case mov => exact moveWord_byteMode h rfl
  case movb => exact moveByte_byteMode h rfl
  case cmp | bit => exact compareWord_byteMode h rfl
  case cmpb | bitb => exact compareByte_byteMode h rfl
  case bic | bis | add | sub => exact binaryWord_byteMode h rfl
  case bicb | bisb => exact binaryByte_byteMode h rfl
  case clr => exact clearWord_byteMode h rfl
  case clrb => exact clearByte_byteMode h rfl
  case tst => exact testWord_byteMode h rfl
  case tstb => exact testByte_byteMode h rfl
  case com | inc | dec | neg | adc | sbc | swab => exact unaryWord_byteMode h rfl
  case comb | incb | decb | negb | adcb | sbcb => exact unaryByte_byteMode h rfl
  case clc | clv | clz | cln | sec | sev | sez | sen => exact complete_byteMode h rfl
  case br => exact branchIf_byteMode (s := s.decoded false) (cond := fun _ => true) h rfl
  case bne | beq | bge | blt | bgt | ble | bpl | bmi | bhi | blos | bvc | bvs | bcc | bcs => exact branchIf_byteMode h rfl
  case jmp => exact execJmp_byteMode h
  case jsr => exact execJsr_byteMode h
  case rts => exact execRts_byteMode h
  case halt | wait | reset =>
    cases h
    rfl

end byteMode

/-- Settles O6: by the row each word selects, by bit 15 of the two encodings, and by what each order leaves in `BYTEMODE`. -/
theorem byteInstructionsSetByteMode : Obligations.ByteInstructionsSetByteMode := by
  refine ⟨fun ir i h => ?_, fun src dst pair hpair => ?_, fun i s t h => exec_byteMode h⟩
  · rw [isByte_eq_isByteWord h, isByteWord_iff]
  · simp only [List.mem_cons, List.not_mem_nil, or_false] at hpair
    rcases hpair with rfl | rfl | rfl | rfl | rfl | rfl | rfl | rfl | rfl | rfl | rfl | rfl | rfl <;>
      exact wordOfFields_or_top _ _ _ _ _

end Sys2Proof.Machine
end

section
/-! The statements on operand access and the resolver: what an operand read and write do (R127, R128), and what each addressing
mode answers and leaves (R113 to R120). -/

namespace Sys2Proof.Machine

variable (s : State)

/-! ## Byte writes of operands with sign extension (R128) -/

/-- At a register-mapped address a sign-extending byte write is the word write of `sext_8(b)`; the read before it is silent. -/
theorem opWriteByte_sext_of_isReg {a : Word} (h : isReg s.params a = true) (b : Byte) :
    opWriteByte true a b s = memWriteWord a (sext8 b) s := by
  simp [opWriteByte, State.note, h]

/-- At any other address the sign extension plays no part. -/
theorem opWriteByte_of_not_isReg {a : Word} (h : isReg s.params a = false) (x : Bool) (b : Byte) :
    opWriteByte x a b s = memWriteByte a b s := by
  simp [opWriteByte, h]

theorem movbExtends_iff (d : Specifier) : movbExtends s d = true ↔ s.params.movbSext = true ∧ d.mode = .register := by
  simp [movbExtends]

/-- Settles O12: an operand read is a traced read, and a byte write one byte or, sign-extended into a register, one word. -/
theorem operandAccess : Obligations.OperandAccess := by
  intro s ea v b
  have hread : opReadByte ea s = (s.peek ea, s.note .read ea) := Prod.ext (opReadByte_fst s ea) (opReadByte_snd s ea)
  refine ⟨rfl, hread, rfl, fun c => peek_opWriteByte s ea c b, fun hreg => ?_, fun hmem c => ?_,
    fun x => opWriteByte_trace s x ea b, movbExtends_iff s⟩
  · rw [opWriteByte_sext_of_isReg s hreg]
    exact ⟨peekWord_memWriteWord s ea (sext8 b), fun c hc => peek_memWriteWord_outside s hc⟩
  · rw [opWriteByte_of_not_isReg s hmem]
    exact peek_memWriteByte s ea c b

/-! ## Events commute with register writes, which emit none (R23, R58) -/

theorem setReg_note (k : AccessKind) (a : Word) (r : Reg) (v : Word) :
    (s.note k a).setReg r v = (s.setReg r v).note k a := by
  unfold State.note
  rw [setReg_params]
  split <;> rfl

theorem advancePc_note (k : AccessKind) (a : Word) : advancePc (s.note k a) = (advancePc s).note k a := by
  rw [advancePc, note_reg, setReg_note, advancePc]

/-- The program counter is past one word, every other register as it was (R58). -/
theorem advancePc_reg (r : Reg) : (advancePc s).reg r = if r = .pc then s.reg .pc + 2#16 else s.reg r := by
  split
  next h => rw [h, advancePc_reg_pc]
  next h => exact advancePc_reg_ne s h

/-! ## The step size (R113) -/

theorem stepSize_autoincrement {m : Mode} (hm : m = .autoInc ∨ m = .autoIncDeferred) (r : Reg) (byte : Bool) :
    stepSize m r byte = if r = .sp ∨ r = .pc then 2 else if byte then 1 else 2 := by
  simp only [stepSize, hm, and_true]
  by_cases hsp : r = .sp
  · simp [hsp]
  · simp [hsp]

theorem stepSize_autodecrement {m : Mode} (hm : m = .autoDec ∨ m = .autoDecDeferred) (r : Reg) (byte : Bool) :
    stepSize m r byte = if r = .sp then 2 else if byte then 1 else 2 := by
  rcases hm with rfl | rfl <;> simp [stepSize]

/-! ## What a resolve answers and leaves, mode by mode (R114 to R120) -/

theorem resolve_register (r : Reg) : resolve ⟨.register, r⟩ s = (regAddr s.params r, s) := rfl

theorem resolve_deferred (r : Reg) : resolve ⟨.deferred, r⟩ s = (s.reg r, s) := rfl

/-- The register as modes 2 and 3 leave it (R113, R115). -/
def raisedReg (r : Reg) : Word := s.reg r + (if r = .sp ∨ r = .pc then 2 else if s.byteMode then 1 else 2)

theorem resolve_autoInc (r : Reg) : resolve ⟨.autoInc, r⟩ s = (s.reg r, s.setReg r (raisedReg s r)) := by
  simp only [resolve, stepSize_autoincrement (.inl rfl), raisedReg]

theorem resolve_autoIncDeferred (r : Reg) :
    resolve ⟨.autoIncDeferred, r⟩ s = (s.peekWord (s.reg r), (s.setReg r (raisedReg s r)).note .read (s.reg r)) := by
  simp only [resolve, memReadWord, stepSize_autoincrement (.inr rfl), setReg_note, raisedReg]

/-- The register as modes 4 and 5 leave it (R113, R117). -/
def loweredReg (r : Reg) : Word := s.reg r - (if r = .sp then 2 else if s.byteMode then 1 else 2)

theorem resolve_autoDec (r : Reg) : resolve ⟨.autoDec, r⟩ s = (loweredReg s r, s.setReg r (loweredReg s r)) := by
  simp only [resolve, stepSize_autodecrement (.inl rfl), reg_setReg, loweredReg]

theorem resolve_autoDecDeferred (r : Reg) :
    resolve ⟨.autoDecDeferred, r⟩ s = memReadWord (loweredReg s r) (s.setReg r (loweredReg s r)) := by
  simp only [resolve, stepSize_autodecrement (.inr rfl), reg_setReg, loweredReg]

/-- The address modes 6 and 7 form: the extension word at `pc` added to the register as it is once `pc` is past that word
(R119). -/
def indexedAddr (r : Reg) : Word := (if r = .pc then s.reg .pc + 2#16 else s.reg r) + s.peekWord (s.reg .pc)

theorem resolve_indexed (r : Reg) :
    resolve ⟨.indexed, r⟩ s = (indexedAddr s r, (advancePc s).note .read (s.reg .pc)) := by
  simp only [resolve, memReadWord, advancePc_note, note_reg, advancePc_reg, indexedAddr]

theorem resolve_indexedDeferred (r : Reg) :
    resolve ⟨.indexedDeferred, r⟩ s = memReadWord (indexedAddr s r) ((advancePc s).note .read (s.reg .pc)) := by
  have hdeferred : resolve ⟨.indexedDeferred, r⟩ s = memReadWord (resolve ⟨.indexed, r⟩ s).1 (resolve ⟨.indexed, r⟩ s).2 := rfl
  rw [hdeferred, resolve_indexed]

/-- Settles O13: the equations of the two modes. -/
theorem resolveRegisterAndDeferred : Obligations.ResolveRegisterAndDeferred :=
  fun r s => ⟨resolve_register s r, resolve_deferred s r⟩

/-- Settles O14: the equations of the two modes, with the step size of R113. -/
theorem resolveAutoincrement : Obligations.ResolveAutoincrement := by
  intro r s k
  have hreg : (s.setReg r (raisedReg s r)).reg r = s.reg r + k := reg_setReg s r _
  rw [resolve_autoInc, resolve_autoIncDeferred]
  exact ⟨rfl, hreg, setReg_trace s r _, rfl, (note_reg _ .read _ r).trans hreg, note_trace (s.setReg r _) .read _⟩

/-- Settles O15: the equations of the two modes; the pointer is read in the state in which the register is already lowered. -/
theorem resolveAutodecrement : Obligations.ResolveAutodecrement := by
  intro r s k lowered
  rw [resolve_autoDec, resolve_autoDecDeferred]
  have hreg : lowered.reg r = s.reg r - k := reg_setReg s r _
  exact ⟨rfl, rfl, (note_reg lowered .read _ r).trans hreg, note_mem lowered .read _, note_trace lowered .read _⟩

/-- Settles O16: the equations of the two modes; the second event of mode 7 follows that of the extension word. -/
theorem resolveIndexed : Obligations.ResolveIndexed := by
  intro r s x base advanced
  rw [resolve_indexed, resolve_indexedDeferred]
  have hext : (advanced.note .read (s.reg .pc)).trace = s.trace ++ visible s.params [⟨.read, s.reg .pc⟩] :=
    note_trace advanced .read _
  have hpointer : (memReadWord (base + x) (advanced.note .read (s.reg .pc))).1 = advanced.peekWord (base + x) :=
    note_peekWord advanced .read _ _
  have hmem : (memReadWord (base + x) (advanced.note .read (s.reg .pc))).2.mem = advanced.mem := by
    rw [memReadWord_snd, note_mem, note_mem]
  have hboth : (memReadWord (base + x) (advanced.note .read (s.reg .pc))).2.trace =
      s.trace ++ visible s.params [⟨.read, s.reg .pc⟩, ⟨.read, base + x⟩] := by
    rw [memReadWord_snd, note_trace, note_params, hext, visible_cons s.params _ [_], List.append_assoc]
    rfl
  exact ⟨rfl, note_mem advanced .read _, hext, hpointer, hmem, hboth⟩

end Sys2Proof.Machine
end

section
/-! The statement on `Add_w` and `Sub_w` (R147): what they answer as numbers, at every width, and the closed forms of INC, DEC, NEG,
ADC and SBC. -/

namespace Sys2Proof.Machine

variable {w : Nat} (a b : BitVec w)

/-! ## Overflow is leaving the signed range (R147) -/

theorem outOfRange_iff (z : Int) : outOfRange w z = true ↔ z < -2 ^ (w - 1) ∨ 2 ^ (w - 1) ≤ z := by
  simp only [outOfRange, Bool.or_eq_true, decide_eq_true_iff]

theorem outOfRange_toInt : outOfRange w a.toInt = false := by
  have hlow := BitVec.le_toInt a
  have hhigh := BitVec.toInt_lt (x := a)
  rw [Bool.eq_false_iff, ne_eq, outOfRange_iff]
  omega

/-- The sign-bit test of an addition is that of the library, which is defined by the range. -/
theorem addOverflow_eq_outOfRange : addOverflow a b = outOfRange w (a.toInt + b.toInt) :=
  calc
    addOverflow a b = a.saddOverflow b := (BitVec.saddOverflow_eq a b).symm
    _ = outOfRange w (a.toInt + b.toInt) := Bool.or_comm _ _

theorem subOverflow_eq_ssubOverflow : subOverflow a b = a.ssubOverflow b := by
  rw [BitVec.ssubOverflow_eq, subOverflow]
  cases a.msb <;> cases b.msb <;> simp

theorem subOverflow_eq_outOfRange : subOverflow a b = outOfRange w (a.toInt - b.toInt) :=
  calc
    subOverflow a b = a.ssubOverflow b := subOverflow_eq_ssubOverflow a b
    _ = outOfRange w (a.toInt - b.toInt) := Bool.or_comm _ _

/-! ## The difference as a number (R147) -/

theorem toNat_sub_eq_emod : ((a - b).toNat : Int) = ((a.toNat : Int) - b.toNat) % 2 ^ w := by
  have hle : b.toNat ≤ 2 ^ w := Nat.le_of_lt b.isLt
  have hnat : ((2 ^ w - b.toNat + a.toNat : Nat) : Int) = (a.toNat - b.toNat : Int) + (2 ^ w : Nat) := by omega
  have hpow : ((2 ^ w : Nat) : Int) = 2 ^ w := Int.natCast_pow 2 w
  rw [BitVec.toNat_sub, Int.natCast_emod, hnat, Int.add_emod_right, hpow]

/-! ## Operands 0 and 1: the overflows of INC, DEC and NEG (R185 to R190) -/

theorem addOverflow_zero : addOverflow a 0#w = false := by
  rw [addOverflow_eq_outOfRange, BitVec.toInt_zero, Int.add_zero, outOfRange_toInt]

theorem subOverflow_zero : subOverflow a 0#w = false := by
  rw [subOverflow_eq_outOfRange, BitVec.toInt_zero, Int.sub_zero, outOfRange_toInt]

/-- Adding 1 leaves the range from the greatest number only. -/
theorem addOverflow_one (hw : 1 < w) : addOverflow a 1#w = (a == BitVec.intMax w) := by
  have hlow := BitVec.le_toInt a
  have hhigh := BitVec.toInt_lt (x := a)
  rw [addOverflow_eq_outOfRange, BitVec.toInt_one hw, Bool.eq_iff_iff, outOfRange_iff, beq_iff_eq, ← BitVec.toInt_inj,
    BitVec.toInt_intMax]
  omega

/-- Subtracting 1 leaves the range from the least number only. -/
theorem subOverflow_one (hw : 1 < w) : subOverflow a 1#w = (a == BitVec.intMin w) := by
  have hlow := BitVec.le_toInt a
  have hhigh := BitVec.toInt_lt (x := a)
  rw [subOverflow_eq_outOfRange, BitVec.toInt_one hw, Bool.eq_iff_iff, outOfRange_iff, beq_iff_eq, ← BitVec.toInt_inj,
    BitVec.toInt_intMin_of_pos (by omega)]
  omega

/-- The least number alone has no negative in the range. -/
theorem subOverflow_zero_left (hw : 0 < w) : subOverflow 0#w a = (a == BitVec.intMin w) := by
  have hlow := BitVec.le_toInt a
  have hhigh := BitVec.toInt_lt (x := a)
  rw [subOverflow_eq_outOfRange, BitVec.toInt_zero, Bool.eq_iff_iff, outOfRange_iff, beq_iff_eq, ← BitVec.toInt_inj,
    BitVec.toInt_intMin_of_pos hw]
  omega

/-! ## Operands 0 and 1: the carry and the borrows of NEG, ADC and SBC (R189 to R194) -/

theorem addCarry_zero : addCarry a 0#w = false := by
  have hlt := a.isLt
  rw [addCarry, BitVec.toNat_zero, decide_eq_false_iff_not]
  omega

theorem addCarry_one (hw : 0 < w) : addCarry a 1#w = (a == BitVec.allOnes w) := by
  have hlt := a.isLt
  rw [addCarry, BitVec.toNat_one hw, Bool.eq_iff_iff, decide_eq_true_iff, beq_iff_eq, ← BitVec.toNat_inj, BitVec.toNat_allOnes]
  omega

theorem subBorrow_zero : subBorrow a 0#w = false := by
  rw [subBorrow, BitVec.toNat_zero, decide_eq_false_iff_not]
  omega

theorem subBorrow_one (hw : 0 < w) : subBorrow a 1#w = (a == 0#w) := by
  rw [subBorrow, BitVec.toNat_one hw, Bool.eq_iff_iff, decide_eq_true_iff, beq_iff_eq, ← BitVec.toNat_inj, BitVec.toNat_zero]
  omega

theorem subBorrow_zero_left : subBorrow 0#w a = (a != 0#w) := by
  rw [subBorrow, BitVec.toNat_zero, Bool.eq_iff_iff, decide_eq_true_iff, bne_iff_ne, ne_eq, ← BitVec.toNat_inj,
    BitVec.toNat_zero]
  omega

/-! ## The flags of the closed forms are those of `Add_w` and `Sub_w` (R185 to R194) -/

theorem incOp_v (hw : 1 < w) : (incOp a).2.v = some (addOverflow a 1#w) := by
  rw [addOverflow_one a hw]
  rfl

theorem decOp_v (hw : 1 < w) : (decOp a).2.v = some (subOverflow a 1#w) := by
  rw [subOverflow_one a hw]
  rfl

theorem negOp_v (hw : 0 < w) : (negOp a).2.v = some (subOverflow 0#w a) := by
  rw [subOverflow_zero_left a hw]
  rfl

theorem negOp_c : (negOp a).2.c = some (subBorrow 0#w a) := by
  rw [subBorrow_zero_left]
  rfl

/-- The old carry as an operand (R191 to R194). -/
def carryOperand (w : Nat) (c0 : Bool) : BitVec w := if c0 then 1#w else 0#w

variable (c0 : Bool)

theorem adcOp_v (hw : 1 < w) : (adcOp c0 a).2.v = some (addOverflow a (carryOperand w c0)) := by
  cases c0
  case false => simp [adcOp, nzvc, carryOperand, addOverflow_zero]
  case true => simp [adcOp, nzvc, carryOperand, addOverflow_one a hw]

theorem adcOp_c (hw : 0 < w) : (adcOp c0 a).2.c = some (addCarry a (carryOperand w c0)) := by
  cases c0
  case false => simp [adcOp, nzvc, carryOperand, addCarry_zero]
  case true => simp [adcOp, nzvc, carryOperand, addCarry_one a hw]

theorem sbcOp_v (hw : 1 < w) : (sbcOp c0 a).2.v = some (subOverflow a (carryOperand w c0)) := by
  cases c0
  case false => simp [sbcOp, nzvc, carryOperand, subOverflow_zero]
  case true => simp [sbcOp, nzvc, carryOperand, subOverflow_one a hw]

theorem sbcOp_c (hw : 0 < w) : (sbcOp c0 a).2.c = some (subBorrow a (carryOperand w c0)) := by
  cases c0
  case false => simp [sbcOp, nzvc, carryOperand, subBorrow_zero]
  case true => simp [sbcOp, nzvc, carryOperand, subBorrow_one a hw]

/-- Settles O45: the range facts hold at every width, the closed forms from 2 bits on, so at 8 and at 16. -/
theorem carryAndOverflowAreThoseOfTheIntegers : Obligations.CarryAndOverflowAreThoseOfTheIntegers := by
  refine ⟨fun _ _ => ⟨rfl, rfl⟩, fun w hwidth a b c0 => ?_⟩
  have hw : 1 < w := by
    simp only [List.mem_cons, List.not_mem_nil, or_false] at hwidth
    omega
  have hpos : 0 < w := Nat.zero_lt_of_lt hw
  exact ⟨BitVec.toNat_add a b, rfl, rfl, addOverflow_eq_outOfRange a b, toNat_sub_eq_emod a b, rfl, rfl,
    subOverflow_eq_outOfRange a b, rfl, rfl, incOp_v a hw, decOp_v a hw, negOp_v a hpos, negOp_c a, adcOp_v a c0 hw,
    adcOp_c a c0 hpos, sbcOp_v a c0 hw, sbcOp_c a c0 hpos⟩

end Sys2Proof.Machine
end

section
/-! The decoder answers the instruction whose encoding it is given (R84, R93), so every instruction has its place in the opcode
map. -/

namespace Sys2Proof

/-! ## Format B: its fields and its bit 8 from the opcode byte and the offset (R81, R83) -/

section formatB

variable (op off : BitVec 8)

theorem f4_formatB : (f4 (formatB op off)).toNat = op.toNat / 16 % 8 := by
  rw [f4_toNat, formatB_toNat]
  omega

theorem f3_formatB : (f3 (formatB op off)).toNat = op.toNat / 2 % 8 := by
  rw [f3_toNat, formatB_toNat]
  omega

theorem f2_formatB : (f2 (formatB op off)).toNat = 4 * (op.toNat % 2) + off.toNat / 64 := by
  rw [f2_toNat, formatB_toNat]
  omega

theorem topBit_formatB : topBit (formatB op off) = decide (128 ≤ op.toNat) := by
  rw [topBit_eq_decide, formatB_toNat, decide_eq_decide]
  omega

theorem bit8_formatB : (formatB op off).getLsbD 8 = decide (op.toNat % 2 = 1) := by
  rw [bit8_eq_decide, f2_formatB, decide_eq_decide]
  omega

/-- The two branches of a pair have an even and an odd opcode byte (R236). -/
theorem branchPair_formatB (first second : BitVec 8 → Instr) :
    branchPair first second (formatB op off) = .instr ((if op.toNat % 2 = 1 then second else first) off) := by
  simp only [branchPair, bit8_formatB, branchOffset_formatB, decide_eq_true_eq]

/-- BR has no partner: it takes the words of the control class with `f2` from 4 on (R84, R236). -/
theorem decodeControl_formatB : decodeControl (formatB 1#8 off) = .instr (.br off) := by
  have h2 : (f2 (formatB 1#8 off)).toNat = 4 + off.toNat / 64 := f2_formatB 1#8 off
  unfold decodeControl
  split
  case h_5 => rw [branchOffset_formatB]
  all_goals omega

end formatB

/-! ## Decoding an encoding, format by format -/

/-- The decoder gives every instruction back, with its operands (R84, R93). -/
theorem decodeWord_encodeWord (i : Instr) : decodeWord (encodeWord i) = .instr i := by
  cases i
  case mov | movb | cmp | cmpb | bit | bitb | bic | bicb | bis | bisb | add | sub =>
    simp [decodeWord, encodeWord, formatD, srcSpecifier, dstSpecifier]
  case clr | clrb | com | comb | inc | incb | dec | decb | neg | negb | adc | adcb | sbc | sbcb | tst | tstb =>
    simp [decodeWord, encodeWord, formatS, dstSpecifier, decodeClassZero, decodeSingle]
  case swab | jmp => simp [decodeWord, encodeWord, formatS', dstSpecifier, decodeClassZero, decodeControl]
  case jsr => simp [decodeWord, encodeWord, formatJ, dstSpecifier, decodeClassZero]
  case rts => simp [decodeWord, encodeWord, formatT, decodeClassZero, decodeControl, decodeReturnOrFlags]
  case clc | clv | clz | cln | sec | sev | sez | sen | halt | wait | reset => rfl
  case br => simp [decodeWord, encodeWord, decodeClassZero, f4_formatB, f3_formatB, topBit_formatB, decodeControl_formatB]
  case bne | beq | bge | blt | bgt | ble | bpl | bmi | bhi | blos | bvc | bvs | bcc | bcs =>
    simp [decodeWord, encodeWord, decodeClassZero, f4_formatB, f3_formatB, topBit_formatB, branchPair_formatB]

end Sys2Proof
end

section
/-! The statements on the results and flags of the double-operand instructions (R161 to R172). -/

namespace Sys2Proof.Machine

/-- Every instruction has its place in the opcode map, that of its own row (R93). -/
theorem encodedBy_opcodeRow (i : Instr) : EncodedBy i i.opcodeRow.pattern i.opcodeRow.mask :=
  ⟨beq_iff_eq.mp (encodeWord_selects_opcodeRow i), decodeWord_encodeWord i⟩

/-! ## How an instruction ends whose N and Z are those of its result (R145, R146, R148) -/

section resultFlags

variable {w : Nat} (a b : BitVec w)

/-- N is the top bit of the result, at either width; V and C are as given, or as `u` has them. -/
theorem endsWith_nzvc (u : State) (res : BitVec w) (v c : Option Bool) :
    ∃ t, complete (u.setFlags (nzvc res v c)) = .next t ∧
      EndsWith t u ⟨res.getLsbD (w - 1), res == 0, v.getD u.flags.v, c.getD u.flags.c⟩ := by
  rw [← BitVec.msb_eq_getLsbD_last]
  exact endsWith_setFlags u (nzvc res v c)

theorem endsWith_logicFlags (u : State) (res : BitVec w) :
    ∃ t, complete (u.setFlags (logicFlags res)) = .next t ∧
      EndsWith t u ⟨res.getLsbD (w - 1), res == 0, false, u.flags.c⟩ :=
  endsWith_nzvc u res (some false) none

/-! ## Sums and differences as the statements write them (R147) -/

theorem addOverflow_eq_topBits : addOverflow a b =
    (a.getLsbD (w - 1) == b.getLsbD (w - 1) && (a + b).getLsbD (w - 1) != a.getLsbD (w - 1)) := by
  simp only [addOverflow, BitVec.msb_eq_getLsbD_last]

theorem subOverflow_eq_topBits : subOverflow a b =
    (a.getLsbD (w - 1) != b.getLsbD (w - 1) && (a - b).getLsbD (w - 1) == b.getLsbD (w - 1)) := by
  simp only [subOverflow, BitVec.msb_eq_getLsbD_last]

/-- The difference is that of the integers, modulo `2 ^ w`. -/
theorem ofInt_toNat_sub_toNat : BitVec.ofInt w ((a.toNat : Int) - b.toNat) = a - b := by
  have hpow : ((2 ^ w : Nat) : Int) = 2 ^ w := Int.natCast_pow 2 w
  apply BitVec.eq_of_toNat_eq
  rw [BitVec.toNat_ofInt, hpow, ← toNat_sub_eq_emod, Int.toNat_natCast]

end resultFlags

/-! ## The double-operand instructions (R161 to R172) -/

/-- Settles O19: MOV ends with the flags of the source word. -/
theorem movCopiesTheWord : Obligations.MovCopiesTheWord :=
  fun src dst _ => ⟨encodedBy_opcodeRow (.mov src dst), endsWith_logicFlags _ _⟩

/-- Settles O20: MOVB ends with the flags of the source byte, whatever the sign extension wrote. -/
theorem movbCopiesTheByte : Obligations.MovbCopiesTheByte :=
  fun src dst _ => ⟨encodedBy_opcodeRow (.movb src dst), endsWith_logicFlags _ _⟩

/-- Settles O21: both widths end with the flags of the difference, in the state after the reads. -/
theorem compareSetsTheFlagsOfTheDifference : Obligations.CompareSetsTheFlagsOfTheDifference :=
  fun src dst _ => ⟨⟨encodedBy_opcodeRow (.cmp src dst), endsWith_nzvc _ _ (some (subOverflow _ _)) (some (subBorrow _ _))⟩,
    encodedBy_opcodeRow (.cmpb src dst), endsWith_nzvc _ _ (some (subOverflow _ _)) (some (subBorrow _ _))⟩

/-- Settles O22: both widths end with the flags of the conjunction, in the state after the reads. -/
theorem bitTestSetsTheFlagsOfTheConjunction : Obligations.BitTestSetsTheFlagsOfTheConjunction :=
  fun src dst _ => ⟨⟨encodedBy_opcodeRow (.bit src dst), endsWith_logicFlags _ _⟩,
    encodedBy_opcodeRow (.bitb src dst), endsWith_logicFlags _ _⟩

/-- Settles O23: each of the four ends with the flags of the result it stored. -/
theorem bitClearAndBitSet : Obligations.BitClearAndBitSet := by
  intro src dst s
  simp only [List.forall_mem_cons, List.not_mem_nil, false_imp_iff, implies_true, and_true]
  exact ⟨⟨⟨encodedBy_opcodeRow (.bic src dst), endsWith_logicFlags _ _⟩,
      encodedBy_opcodeRow (.bis src dst), endsWith_logicFlags _ _⟩,
    ⟨encodedBy_opcodeRow (.bicb src dst), endsWith_logicFlags _ _⟩,
      encodedBy_opcodeRow (.bisb src dst), endsWith_logicFlags _ _⟩

/-- Settles O24: ADD ends with the flags of the sum it stored, V by the top bits and C by the unbounded sum. -/
theorem addWordsWithCarryAndOverflow : Obligations.AddWordsWithCarryAndOverflow := by
  intro src dst s
  refine ⟨encodedBy_opcodeRow (.add src dst), ?_⟩
  intro sa x da y
  rw [← BitVec.add_def]
  intro res u
  have hends := endsWith_nzvc u res (some (addOverflow x.1 y.1)) (some (addCarry x.1 y.1))
  rw [addOverflow_eq_topBits] at hends
  exact hends

/-- Settles O25: SUB ends with the flags of the difference it stored, V by the top bits and C by the borrow. -/
theorem subtractWordsWithBorrowAndOverflow : Obligations.SubtractWordsWithBorrowAndOverflow := by
  intro src dst s
  refine ⟨encodedBy_opcodeRow (.sub src dst), ?_⟩
  intro sa x da y
  rw [ofInt_toNat_sub_toNat]
  intro res u
  have hends := endsWith_nzvc u res (some (subOverflow y.1 x.1)) (some (subBorrow y.1 x.1))
  rw [subOverflow_eq_topBits] at hends
  exact hends

end Sys2Proof.Machine
end

section
/-! The statements on the results and flags of the single-operand instructions and SWAB (R181 to R197). -/

namespace Sys2Proof.Machine

/-! ## The results and flags as the statements write them, at every width (R183 to R196) -/

section closedForms

variable {w : Nat} (a : BitVec w) (c0 : Bool)

theorem ofInt_zero_sub_toNat : BitVec.ofInt w (0 - a.toNat) = 0#w - a := by
  have hsub := ofInt_toNat_sub_toNat 0#w a
  rwa [BitVec.toNat_zero] at hsub

theorem toNat_carryOperand (hw : 0 < w) : (carryOperand w c0).toNat = c0.toNat := by
  cases c0
  case false => exact BitVec.toNat_zero
  case true => exact BitVec.toNat_one hw

theorem ofNat_toNat_add_carry (hw : 0 < w) : BitVec.ofNat w (a.toNat + c0.toNat) = a + carryOperand w c0 := by
  rw [← toNat_carryOperand c0 hw, BitVec.add_def]

theorem ofInt_toNat_sub_carry (hw : 0 < w) : BitVec.ofInt w ((a.toNat : Int) - c0.toNat) = a - carryOperand w c0 := by
  rw [← toNat_carryOperand c0 hw, ofInt_toNat_sub_toNat]

theorem comOp_eq : comOp a = (~~~a, nzvc (~~~a) (some false) (some true)) := rfl

theorem incOp_eq : incOp a = (a + 1#w, nzvc (a + 1#w) (some (a == BitVec.intMax w)) none) := rfl

/-- Subtracting 1 is adding all ones, as the statement on DEC has it (R187, R188). -/
theorem decOp_eq : decOp a =
    (a + BitVec.allOnes w, nzvc (a + BitVec.allOnes w) (some (a == BitVec.intMin w)) none) := by
  rw [← BitVec.neg_one_eq_allOnes, ← BitVec.sub_eq_add_neg]
  rfl

theorem negOp_eq : negOp a = (BitVec.ofInt w (0 - a.toNat),
    nzvc (BitVec.ofInt w (0 - a.toNat)) (some (a == BitVec.intMin w)) (some (a != 0#w))) := by
  rw [ofInt_zero_sub_toNat]
  rfl

theorem adcOp_eq (hw : 0 < w) : adcOp c0 a = (BitVec.ofNat w (a.toNat + c0.toNat),
    nzvc (BitVec.ofNat w (a.toNat + c0.toNat)) (some (a == BitVec.intMax w && c0)) (some (a == BitVec.allOnes w && c0))) := by
  rw [ofNat_toNat_add_carry a c0 hw]
  rfl

theorem sbcOp_eq (hw : 0 < w) : sbcOp c0 a = (BitVec.ofInt w ((a.toNat : Int) - c0.toNat),
    nzvc (BitVec.ofInt w ((a.toNat : Int) - c0.toNat)) (some (a == BitVec.intMin w && c0)) (some (a == 0#w && c0))) := by
  rw [ofInt_toNat_sub_carry a c0 hw]
  rfl

/-- Only zero has the negation zero: Z of TST is that of the operand. -/
theorem zero_sub_beq_zero : (0#w - a == 0) = (a == 0) := by
  rw [BitVec.zero_sub, Bool.eq_iff_iff, beq_iff_eq, beq_iff_eq]
  exact BitVec.neg_eq_zero_iff

theorem endsWith_testFlags (u : State) :
    ∃ t, complete (u.setFlags (testFlags a)) = .next t ∧
      EndsWith t u ⟨(BitVec.ofInt w (0 - a.toNat)).getLsbD (w - 1), a == 0, false, false⟩ := by
  rw [ofInt_zero_sub_toNat, ← zero_sub_beq_zero]
  exact endsWith_nzvc u (0#w - a) (some false) (some false)

end closedForms

theorem loByte_getLsbD_seven (v : Word) : (loByte v).getLsbD 7 = v.getLsbD 7 := by
  rw [loByte, BitVec.getLsbD_extractLsb']
  rfl

/-! ## How the read-modify-write orders end (R143, R148, R180) -/

section unary

variable (dst : Specifier) (s : State) {v c : Option Bool}

/-- A word operation that answers `res`, with the N and Z of `res`. -/
theorem unaryWord_endsWith {op : Word → Word × FlagUpdate} {res : Word}
    (hop : op (opReadWord (resolve dst s).1 (resolve dst s).2).1 = (res, nzvc res v c)) :
    let da := resolve dst s
    let u := opWriteWord da.1 res (opReadWord da.1 da.2).2
    ∃ t, unaryWord op dst s = .next t ∧
      EndsWith t u ⟨res.getLsbD 15, res == 0, v.getD u.flags.v, c.getD u.flags.c⟩ := by
  intro da u
  simp only [unaryWord, hop]
  exact endsWith_nzvc u res v c

/-- A byte operation that answers `res`, with the N and Z of `res`. -/
theorem unaryByte_endsWith {op : Byte → Byte × FlagUpdate} {res : Byte}
    (hop : op (opReadByte (resolve dst s).1 (resolve dst s).2).1 = (res, nzvc res v c)) :
    let da := resolve dst s
    let u := opWriteByte false da.1 res (opReadByte da.1 da.2).2
    ∃ t, unaryByte op dst s = .next t ∧
      EndsWith t u ⟨res.getLsbD 7, res == 0, v.getD u.flags.v, c.getD u.flags.c⟩ := by
  intro da u
  simp only [unaryByte, hop]
  exact endsWith_nzvc u res v c

end unary

/-! ## The single-operand instructions (R181 to R197) -/

/-- Settles O26: neither order reads the destination, and both end with the four fixed flags. -/
theorem clearWritesZero : Obligations.ClearWritesZero :=
  fun dst _ => ⟨⟨encodedBy_opcodeRow (.clr dst), endsWith_setFlags _ clearFlags⟩,
    encodedBy_opcodeRow (.clrb dst), endsWith_setFlags _ clearFlags⟩

/-- Settles O27: at both widths the flags are those of the complement stored. -/
theorem complementInvertsEveryBit : Obligations.ComplementInvertsEveryBit :=
  fun dst _ => ⟨⟨encodedBy_opcodeRow (.com dst), unaryWord_endsWith dst _ (comOp_eq _)⟩,
    encodedBy_opcodeRow (.comb dst), unaryByte_endsWith dst _ (comOp_eq _)⟩

/-- Settles O28: the extremes of the statement are `max_w` and `min_w` at each width, and DEC is the addition of all ones. -/
theorem incrementAndDecrement : Obligations.IncrementAndDecrement := by
  intro dst s
  simp only [List.forall_mem_cons, List.not_mem_nil, false_imp_iff, implies_true, and_true]
  exact ⟨⟨⟨encodedBy_opcodeRow (.inc dst), unaryWord_endsWith dst _ (incOp_eq _)⟩,
      encodedBy_opcodeRow (.dec dst), unaryWord_endsWith dst _ (decOp_eq _)⟩,
    ⟨encodedBy_opcodeRow (.incb dst), unaryByte_endsWith dst _ (incOp_eq _)⟩,
      encodedBy_opcodeRow (.decb dst), unaryByte_endsWith dst _ (decOp_eq _)⟩

/-- Settles O29: at both widths V marks `min_w` and C every operand but zero. -/
theorem negateSubtractsFromZero : Obligations.NegateSubtractsFromZero :=
  fun dst _ => ⟨⟨encodedBy_opcodeRow (.neg dst), unaryWord_endsWith dst _ (negOp_eq _)⟩,
    encodedBy_opcodeRow (.negb dst), unaryByte_endsWith dst _ (negOp_eq _)⟩

/-- Settles O30: at both widths the carry added or subtracted is the one the status word holds before the order starts. -/
theorem addAndSubtractCarry : Obligations.AddAndSubtractCarry :=
  have hbyte : 0 < 8 := by decide
  have hword : 0 < 16 := by decide
  fun dst s => ⟨⟨encodedBy_opcodeRow (.adc dst), unaryWord_endsWith dst _ (adcOp_eq _ s.flags.c hword)⟩,
    ⟨encodedBy_opcodeRow (.adcb dst), unaryByte_endsWith dst _ (adcOp_eq _ s.flags.c hbyte)⟩,
    ⟨encodedBy_opcodeRow (.sbc dst), unaryWord_endsWith dst _ (sbcOp_eq _ s.flags.c hword)⟩,
    encodedBy_opcodeRow (.sbcb dst), unaryByte_endsWith dst _ (sbcOp_eq _ s.flags.c hbyte)⟩

/-- Settles O31: both orders end in the state after the read, N by the negation and Z by the operand itself. -/
theorem testSetsTheFlagsOfTheNegation : Obligations.TestSetsTheFlagsOfTheNegation :=
  fun dst _ => ⟨⟨encodedBy_opcodeRow (.tst dst), endsWith_testFlags _ _⟩,
    encodedBy_opcodeRow (.tstb dst), endsWith_testFlags _ _⟩

/-- Settles O32: the flags are those of the low byte of the word stored. -/
theorem swabExchangesTheBytes : Obligations.SwabExchangesTheBytes := by
  intro dst s
  refine ⟨encodedBy_opcodeRow (.swab dst), ?_⟩
  intro da y res
  rw [← loByte_getLsbD_seven]
  exact endsWith_nzvc _ (loByte res) (some false) (some false)

end Sys2Proof.Machine
end

section
/-! The statement on the condition-code operations (R210 to R218). -/

namespace Sys2Proof.Machine

/-- The shared order of the eight operations: the status word after decode with the named flags written (R210). -/
theorem flagOperation_endsWith (u : FlagUpdate) (s : State) :
    ∃ t, flagOperation u (s.decoded false) = .next t ∧ EndsWith t (s.decoded false) (s.flags.updated u) := by
  rw [← decoded_flags s false]
  exact endsWith_setFlags (s.decoded false) u

/-- Settles O33: each of the eight is the shared order with an update that names one flag. -/
theorem conditionCodeOperationsWriteOneFlag : Obligations.ConditionCodeOperationsWriteOneFlag := by
  intro s f
  simp only [List.forall_mem_cons, List.not_mem_nil, false_imp_iff, implies_true, and_true]
  exact ⟨⟨encodedBy_opcodeRow .clc, flagOperation_endsWith { c := some false } s⟩,
    ⟨encodedBy_opcodeRow .clv, flagOperation_endsWith { v := some false } s⟩,
    ⟨encodedBy_opcodeRow .clz, flagOperation_endsWith { z := some false } s⟩,
    ⟨encodedBy_opcodeRow .cln, flagOperation_endsWith { n := some false } s⟩,
    ⟨encodedBy_opcodeRow .sec, flagOperation_endsWith { c := some true } s⟩,
    ⟨encodedBy_opcodeRow .sev, flagOperation_endsWith { v := some true } s⟩,
    ⟨encodedBy_opcodeRow .sez, flagOperation_endsWith { z := some true } s⟩,
    encodedBy_opcodeRow .sen, flagOperation_endsWith { n := some true } s⟩

end Sys2Proof.Machine
end

section
/-! The statements on the branches (R87, R220 to R235). -/

namespace Sys2Proof.Machine

section sharedOrder

variable (cond : Flags → Bool) (off : BitVec 8) (s : State)

/-- The model's 16-bit sum is the target over the integers, modulo 65,536 (R87, R220). -/
theorem pc_add_two_mul_sext8 : s.reg .pc + 2#16 * sext8 off = branchTarget s off := by
  have hoffset : 2#16 * sext8 off = BitVec.ofInt 16 (2 * off.toInt) := (BitVec.ofInt_mul 2 off.toInt).symm
  rw [hoffset, branchTarget, BitVec.ofInt_add, BitVec.ofInt_natCast, BitVec.ofNat_toNat, BitVec.setWidth_eq]

/-- The shared order of the branches: the condition on the flags decides whether `pc` is written (R220). -/
theorem branchIf_decoded : branchIf cond off (s.decoded false) = .next (afterBranch s off (cond s.flags)) := by
  have htarget : (s.decoded false).reg .pc + 2#16 * sext8 off = branchTarget s off := pc_add_two_mul_sext8 off s
  rw [branchIf, decoded_flags, htarget]
  cases cond s.flags
  case false => rfl
  case true => rfl

end sharedOrder

/-- Settles O34: each of the seven is the shared order with the condition of its rule. -/
theorem branchesOnZeroAndSignedOrder : Obligations.BranchesOnZeroAndSignedOrder := by
  intro off s f
  simp only [List.forall_mem_cons, List.not_mem_nil, false_imp_iff, implies_true, and_true, beq_true, beq_false]
  exact ⟨⟨encodedBy_opcodeRow (.br off), branchIf_decoded (fun _ => true) off s⟩,
    ⟨encodedBy_opcodeRow (.bne off), branchIf_decoded condNe off s⟩,
    ⟨encodedBy_opcodeRow (.beq off), branchIf_decoded condEq off s⟩,
    ⟨encodedBy_opcodeRow (.bge off), branchIf_decoded condGe off s⟩,
    ⟨encodedBy_opcodeRow (.blt off), branchIf_decoded condLt off s⟩,
    ⟨encodedBy_opcodeRow (.bgt off), branchIf_decoded condGt off s⟩,
    encodedBy_opcodeRow (.ble off), branchIf_decoded condLe off s⟩

/-- Settles O35: each of the eight is the shared order with the condition of its rule. -/
theorem branchesOnSingleFlagsAndUnsignedOrder : Obligations.BranchesOnSingleFlagsAndUnsignedOrder := by
  intro off s f
  simp only [List.forall_mem_cons, List.not_mem_nil, false_imp_iff, implies_true, and_true, beq_true, beq_false]
  exact ⟨⟨encodedBy_opcodeRow (.bpl off), branchIf_decoded condPl off s⟩,
    ⟨encodedBy_opcodeRow (.bmi off), branchIf_decoded condMi off s⟩,
    ⟨encodedBy_opcodeRow (.bhi off), branchIf_decoded condHi off s⟩,
    ⟨encodedBy_opcodeRow (.blos off), branchIf_decoded condLos off s⟩,
    ⟨encodedBy_opcodeRow (.bvc off), branchIf_decoded condVc off s⟩,
    ⟨encodedBy_opcodeRow (.bvs off), branchIf_decoded condVs off s⟩,
    ⟨encodedBy_opcodeRow (.bcc off), branchIf_decoded condCc off s⟩,
    encodedBy_opcodeRow (.bcs off), branchIf_decoded condCs off s⟩

end Sys2Proof.Machine
end

section
/-! The statements on jumps and subroutines (R241 to R243). -/

namespace Sys2Proof.Machine

/-! ## JMP (R241) -/

section jump

variable {dst : Specifier} (s : State)

/-- JMP without an address is illegal: nothing is written but `BYTEMODE` and `STATE` (R98, R241). -/
theorem exec_jmp_register (hmode : dst.mode = .register) :
    exec (.jmp dst) s = .next { s with byteMode := false, status := .faulted .illegalInstruction } := if_pos hmode

/-- JMP with an address: the resolve, then `pc` (R241). -/
theorem exec_jmp_address (hmode : dst.mode ≠ .register) :
    exec (.jmp dst) s =
      complete ((resolve dst (s.decoded false)).2.setReg .pc (resolve dst (s.decoded false)).1) := if_neg hmode

end jump

/-- Settles O36: what JMP answers is the resolved state with `pc` set last, so `pc` reads as the effective address. -/
theorem jmpGoesToTheEffectiveAddress : Obligations.JmpGoesToTheEffectiveAddress := by
  intro dst s
  refine ⟨encodedBy_opcodeRow (.jmp dst), exec_jmp_register s, ?_⟩
  intro hmode ea
  exact ⟨_, exec_jmp_address s hmode, reg_setReg ea.2 .pc ea.1, rfl⟩

/-! ## JSR (R242) -/

section call

variable {r : Reg} {dst : Specifier} (s : State)

/-- JSR without an address is illegal, as JMP is (R98, R242). -/
theorem exec_jsr_register (hmode : dst.mode = .register) :
    exec (.jsr r dst) s = .next { s with byteMode := false, status := .faulted .illegalInstruction } := if_pos hmode

/-- A push that overflows ends JSR with what the resolve has done (R66, R242). -/
theorem exec_jsr_overflow (hmode : dst.mode ≠ .register)
    (hpush : pushWord ((resolve dst (s.decoded false)).2.reg r) (resolve dst (s.decoded false)).2 = none) :
    exec (.jsr r dst) s = raise .stackOverflow (resolve dst (s.decoded false)).2 := by
  simp only [exec, execJsr, if_neg hmode, hpush]

/-- After the push JSR writes the linkage register, then `pc` (R242). -/
theorem exec_jsr_pushed (hmode : dst.mode ≠ .register) {pushed : State}
    (hpush : pushWord ((resolve dst (s.decoded false)).2.reg r) (resolve dst (s.decoded false)).2 = some pushed) :
    exec (.jsr r dst) s =
      complete ((pushed.setReg r (pushed.reg .pc)).setReg .pc (resolve dst (s.decoded false)).1) := by
  simp only [exec, execJsr, if_neg hmode, hpush]

end call

/-- Settles O37: the stack limit decides whether the push of the resolved state answers a state. -/
theorem jsrPushesLinksAndJumps : Obligations.JsrPushesLinksAndJumps := by
  intro r dst s
  refine ⟨encodedBy_opcodeRow (.jsr r dst), exec_jsr_register s, ?_⟩
  intro hmode ea new
  have hlimit : ea.2.params.stackLimit = s.params.stackLimit := congrArg Params.stackLimit (resolve_params _ dst)
  rw [← hlimit]
  constructor
  · intro hbelow
    exact exec_jsr_overflow s hmode ((pushWord_eq_none_iff ea.2 (ea.2.reg r)).mpr hbelow)
  · intro habove pushed linked
    exact ⟨_, exec_jsr_pushed s hmode (pushWord_of_limit_le ea.2 habove), reg_setReg linked .pc ea.1, rfl⟩

/-! ## RTS (R243) -/

section linkage

variable (r : Reg) (s : State)

/-- The state once `pc` holds the linkage register. -/
def linkageInPc : State := s.setReg .pc (s.reg r)

/-- The state once the word at `sp` is popped into the linkage register. -/
def afterRts : State :=
  let pointer := (linkageInPc r s).reg .sp
  ((((linkageInPc r s).decoded false).note .read pointer).setReg .sp (pointer + 2#16)).setReg r
    ((linkageInPc r s).peekWord pointer)

/-- RTS is decode's write, `pc`, and a pop into the linkage register (R243). -/
theorem exec_rts : exec (.rts r) s = complete (afterRts r s) := by
  calc exec (.rts r) s
    _ = complete ((popWord ((linkageInPc r s).decoded false)).2.setReg r (popWord ((linkageInPc r s).decoded false)).1) := rfl
    _ = complete (afterRts r s) := by rw [popWord_snd, popWord_fst, decoded_reg, decoded_peekWord, afterRts]

theorem afterRts_linkage : (afterRts r s).reg r = (linkageInPc r s).peekWord ((linkageInPc r s).reg .sp) := by
  rw [afterRts, reg_setReg]

variable {r}

theorem afterRts_pc (hr : r ≠ .pc) : (afterRts r s).reg .pc = s.reg r := by
  rw [afterRts, reg_setReg_ne _ hr.symm, reg_setReg_ne _ (by decide), note_reg, decoded_reg, linkageInPc, reg_setReg]

theorem afterRts_sp (hr : r ≠ .sp) : (afterRts r s).reg .sp = s.reg .sp + 2#16 := by
  rw [afterRts, reg_setReg_ne _ hr.symm, reg_setReg, linkageInPc, reg_setReg_ne _ (by decide)]

theorem afterRts_reg {q : Reg} (hr : q ≠ r) (hpc : q ≠ .pc) (hsp : q ≠ .sp) : (afterRts r s).reg q = s.reg q := by
  rw [afterRts, reg_setReg_ne _ hr, reg_setReg_ne _ hsp, note_reg, decoded_reg, linkageInPc, reg_setReg_ne _ hpc]

theorem afterRts_peek {a : Word} (hr : ¬ InWord a (regAddr s.params r)) (hpc : ¬ InWord a (regAddr s.params .pc))
    (hsp : ¬ InWord a (regAddr s.params .sp)) : (afterRts r s).peek a = s.peek a := by
  rw [afterRts, peek_setReg_outside _ (by simpa [linkageInPc] using hr), peek_setReg_outside _ (by simpa [linkageInPc] using hsp),
    note_peek, decoded_peek, linkageInPc, peek_setReg_outside s hpc]

variable (r)

theorem afterRts_trace : (afterRts r s).trace = s.trace ++ visible s.params [⟨.read, (linkageInPc r s).reg .sp⟩] :=
  note_trace ((linkageInPc r s).decoded false) .read ((linkageInPc r s).reg .sp)

theorem afterRts_params : (afterRts r s).params = s.params := by simp [afterRts, linkageInPc]
theorem afterRts_byteMode : (afterRts r s).byteMode = false := by simp [afterRts]
theorem afterRts_advisory : (afterRts r s).advisoryOddPc = s.advisoryOddPc := by simp [afterRts, linkageInPc]

end linkage

/-- Settles O38: RTS writes `pc`, `sp` and the linkage register in that order, so each reads as its last write. -/
theorem rtsReturnsThroughTheLinkageRegister : Obligations.RtsReturnsThroughTheLinkageRegister := by
  intro r s
  refine ⟨encodedBy_opcodeRow (.rts r), ?_⟩
  intro returned popped
  exact ⟨_, exec_rts r s, afterRts_linkage r s, afterRts_pc s, afterRts_sp s, fun _ => afterRts_reg s,
    fun _ => afterRts_peek s, afterRts_trace r s, rfl, afterRts_params r s, afterRts_byteMode r s, afterRts_advisory r s⟩

end Sys2Proof.Machine
end

section
/-! The statements on exceptions and the state diagram (R262, R263, R266). -/

namespace Sys2Proof.Machine

/-! ## How a meaning ends (R266) -/

/-- The processor state in which an instruction leaves the machine when its meaning starts in `s` (R250 to R252, R262, R263). -/
def endStatus (s : State) : Instr → Status
  | .halt => .halted
  | .wait => .waiting
  | .reset => .reset
  | .jmp dst => if dst.mode = .register then .faulted .illegalInstruction else .running
  | .jsr _ dst =>
    if dst.mode = .register then .faulted .illegalInstruction
    else if ((resolve dst (s.decoded false)).2.reg .sp - 2#16).toNat < s.params.stackLimit.toNat then .faulted .stackOverflow
    else .running
  | _ => .running

section meanings

variable (dst : Specifier) (s : State)

theorem exec_jmp_status : ∃ t, exec (.jmp dst) s = .next t ∧ t.status = endStatus s (.jmp dst) := by
  by_cases hmode : dst.mode = .register
  · exact ⟨_, exec_jmp_register s hmode, (if_pos hmode).symm⟩
  · exact ⟨_, exec_jmp_address s hmode, (if_neg hmode).symm⟩

/-- The three ends of R242: no address, no room on the stack, the jump. -/
theorem exec_jsr_status (r : Reg) : ∃ t, exec (.jsr r dst) s = .next t ∧ t.status = endStatus s (.jsr r dst) := by
  obtain ⟨-, hdirect, haddressed⟩ := jsrPushesLinksAndJumps r dst s
  by_cases hmode : dst.mode = .register
  · exact ⟨_, hdirect hmode, (if_pos hmode).symm⟩
  obtain ⟨hoverflow, hjump⟩ := haddressed hmode
  rw [endStatus, if_neg hmode]
  split
  next hbelow => exact ⟨_, hoverflow hbelow, rfl⟩
  next hroom =>
    obtain ⟨t, ht, -, rfl⟩ := hjump (Nat.le_of_not_lt hroom)
    exact ⟨_, ht, rfl⟩

/-- Every meaning answers a next state: the orders of the data instructions, the flag operations and RTS end with `complete`, a
branch completes whether or not it is taken, and JMP and JSR are the only ones that test for a fault. -/
theorem exec_status (i : Instr) : ∃ t, exec i s = .next t ∧ t.status = endStatus s i := by
  cases i with
  | jmp dst => exact exec_jmp_status dst s
  | jsr r dst => exact exec_jsr_status dst s r
  | br off => exact ⟨_, branchIf_decoded (fun _ => true) off s, rfl⟩
  | bne off | beq off | bge off | blt off | bgt off | ble off | bpl off | bmi off | bhi off | blos off | bvc off | bvs off
  | bcc off | bcs off => exact ⟨_, branchIf_decoded _ off s, rfl⟩
  | _ => exact ⟨_, rfl, rfl⟩

/-- Only JSR pushes, so only JSR can find no room on the stack (R263). -/
theorem eq_jsr_of_endStatus {i : Instr} (h : endStatus s i = .faulted .stackOverflow) : ∃ r dst, i = .jsr r dst := by
  cases i with
  | jsr r dst => exact ⟨r, dst, rfl⟩
  | jmp dst =>
    rw [endStatus] at h
    split at h <;> cases h
  | _ => cases h

end meanings

/-- No register byte is among the addresses that are not register-mapped, so a resolve leaves those alone (R60, R110). -/
theorem resolve_peek_of_not_isReg {dst : Specifier} {s : State} (hvalid : s.params.Valid) {a : Word}
    (ha : isReg s.params a = false) : (resolve dst s).2.peek a = s.peek a := by
  refine resolve_peek s fun hstepped => ?_
  obtain ⟨r, hr⟩ := hstepped.inWord
  exact Bool.false_ne_true (ha.symm.trans (isReg_of_inWord_regAddr hvalid hr))

/-- Settles O40: the overflowing JSR answers the resolved state with `STATE` written; a resolve writes only stepped registers. -/
theorem stackOverflowLeavesTheResolvedState : Obligations.StackOverflowLeavesTheResolvedState := by
  constructor
  · intro r dst s hvalid hmode ea hbelow
    obtain ⟨-, -, haddressed⟩ := jsrPushesLinksAndJumps r dst s
    obtain ⟨hoverflow, -⟩ := haddressed hmode
    have hpsw : ea.psw = s.psw := resolve_psw (s.decoded false) hvalid dst
    exact ⟨_, hoverflow hbelow, rfl, rfl, rfl, fun q => resolve_reg (s.decoded false), congrArg flagsOf hpsw, hpsw,
      fun a => resolve_peek_of_not_isReg (s := s.decoded false) hvalid⟩
  · intro i s t hexec hstatus
    obtain ⟨u, hu, hend⟩ := exec_status s i
    obtain rfl : u = t := Host.Outcome.next.inj (hu.symm.trans hexec)
    exact eq_jsr_of_endStatus s (hend.symm.trans hstatus)

/-! ## The step (R140, R266) -/

section cycle

variable {s : State}

theorem terminal_eq_true_iff {status : Status} :
    status.terminal = true ↔ status ∈ [.halted, .waiting, .faulted .illegalInstruction, .faulted .stackOverflow] := by
  rcases status with _ | _ | _ | _ | (_ | _) <;> decide

theorem terminal_eq_false_iff {status : Status} : status.terminal = false ↔ status ∈ [.running, .reset] := by
  rcases status with _ | _ | _ | _ | (_ | _) <;> decide

/-- From a terminal state no step is taken (R140). -/
theorem step_of_terminal (h : s.status.terminal = true) : step s = .next s := if_pos h

/-- A step that fetches an instruction's word is the fetch and the meaning (R140). -/
theorem step_of_instr {i : Instr} (hrun : s.status.terminal = false) (h : decodeWord (s.peekWord (s.reg .pc)) = .instr i) :
    step s = endOutcome (exec i (fetchInstruction s).2) := by
  have hir : decodeWord (fetchInstruction s).1 = .instr i := h
  simp only [step, hrun, Bool.false_eq_true, if_false, decodeAndExecute, hir]

theorem fetchInstruction_params : (fetchInstruction s).2.params = s.params := note_params s .instructionFetch (s.reg .pc)

/-- A step that fetches an instruction's word ends as the meaning does (R140). -/
theorem step_status_of_instr {i : Instr} (hrun : s.status.terminal = false)
    (h : decodeWord (s.peekWord (s.reg .pc)) = .instr i) :
    ∃ t, step s = .next t ∧ t.status = endStatus (fetchInstruction s).2 i := by
  obtain ⟨u, hu, hend⟩ := exec_status (fetchInstruction s).2 i
  exact ⟨endStep u, (step_of_instr hrun h).trans (congrArg endOutcome hu), hend⟩

end cycle

/-- Settles O49: a terminal state stays; from any other the fetched word decides, and an instruction ends as its meaning does. -/
theorem stateDiagram : Obligations.StateDiagram := by
  refine ⟨rfl, fun s => ?_⟩
  rw [← terminal_eq_true_iff, ← terminal_eq_false_iff]
  cases hrun : s.status.terminal with
  | true => exact ⟨s, step_of_terminal hrun, fun _ => rfl, nofun⟩
  | false =>
    cases hword : decodeWord (s.peekWord (s.reg .pc)) with
    | reject why => exact ⟨_, step_of_reject hrun hword, nofun, fun _ => rfl⟩
    | instr i =>
      obtain ⟨t, ht, hend⟩ := step_status_of_instr hrun hword
      refine ⟨t, ht, nofun, fun _ => hend.trans ?_⟩
      cases i with
      | jsr r dst => rw [endStatus, fetchInstruction_params]
      | _ => rfl

end Sys2Proof.Machine
end

section
/-! The statement on the encoding (R80 to R84): decoding the bytes of an encoded instruction. -/

namespace Sys2Proof.Machine

/-- The two bytes of an encoding make its word again (R51). -/
theorem encode_bytes_append (i : Instr) :
    (encodeWord i).extractLsb' 8 8 ++ (encodeWord i).extractLsb' 0 8 = encodeWord i := wordOf_hi_lo (encodeWord i)

/-- Settles O2: the first two bytes are the encoded word, which decodes to its instruction, and the others stay. -/
theorem decodeEncodeRoundTrip : Obligations.DecodeEncodeRoundTrip := by
  intro i rest
  simp only [encode, List.cons_append, List.nil_append, decode, encode_bytes_append, decodeWord_encodeWord]

end Sys2Proof.Machine
end

section
/-! What a part of an instruction changes, as one relation between the state before and the state after it: which bytes may differ,
and that the rest, the trace and `STATE` apart, stays. -/

namespace Sys2Proof.Machine

/-- Between `s` and `t` no byte outside `touched` differs, nor a parameter, `BYTEMODE` or the advisory bit, and the canonical form
is kept. -/
structure ChangesOnly (s t : State) (touched : Word → Prop) : Prop where
  bytes : ∀ a, ¬ touched a → t.peek a = s.peek a
  params : t.params = s.params
  byteMode : t.byteMode = s.byteMode
  advisory : t.advisoryOddPc = s.advisoryOddPc
  memOk : s.memOk → t.memOk

/-- No byte. -/
def noByte : Word → Prop := fun _ => False

namespace ChangesOnly

variable {s t u : State} {touched more : Word → Prop}

theorem refl (s : State) : ChangesOnly s s noByte := ⟨fun _ _ => rfl, rfl, rfl, rfl, id⟩

theorem mono (h : ChangesOnly s t touched) (hsub : ∀ a, touched a → more a) : ChangesOnly s t more :=
  ⟨fun a ha => h.bytes a (mt (hsub a) ha), h.params, h.byteMode, h.advisory, h.memOk⟩

theorem trans (h : ChangesOnly s t touched) (h' : ChangesOnly t u more) : ChangesOnly s u fun a => more a ∨ touched a :=
  ⟨fun a ha => (h'.bytes a (mt .inl ha)).trans (h.bytes a (mt .inr ha)), h'.params.trans h.params,
    h'.byteMode.trans h.byteMode, h'.advisory.trans h.advisory, h'.memOk ∘ h.memOk⟩

/-- `STATE` is not among what the relation compares. -/
theorem withStatus (h : ChangesOnly s t touched) (status : Status) : ChangesOnly s { t with status := status } touched :=
  ⟨h.bytes, h.params, h.byteMode, h.advisory, h.memOk⟩

theorem complete (h : ChangesOnly s t touched) (hend : complete t = .next u) : ChangesOnly s u touched := by
  cases hend
  exact h.withStatus .running

/-- A trace event changes nothing that is compared. -/
theorem note (h : ChangesOnly s t touched) (k : AccessKind) (a : Word) : ChangesOnly s (t.note k a) touched :=
  ⟨fun c hc => (note_peek t k a c).trans (h.bytes c hc), by simp [h.params], by simp [h.byteMode], by simp [h.advisory],
    fun hs => memOk_note (h.memOk hs) k a⟩

theorem peekWord (h : ChangesOnly s t touched) {w : Word} (hw : ∀ a, InWord a w → ¬ touched a) :
    t.peekWord w = s.peekWord w := peekWord_congr (h.bytes _ (hw _ (.inl rfl))) (h.bytes _ (hw _ (.inr rfl)))

theorem reg (h : ChangesOnly s t touched) {r : Reg} (hr : ∀ a, InWord a (regAddr s.params r) → ¬ touched a) :
    t.reg r = s.reg r := by
  rw [State.reg, h.params, h.peekWord hr, State.reg]

theorem psw (h : ChangesOnly s t touched) (hw : ∀ a, InWord a s.params.pswAddr → ¬ touched a) : t.psw = s.psw := by
  rw [State.psw, h.params, h.peekWord hw, State.psw]

theorem keeps {b : Bool} (h : ChangesOnly (s.decoded b) t touched) : Keeps s t b touched where
  bytes a ha _ := h.bytes a ha
  registers _ hr := h.reg hr
  pswRest hw i _ := congrArg (BitVec.getLsbD · i) (h.psw hw)
  params := h.params
  advisory := h.advisory
  byteMode := h.byteMode

end ChangesOnly

/-! ## What each operation changes -/

variable (s : State)

/-- An event before an operation adds nothing to what the operation changes. -/
theorem ChangesOnly.after_note {s t : State} {touched : Word → Prop} {k : AccessKind} {a : Word}
    (h : ChangesOnly (s.note k a) t touched) : ChangesOnly s t touched :=
  ⟨fun c hc => (h.bytes c hc).trans (note_peek s k a c), h.params.trans (note_params s k a),
    h.byteMode.trans (note_byteMode s k a), h.advisory.trans (note_advisory s k a), fun hs => h.memOk (memOk_note hs k a)⟩

theorem changesOnly_note (k : AccessKind) (a : Word) : ChangesOnly s (s.note k a) noByte := (ChangesOnly.refl s).note k a

theorem changesOnly_setReg (r : Reg) (v : Word) : ChangesOnly s (s.setReg r v) (InWord · (regAddr s.params r)) :=
  ⟨fun _ ha => peek_setReg_outside s ha, rfl, rfl, rfl, fun hs => memOk_setReg hs r v⟩

theorem changesOnly_setPsw (v : Word) : ChangesOnly s (s.setPsw v) (InWord · s.params.pswAddr) :=
  ⟨fun _ ha => peek_pokeWord_outside s ha, rfl, rfl, rfl, fun hs => memOk_setPsw hs v⟩

theorem changesOnly_memWriteWord (a v : Word) : ChangesOnly s (memWriteWord a v s) (InWord · a) :=
  ⟨fun _ hc => peek_memWriteWord_outside s hc, memWriteWord_params s a v, memWriteWord_byteMode s a v,
    memWriteWord_advisory s a v, fun hs => memOk_memWriteWord hs a v⟩

/-- The bytes an operand write at `a` names: the word where the write extends the sign, else the byte (R128). -/
def OperandBytes (extend : Bool) (a c : Word) : Prop := if extend = true then InWord c a else c = a

theorem operandBytes_false {a c : Word} : OperandBytes false a c ↔ c = a := by simp [OperandBytes]
theorem operandBytes_true {a c : Word} : OperandBytes true a c ↔ InWord c a := by simp [OperandBytes]

theorem peek_opWriteByte_outside {extend : Bool} {a c : Word} (h : ¬ OperandBytes extend a c) (b : Byte) :
    (opWriteByte extend a b s).peek c = s.peek c := by
  cases extend with
  | false => rw [peek_opWriteByte, if_neg (mt operandBytes_false.mpr h)]
  | true =>
    obtain ⟨hlo, hhi⟩ := not_or.mp (mt operandBytes_true.mpr h)
    cases hreg : isReg s.params a with
    | true => rw [peek_opWriteByte_sext s hreg, if_neg hhi, if_neg hlo]
    | false => rw [opWriteByte_of_not_isReg s hreg, peek_memWriteByte, if_neg hlo]

theorem changesOnly_opWriteByte (extend : Bool) (a : Word) (b : Byte) :
    ChangesOnly s (opWriteByte extend a b s) (OperandBytes extend a) :=
  ⟨fun _ hc => peek_opWriteByte_outside s hc b, opWriteByte_params s extend a b, opWriteByte_byteMode s extend a b,
    opWriteByte_advisory s extend a b, fun hs => memOk_opWriteByte hs extend a b⟩

theorem changesOnly_opWriteByte_false (a : Word) (b : Byte) : ChangesOnly s (opWriteByte false a b s) (· = a) :=
  (changesOnly_opWriteByte s false a b).mono fun _ => operandBytes_false.mp

theorem changesOnly_resolve (d : Specifier) : ChangesOnly s (resolve d s).2 (Stepped d s.params) :=
  ⟨fun _ ha => resolve_peek s ha, resolve_params s d, resolve_byteMode s d, resolve_advisory s d, fun hs => memOk_resolve hs d⟩

theorem changesOnly_sourceWord (src : Specifier) : ChangesOnly s (sourceWord src s).2 (Stepped src s.params) :=
  (changesOnly_resolve s src).note .read _

theorem changesOnly_sourceByte (src : Specifier) : ChangesOnly s (sourceByte src s).2 (Stepped src s.params) := by
  rw [sourceByte, opReadByte_snd]
  exact (changesOnly_resolve s src).note .read _

/-- The bytes that resolving two specifiers may change. -/
def EitherStepped (src dst : Specifier) (p : Params) (a : Word) : Prop := Stepped src p a ∨ Stepped dst p a

theorem changesOnly_destinationWord (src dst : Specifier) :
    ChangesOnly (s.decoded false) (destinationWord src dst s).2 (EitherStepped src dst s.params) := by
  have hdst := changesOnly_resolve (sourceWord src (s.decoded false)).2 dst
  rw [sourceWord_params] at hdst
  exact ((changesOnly_sourceWord (s.decoded false) src).trans hdst).mono fun _ => Or.symm

theorem changesOnly_destinationByte (src dst : Specifier) :
    ChangesOnly (s.decoded true) (destinationByte src dst s).2 (EitherStepped src dst s.params) := by
  have hdst := changesOnly_resolve (sourceByte src (s.decoded true)).2 dst
  rw [sourceByte_params] at hdst
  exact ((changesOnly_sourceByte (s.decoded true) src).trans hdst).mono fun _ => Or.symm

theorem EitherStepped.not_psw {src dst : Specifier} {p : Params} (hv : p.Valid) {a : Word} (ha : InWord a p.pswAddr) :
    ¬ EitherStepped src dst p a := by
  rintro (hsrc | hdst)
  · exact hsrc.not_psw hv ha
  · exact hdst.not_psw hv ha

theorem destinationWord_flags (hv : s.params.Valid) (src dst : Specifier) : (destinationWord src dst s).2.flags = s.flags :=
  congrArg flagsOf ((changesOnly_destinationWord s src dst).psw fun _ => EitherStepped.not_psw hv)

theorem destinationByte_flags (hv : s.params.Valid) (src dst : Specifier) : (destinationByte src dst s).2.flags = s.flags :=
  congrArg flagsOf ((changesOnly_destinationByte s src dst).psw fun _ => EitherStepped.not_psw hv)

theorem resolve_flags (hv : s.params.Valid) (dst : Specifier) : (resolve dst s).2.flags = s.flags :=
  congrArg flagsOf (resolve_psw s hv dst)

/-- The state after both resolves and the read of the source, at either width. -/
def afterResolves (byte : Bool) (src dst : Specifier) : State :=
  if byte then (destinationByte src dst s).2 else (destinationWord src dst s).2

theorem changesOnly_afterResolves (byte : Bool) (src dst : Specifier) :
    ChangesOnly (s.decoded byte) (afterResolves s byte src dst) (EitherStepped src dst s.params) := by
  cases byte with
  | false => exact changesOnly_destinationWord s src dst
  | true => exact changesOnly_destinationByte s src dst

theorem afterResolves_flags (hv : s.params.Valid) (byte : Bool) (src dst : Specifier) :
    (afterResolves s byte src dst).flags = s.flags :=
  congrArg flagsOf ((changesOnly_afterResolves s byte src dst).psw fun _ => EitherStepped.not_psw hv)

end Sys2Proof.Machine
end

section
/-! How the data instructions end: a resolve, a data write, and a flag write-back (R143, R160, R180). -/

namespace Sys2Proof.Machine

/-- From `d`, the state after the resolves, an instruction ends in `t`: a data write that changes only `written`, then the flags, C
left alone where `keepsCarry` holds (R143, R148). -/
def DataEnd (d t : State) (written : Word → Prop) (keepsCarry : Prop) : Prop :=
  ∃ (u : State) (f : FlagUpdate), ChangesOnly d u written ∧ complete (u.setFlags f) = .next t ∧ (keepsCarry → f.c = none)

namespace DataEnd

variable {s d t : State} {written stepped : Word → Prop} {keepsCarry : Prop} {b : Bool}

theorem mono {fewer : Prop} (h : DataEnd d t written keepsCarry) (hsub : fewer → keepsCarry) : DataEnd d t written fewer :=
  let ⟨u, f, hwrite, hend, hcarry⟩ := h
  ⟨u, f, hwrite, hend, hcarry ∘ hsub⟩

/-- The flag write-back adds the status word to what the data write changes. -/
theorem changesOnly (h : DataEnd d t written keepsCarry) :
    ChangesOnly d t fun a => InWord a d.params.pswAddr ∨ written a := by
  obtain ⟨u, f, hwrite, hend, -⟩ := h
  have hflags := changesOnly_setPsw u (f.apply u.psw)
  rw [hwrite.params] at hflags
  exact (hwrite.trans hflags).complete hend

theorem keeps (h : DataEnd d t written keepsCarry) (hv : s.params.Valid) (hd : ChangesOnly (s.decoded b) d stepped) :
    Keeps s t b fun a => written a ∨ stepped a := by
  obtain ⟨u, f, hwrite, hend, -⟩ := h
  obtain ⟨t', ht', hends⟩ := endsWith_setFlags u f
  obtain rfl : t' = t := Host.Outcome.next.inj (ht'.symm.trans hend)
  have hu := hd.trans hwrite
  exact keeps_of_endsWith hv hends hu.params hu.advisory hu.byteMode hu.bytes

theorem keeps_of_noByte (h : DataEnd d t noByte keepsCarry) (hv : s.params.Valid)
    (hd : ChangesOnly (s.decoded b) d stepped) : Keeps s t b stepped := by
  have hkeeps := h.keeps hv hd
  simp only [noByte, false_or] at hkeeps
  exact hkeeps

/-- C stays where the update does not name it and the data write is not on the status word. -/
theorem carry (h : DataEnd d t written keepsCarry) (hkeeps : keepsCarry)
    (hout : ∀ a, InWord a d.params.pswAddr → ¬ written a) : t.flags.c = d.flags.c := by
  obtain ⟨u, f, hwrite, hend, hcarry⟩ := h
  cases hend
  have hflags : (u.setFlags f).flags.c = u.flags.c := by
    rw [flags_setFlags, Flags.updated, hcarry hkeeps, Option.getD_none]
  exact hflags.trans (congrArg (fun w => (flagsOf w).c) (hwrite.psw hout))

/-- A register apart from the data write stays. -/
theorem reg (h : DataEnd d t written keepsCarry) (hv : d.params.Valid) {r : Reg}
    (hout : ∀ a, InWord a (regAddr d.params r) → ¬ written a) : t.reg r = d.reg r :=
  h.changesOnly.reg fun a ha => not_or.mpr ⟨regAddr_apart_psw hv r a ha, hout a ha⟩

end DataEnd

/-! ## The orders of the data instructions (R160, R180) -/

section orders

variable {src dst : Specifier} {s t : State}

theorem moveWord_dataEnd (h : moveWord src dst (s.decoded false) = .next t) :
    DataEnd (destinationWord src dst s).2 t (InWord · (destinationWord src dst s).1) True :=
  ⟨_, _, changesOnly_memWriteWord _ _ _, h, fun _ => rfl⟩

theorem moveByte_dataEnd (h : moveByte src dst (s.decoded true) = .next t) :
    DataEnd (destinationByte src dst s).2 t (OperandBytes (movbExtends s dst) (destinationByte src dst s).1) True :=
  ⟨_, _, changesOnly_opWriteByte _ _ _ _, h, fun _ => rfl⟩

theorem compareWord_dataEnd {cc : Word → Word → FlagUpdate} (h : compareWord cc src dst (s.decoded false) = .next t) :
    DataEnd (destinationWord src dst s).2 t noByte (∀ x y, (cc x y).c = none) :=
  ⟨_, _, changesOnly_note _ _ _, h, fun hcc => hcc _ _⟩

theorem compareByte_dataEnd {cc : Byte → Byte → FlagUpdate} (h : compareByte cc src dst (s.decoded true) = .next t) :
    DataEnd (destinationByte src dst s).2 t noByte (∀ x y, (cc x y).c = none) := by
  unfold compareByte at h
  simp only [opReadByte_snd] at h
  exact ⟨_, _, changesOnly_note _ _ _, h, fun hcc => hcc _ _⟩

theorem binaryWord_dataEnd {op : Word → Word → Word × FlagUpdate} (h : binaryWord op src dst (s.decoded false) = .next t) :
    DataEnd (destinationWord src dst s).2 t (InWord · (destinationWord src dst s).1) (∀ x y, (op x y).2.c = none) :=
  ⟨_, _, (changesOnly_memWriteWord _ _ _).after_note, h, fun hop => hop _ _⟩

theorem binaryByte_dataEnd {op : Byte → Byte → Byte × FlagUpdate} (h : binaryByte op src dst (s.decoded true) = .next t) :
    DataEnd (destinationByte src dst s).2 t (· = (destinationByte src dst s).1) (∀ x y, (op x y).2.c = none) := by
  simp only [binaryByte, opReadByte_snd] at h
  exact ⟨_, _, (changesOnly_opWriteByte_false _ _ _).after_note, h, fun hop => hop _ _⟩

theorem clearWord_dataEnd (h : clearWord dst s = .next t) :
    DataEnd (resolve dst s).2 t (InWord · (resolve dst s).1) False :=
  ⟨_, _, changesOnly_memWriteWord _ _ _, h, False.elim⟩

theorem clearByte_dataEnd (h : clearByte dst s = .next t) : DataEnd (resolve dst s).2 t (· = (resolve dst s).1) False :=
  ⟨_, _, changesOnly_opWriteByte_false _ _ _, h, False.elim⟩

theorem testWord_dataEnd {cc : Word → FlagUpdate} (h : testWord cc dst s = .next t) :
    DataEnd (resolve dst s).2 t noByte False :=
  ⟨_, _, changesOnly_note _ _ _, h, False.elim⟩

theorem testByte_dataEnd {cc : Byte → FlagUpdate} (h : testByte cc dst s = .next t) :
    DataEnd (resolve dst s).2 t noByte False := by
  simp only [testByte, opReadByte_snd] at h
  exact ⟨_, _, changesOnly_note _ _ _, h, False.elim⟩

theorem unaryWord_dataEnd {op : Word → Word × FlagUpdate} (h : unaryWord op dst s = .next t) :
    DataEnd (resolve dst s).2 t (InWord · (resolve dst s).1) (∀ y, (op y).2.c = none) :=
  ⟨_, _, (changesOnly_memWriteWord _ _ _).after_note, h, fun hop => hop _⟩

theorem unaryByte_dataEnd {op : Byte → Byte × FlagUpdate} (h : unaryByte op dst s = .next t) :
    DataEnd (resolve dst s).2 t (· = (resolve dst s).1) (∀ y, (op y).2.c = none) := by
  simp only [unaryByte, opReadByte_snd] at h
  exact ⟨_, _, (changesOnly_opWriteByte_false _ _ _).after_note, h, fun hop => hop _⟩

end orders

/-! ## The data instructions by the address they store at (R161 to R172, R181 to R197) -/

section instructions

variable {src dst : Specifier} {s t : State} {i : Instr}

theorem exec_wordPair_dataEnd (h : exec i s = .next t)
    (hi : i ∈ [.mov src dst, .bic src dst, .bis src dst, .add src dst, .sub src dst]) :
    DataEnd (destinationWord src dst s).2 t (InWord · (destinationWord src dst s).1)
      (i ∈ [.mov src dst, .bic src dst, .bis src dst]) := by
  simp only [List.mem_cons, List.not_mem_nil, or_false] at hi
  rcases hi with rfl | rfl | rfl | rfl | rfl
  · exact (moveWord_dataEnd h).mono fun _ => trivial
  · exact (binaryWord_dataEnd h).mono fun _ _ _ => rfl
  · exact (binaryWord_dataEnd h).mono fun _ _ _ => rfl
  · exact (binaryWord_dataEnd h).mono fun hmem => by simp at hmem
  · exact (binaryWord_dataEnd h).mono fun hmem => by simp at hmem

theorem exec_wordSingle_dataEnd (h : exec i s = .next t)
    (hi : i ∈ [.clr dst, .com dst, .inc dst, .dec dst, .neg dst, .adc dst, .sbc dst, .swab dst]) :
    DataEnd (resolve dst (s.decoded false)).2 t (InWord · (resolve dst (s.decoded false)).1)
      (i ∈ [.inc dst, .dec dst]) := by
  simp only [List.mem_cons, List.not_mem_nil, or_false] at hi
  rcases hi with rfl | rfl | rfl | rfl | rfl | rfl | rfl | rfl
  · exact (clearWord_dataEnd h).mono fun hmem => by simp at hmem
  · exact (unaryWord_dataEnd h).mono fun hmem => by simp at hmem
  · exact (unaryWord_dataEnd h).mono fun _ _ => rfl
  · exact (unaryWord_dataEnd h).mono fun _ _ => rfl
  all_goals exact (unaryWord_dataEnd h).mono fun hmem => by simp at hmem

theorem exec_bytePair_dataEnd (h : exec i s = .next t) (hi : i ∈ [.bicb src dst, .bisb src dst]) :
    DataEnd (destinationByte src dst s).2 t (· = (destinationByte src dst s).1) True := by
  simp only [List.mem_cons, List.not_mem_nil, or_false] at hi
  rcases hi with rfl | rfl
  · exact (binaryByte_dataEnd h).mono fun _ _ _ => rfl
  · exact (binaryByte_dataEnd h).mono fun _ _ _ => rfl

theorem exec_byteSingle_dataEnd (h : exec i s = .next t)
    (hi : i ∈ [.clrb dst, .comb dst, .incb dst, .decb dst, .negb dst, .adcb dst, .sbcb dst]) :
    DataEnd (resolve dst (s.decoded true)).2 t (· = (resolve dst (s.decoded true)).1) (i ∈ [.incb dst, .decb dst]) := by
  simp only [List.mem_cons, List.not_mem_nil, or_false] at hi
  rcases hi with rfl | rfl | rfl | rfl | rfl | rfl | rfl
  · exact (clearByte_dataEnd h).mono fun hmem => by simp at hmem
  · exact (unaryByte_dataEnd h).mono fun hmem => by simp at hmem
  · exact (unaryByte_dataEnd h).mono fun _ _ => rfl
  · exact (unaryByte_dataEnd h).mono fun _ _ => rfl
  all_goals exact (unaryByte_dataEnd h).mono fun hmem => by simp at hmem

theorem exec_compare_dataEnd (h : exec i s = .next t) (hi : i ∈ [.cmp src dst, .bit src dst, .cmpb src dst, .bitb src dst]) :
    DataEnd (afterResolves s i.isByte src dst) t noByte (i ∈ [.bit src dst, .bitb src dst]) := by
  simp only [List.mem_cons, List.not_mem_nil, or_false] at hi
  rcases hi with rfl | rfl | rfl | rfl
  · exact (compareWord_dataEnd h).mono fun hmem => by simp at hmem
  · exact (compareWord_dataEnd h).mono fun _ _ _ => rfl
  · exact (compareByte_dataEnd h).mono fun hmem => by simp at hmem
  · exact (compareByte_dataEnd h).mono fun _ _ _ => rfl

theorem exec_test_dataEnd (h : exec i s = .next t) (hi : i ∈ [.tst dst, .tstb dst]) :
    DataEnd (resolve dst (s.decoded i.isByte)).2 t noByte False := by
  simp only [List.mem_cons, List.not_mem_nil, or_false] at hi
  rcases hi with rfl | rfl
  · exact testWord_dataEnd h
  · exact testByte_dataEnd h

/-- MOVB's write stays off a word that holds neither its address nor, where it extends the sign, the destination register. -/
theorem movb_bytes_off_word {w : Word} (hout : ¬ InWord (destinationByte src dst s).1 w)
    (hreg : Apart w (regAddr s.params dst.reg) ∨ dst.mode ≠ .register) {a : Word} (ha : InWord a w) :
    ¬ OperandBytes (movbExtends s dst) (destinationByte src dst s).1 a := by
  cases hext : movbExtends s dst with
  | false =>
    rw [operandBytes_false]
    rintro rfl
    exact hout ha
  | true =>
    obtain ⟨-, hmode⟩ := (movbExtends_iff s dst).mp hext
    have haddr : (destinationByte src dst s).1 = regAddr s.params dst.reg := by simp [destinationByte, resolve, hmode]
    rw [operandBytes_true, haddr]
    exact hreg.resolve_right (not_not_intro hmode) a ha

end instructions

/-- Settles O41: what the data write and the resolves change, and C where the update leaves it. -/
theorem wordStoresTouchOnlyTheDestination : Obligations.WordStoresTouchOnlyTheDestination := by
  intro src dst s t i hv h
  refine ⟨fun hi => ?_, fun hi hout => ?_, fun hi => ?_, fun hi hout => ?_⟩
  · exact (exec_wordPair_dataEnd h hi).keeps hv (changesOnly_destinationWord s src dst)
  · have hpair : i ∈ [.mov src dst, .bic src dst, .bis src dst, .add src dst, .sub src dst] := by
      simp only [List.mem_cons] at hi ⊢
      grind
    rw [(exec_wordPair_dataEnd h hpair).carry hi (by rwa [destinationWord_params]), destinationWord_flags s hv]
  · exact (exec_wordSingle_dataEnd h hi).keeps hv (changesOnly_resolve (s.decoded false) dst)
  · have hsingle : i ∈ [.clr dst, .com dst, .inc dst, .dec dst, .neg dst, .adc dst, .sbc dst, .swab dst] := by
      simp only [List.mem_cons] at hi ⊢
      grind
    rw [(exec_wordSingle_dataEnd h hsingle).carry hi (by rwa [resolve_params]), resolve_flags (s.decoded false) hv,
      decoded_flags]

/-- Settles O42: as for the words, with MOVB's write as wide as its sign extension makes it. -/
theorem byteStoresTouchOnlyTheDestination : Obligations.ByteStoresTouchOnlyTheDestination := by
  intro src dst s t i hv h
  refine ⟨?_, fun hi => ?_, fun hi hout => ?_, fun hi => ?_, fun hi hout => ?_⟩
  · rintro rfl
    have hkeeps := (moveByte_dataEnd h).keeps hv (changesOnly_destinationByte s src dst)
    simp only [OperandBytes, movbExtends_iff] at hkeeps
    exact hkeeps
  · exact (exec_bytePair_dataEnd h hi).keeps hv (changesOnly_destinationByte s src dst)
  · rw [← destinationByte_flags s hv src dst]
    rcases List.mem_cons.mp hi with rfl | hpair
    · refine (moveByte_dataEnd h).carry trivial fun a ha => ?_
      rw [destinationByte_params] at ha
      exact movb_bytes_off_word hout (.inl (regAddr_apart_psw hv dst.reg).symm) ha
    · refine (exec_bytePair_dataEnd h hpair).carry trivial ?_
      rw [destinationByte_params]
      rintro a ha rfl
      exact hout ha
  · exact (exec_byteSingle_dataEnd h hi).keeps hv (changesOnly_resolve (s.decoded true) dst)
  · have hsingle : i ∈ [.clrb dst, .comb dst, .incb dst, .decb dst, .negb dst, .adcb dst, .sbcb dst] := by
      simp only [List.mem_cons] at hi ⊢
      grind
    rw [← decoded_flags s true, ← resolve_flags (s.decoded true) hv dst]
    refine (exec_byteSingle_dataEnd h hsingle).carry hi ?_
    rw [resolve_params]
    rintro a ha rfl
    exact hout ha

/-- Settles O43: no data write, so only the resolves and the flags change anything. -/
theorem comparesStoreNothing : Obligations.ComparesStoreNothing := by
  intro src dst s t i hv h
  refine ⟨fun hi => ?_, fun hi => ?_, fun hi => ?_⟩
  · exact (exec_compare_dataEnd h hi).keeps_of_noByte hv (changesOnly_afterResolves s i.isByte src dst)
  · have hcompare : i ∈ [.cmp src dst, .bit src dst, .cmpb src dst, .bitb src dst] := by
      simp only [List.mem_cons] at hi ⊢
      grind
    rw [(exec_compare_dataEnd h hcompare).carry hi fun _ _ => id, afterResolves_flags s hv]
  · exact (exec_test_dataEnd h hi).keeps_of_noByte hv (changesOnly_resolve (s.decoded i.isByte) dst)

end Sys2Proof.Machine
end

section
/-! The statements on the resolver and the registers as a whole (R22 to R30, R86, R110 to R124). -/

namespace Sys2Proof.Machine

variable (s : State)

/-! ## `pc` after a resolve (R86, R113) -/

theorem setReg_pc (r : Reg) (v : Word) : (s.setReg r v).reg .pc = if r = .pc then v else s.reg .pc := by
  split
  next hr => rw [hr, reg_setReg]
  next hr => exact reg_setReg_ne s (Ne.symm hr) v

/-- Settles O7: the register each mode writes is `pc` or leaves `pc` alone. -/
theorem extensionWordsConsumed : Obligations.ExtensionWordsConsumed := by
  rintro ⟨mode, r⟩ s
  cases mode with
  | register => simp [resolve_register, Specifier.extensionWords]
  | deferred => simp [resolve_deferred, Specifier.extensionWords]
  | autoInc => by_cases hr : r = .pc <;> simp [resolve_autoInc, setReg_pc, raisedReg, Specifier.extensionWords, hr]
  | autoIncDeferred =>
    by_cases hr : r = .pc <;> simp [resolve_autoIncDeferred, setReg_pc, raisedReg, Specifier.extensionWords, hr]
  | autoDec => by_cases hr : r = .pc <;> simp [resolve_autoDec, setReg_pc, loweredReg, Specifier.extensionWords, hr]
  | autoDecDeferred =>
    by_cases hr : r = .pc <;> simp [resolve_autoDecDeferred, setReg_pc, loweredReg, Specifier.extensionWords, hr]
  | indexed => simp [resolve_indexed, Specifier.extensionWords]
  | indexedDeferred => simp [resolve_indexedDeferred, Specifier.extensionWords]

/-! ## The program-counter column (R121) -/

/-- Settles O17: the equation of each mode with register 7. -/
theorem resolveWithRegisterSeven : Obligations.ResolveWithRegisterSeven := by
  intro s P k at'
  refine ⟨rfl, rfl, ?_, ?_, ?_, ?_, ?_, ?_⟩
  · simp [at', P, resolve_autoInc, raisedReg]
  · simp [at', P, resolve_autoIncDeferred, raisedReg]
  · simp [at', P, k, resolve_autoDec, loweredReg]
  · simp [at', P, k, resolve_autoDecDeferred, loweredReg]
  · simp [at', P, resolve_indexed, indexedAddr]
  · simp [at', P, resolve_indexedDeferred, indexedAddr, advancePc]

/-! ## The frame of the resolver (R110, R124, R149) -/

/-- The accesses of a resolve are reads: none, that of a pointer, that of an extension word, or both (R112). -/
theorem resolve_accesses (d : Specifier) :
    ∃ accesses, (resolve d s).2.trace = s.trace ++ visible s.params accesses ∧ ∀ e ∈ accesses, e.kind = .read := by
  obtain ⟨mode, r⟩ := d
  cases mode with
  | register => exact ⟨[], by simp [resolve_register]⟩
  | deferred => exact ⟨[], by simp [resolve_deferred]⟩
  | autoInc => exact ⟨[], by simp [resolve_autoInc]⟩
  | autoIncDeferred => exact ⟨[⟨.read, s.reg r⟩], by simp [resolve_autoIncDeferred, note_trace]⟩
  | autoDec => exact ⟨[], by simp [resolve_autoDec]⟩
  | autoDecDeferred => exact ⟨[⟨.read, loweredReg s r⟩], by simp [resolve_autoDecDeferred, note_trace]⟩
  | indexed => exact ⟨[⟨.read, s.reg .pc⟩], by simp [resolve_indexed, note_trace]⟩
  | indexedDeferred =>
    refine ⟨[⟨.read, s.reg .pc⟩] ++ [⟨.read, indexedAddr s r⟩], ?_, by simp⟩
    rw [visible_append, ← List.append_assoc]
    simp [resolve_indexedDeferred, note_trace]

/-- Settles O18: the resolver's laws, and its accesses being reads of which the register-mapped ones are silent. -/
theorem resolveFrame : Obligations.ResolveFrame := by
  intro d s
  obtain ⟨accesses, htrace, hread⟩ := resolve_accesses s d
  refine ⟨fun a => resolve_peek s, fun r => resolve_reg s,
    fun hv => ⟨resolve_psw s hv d, fun a => resolve_peek_of_not_isReg hv⟩, resolve_params s d, resolve_byteMode s d,
    resolve_status s d, resolve_advisory s d, _, htrace, fun e he => ?_⟩
  obtain ⟨hmem, hvisible⟩ := List.mem_filter.mp he
  exact ⟨hread e hmem, by simpa using hvisible⟩

/-! ## Registers and status word (R22, R23, R25, R30, R60) -/

/-- With the range in its place no register address wraps (R7, R22). -/
theorem regAddr_toNat {p : Params} (hv : p.Valid) (r : Reg) : (regAddr p r).toNat = p.regBase.toNat + 2 * regNumber r := by
  have hlast := hv.regHigh
  have hnumber := regNumber_lt r
  rw [regAddr, BitVec.toNat_add, BitVec.toNat_ofNat]
  omega

/-- Settles O10: registers and status word are words apart from each other. -/
theorem registersAreSeparateWordsOfMemory : Obligations.RegistersAreSeparateWordsOfMemory := by
  intro s r v hv
  exact ⟨regAddr_toNat hv r, isReg_regAddr hv r, isReg_of_inWord_regAddr hv (.inr rfl), rfl, reg_setReg s r v,
    fun q hq => reg_setReg_ne s hq v, psw_setReg s hv r v, fun a => peek_setReg_outside s, setReg_trace s r v,
    psw_setPsw s v, fun q => reg_setPsw s hv v q, fun a => peek_pokeWord_outside s, setPsw_trace s v⟩

/-! ## `pc` after the data instructions (R27, R86, R160) -/

/-- The specifier decrements register 7, the one way a resolve moves `pc` back (R117). -/
def DecrementsPc (d : Specifier) : Prop := d.reg = .pc ∧ (d.mode = .autoDec ∨ d.mode = .autoDecDeferred)

theorem resolve_pc {d : Specifier} (hd : ¬ DecrementsPc d) :
    (resolve d s).2.reg .pc = s.reg .pc + BitVec.ofNat 16 (2 * d.extensionWords) :=
  (extensionWordsConsumed d s).trans (if_neg hd)

/-- Both specifiers of a double-operand instruction consume their extension words in turn. -/
theorem resolve_pc_twice {src dst : Specifier} {t u : State} (hsrc : ¬ DecrementsPc src) (hdst : ¬ DecrementsPc dst)
    (ht : t.reg .pc = (resolve src s).2.reg .pc) (hu : u = (resolve dst t).2) :
    u.reg .pc = s.reg .pc + BitVec.ofNat 16 (2 * (src.extensionWords + dst.extensionWords)) := by
  rw [hu, resolve_pc t hdst, ht, resolve_pc s hsrc, BitVec.add_assoc, ← BitVec.ofNat_add, ← Nat.mul_add]

section pairs

variable {src dst : Specifier} (hsrc : ¬ DecrementsPc src) (hdst : ¬ DecrementsPc dst)
include hsrc hdst

theorem destinationWord_pc : (destinationWord src dst s).2.reg .pc =
    s.reg .pc + BitVec.ofNat 16 (2 * (src.extensionWords + dst.extensionWords)) :=
  resolve_pc_twice (s.decoded false) hsrc hdst (by simp [sourceWord]) rfl

theorem destinationByte_pc : (destinationByte src dst s).2.reg .pc =
    s.reg .pc + BitVec.ofNat 16 (2 * (src.extensionWords + dst.extensionWords)) :=
  resolve_pc_twice (s.decoded true) hsrc hdst (by simp [sourceByte]) rfl

theorem afterResolves_pc (byte : Bool) : (afterResolves s byte src dst).reg .pc =
    s.reg .pc + BitVec.ofNat 16 (2 * (src.extensionWords + dst.extensionWords)) := by
  cases byte with
  | false => exact destinationWord_pc s hsrc hdst
  | true => exact destinationByte_pc s hsrc hdst

end pairs

theorem length_sub_two (i : Instr) : i.length - 2 = 2 * i.extensionWords := Nat.add_sub_cancel_left 2 _

/-- The extension words of an instruction from those of a list that has the same number of them throughout. -/
theorem extensionWords_of_mem {l : List Instr} {n : Nat} (hl : l.map Instr.extensionWords = List.replicate l.length n)
    {i : Instr} (hi : i ∈ l) : i.extensionWords = n :=
  List.eq_of_mem_replicate (hl ▸ List.mem_map_of_mem hi)

section moveOn

variable {src dst : Specifier} {t : State} {i : Instr} {written : Word → Prop} {keepsCarry : Prop} {b : Bool}
variable (hv : s.params.Valid) (hdst : ¬ DecrementsPc dst)
include hv hdst

/-- After two specifiers and a data write apart from `pc`, `pc` is past the extension words of both. -/
theorem DataEnd.pc_of_pair (h : DataEnd (afterResolves s b src dst) t written keepsCarry) (hsrc : ¬ DecrementsPc src)
    (hout : ∀ a, InWord a (regAddr s.params .pc) → ¬ written a)
    (hi : i.extensionWords = src.extensionWords + dst.extensionWords) :
    t.reg .pc = s.reg .pc + BitVec.ofNat 16 (i.length - 2) := by
  have hparams := (changesOnly_afterResolves s b src dst).params
  rw [length_sub_two, hi, ← afterResolves_pc s hsrc hdst b]
  exact h.reg (hparams ▸ hv) (hparams ▸ hout)

/-- After one specifier and a data write apart from `pc`, `pc` is past its extension words. -/
theorem DataEnd.pc_of_single (h : DataEnd (resolve dst (s.decoded b)).2 t written keepsCarry)
    (hout : ∀ a, InWord a (regAddr s.params .pc) → ¬ written a) (hi : i.extensionWords = dst.extensionWords) :
    t.reg .pc = s.reg .pc + BitVec.ofNat 16 (i.length - 2) := by
  have hparams := (changesOnly_resolve (s.decoded b) dst).params
  rw [length_sub_two, hi, ← decoded_reg s b, ← resolve_pc (s.decoded b) hdst]
  exact h.reg (hparams ▸ hv) (hparams ▸ hout)

end moveOn

/-- Settles O54: `pc` is as the resolves left it, past the extension words of each specifier. -/
theorem dataInstructionsMoveOnByTheirLength : Obligations.DataInstructionsMoveOnByTheirLength := by
  intro src dst s t i hv h hsrc hdst hi
  rcases hi with hi | ⟨hi, hout⟩ | ⟨hi, hout⟩ | ⟨hi, hout⟩ | ⟨hi, hout⟩
  · have hsplit : i ∈ [Instr.cmp src dst, Instr.cmpb src dst, Instr.bit src dst, Instr.bitb src dst] ++
        [Instr.tst dst, Instr.tstb dst] := hi
    rcases List.mem_append.mp hsplit with hcompare | htest
    · have horder : i ∈ [.cmp src dst, .bit src dst, .cmpb src dst, .bitb src dst] :=
        ((List.Perm.swap _ _ _).cons _).mem_iff.mp hcompare
      exact (exec_compare_dataEnd h horder).pc_of_pair s hv hdst hsrc (fun _ _ => id) (extensionWords_of_mem rfl hcompare)
    · exact (exec_test_dataEnd h htest).pc_of_single s hv hdst (fun _ _ => id) (extensionWords_of_mem rfl htest)
  · exact (exec_wordPair_dataEnd h hi).pc_of_pair (b := false) s hv hdst hsrc hout (extensionWords_of_mem rfl hi)
  · exact (exec_wordSingle_dataEnd h hi).pc_of_single s hv hdst hout (extensionWords_of_mem rfl hi)
  · have hwords := extensionWords_of_mem (n := src.extensionWords + dst.extensionWords) rfl hi
    rcases List.mem_cons.mp hi with rfl | hpair
    · have hreg : Apart (regAddr s.params .pc) (regAddr s.params dst.reg) ∨ dst.mode ≠ .register := by
        by_cases hmode : dst.mode = .register
        · refine .inl (regAddr_apart s.params fun hpc => hout (.inl ?_))
          simp [destinationByte, resolve, hmode, ← hpc]
        · exact .inr hmode
      exact (moveByte_dataEnd h).pc_of_pair (b := true) s hv hdst hsrc (fun _ => movb_bytes_off_word hout hreg) hwords
    · exact (exec_bytePair_dataEnd h hpair).pc_of_pair (b := true) s hv hdst hsrc
        (fun a ha hwritten => hout (hwritten ▸ ha)) hwords
  · exact (exec_byteSingle_dataEnd h hi).pc_of_single s hv hdst (fun a ha hwritten => hout (hwritten ▸ ha))
      (extensionWords_of_mem rfl hi)

end Sys2Proof.Machine
end

section
/-! The statements on what JMP, JSR and RTS leave unchanged and on RTS undoing JSR (R240 to R244). -/

namespace Sys2Proof.Machine

/-! ## The frames of JMP, JSR and RTS (R149, R240 to R243) -/

section frames

variable {r : Reg} {dst : Specifier} {s t : State}

/-- The bytes JMP may change. -/
def JmpBytes (dst : Specifier) (p : Params) (a : Word) : Prop := InWord a (regAddr p .pc) ∨ Stepped dst p a

/-- The bytes JSR may change when it pushes at `slot`. -/
def JsrBytes (r : Reg) (dst : Specifier) (slot : Word) (p : Params) (a : Word) : Prop :=
  InWord a (regAddr p .pc) ∨ InWord a (regAddr p r) ∨ InWord a (regAddr p .sp) ∨ InWord a slot ∨ Stepped dst p a

/-- The bytes RTS may change. -/
def RtsBytes (r : Reg) (p : Params) (a : Word) : Prop :=
  InWord a (regAddr p .pc) ∨ InWord a (regAddr p r) ∨ InWord a (regAddr p .sp)

theorem exec_jmp_changesOnly (h : exec (.jmp dst) s = .next t) : ChangesOnly (s.decoded false) t (JmpBytes dst s.params) := by
  by_cases hmode : dst.mode = .register
  · rw [exec_jmp_register s hmode] at h
    cases h
    exact ((ChangesOnly.refl (s.decoded false)).withStatus _).mono fun _ => False.elim
  · rw [exec_jmp_address s hmode] at h
    have hjump := changesOnly_setReg (resolve dst (s.decoded false)).2 .pc (resolve dst (s.decoded false)).1
    rw [resolve_params] at hjump
    exact ((changesOnly_resolve (s.decoded false) dst).trans hjump).complete h

/-- Where the push of a JSR goes. -/
def jsrSlot (dst : Specifier) (s : State) : Word := (resolve dst (s.decoded false)).2.reg .sp - 2#16

theorem changesOnly_pushWord {v : Word} {u : State} (h : pushWord v s = some u) :
    ChangesOnly s u fun a => InWord a (s.reg .sp - 2#16) ∨ InWord a (regAddr s.params .sp) := by
  obtain ⟨-, rfl⟩ := pushWord_cases s h
  exact (changesOnly_setReg s .sp _).trans (changesOnly_memWriteWord _ _ _)

theorem exec_jsr_changesOnly (h : exec (.jsr r dst) s = .next t) :
    ChangesOnly (s.decoded false) t (JsrBytes r dst (jsrSlot dst s) s.params) := by
  by_cases hmode : dst.mode = .register
  · rw [exec_jsr_register s hmode] at h
    cases h
    exact ((ChangesOnly.refl (s.decoded false)).withStatus _).mono fun _ => False.elim
  have hresolve := changesOnly_resolve (s.decoded false) dst
  cases hpush : pushWord ((resolve dst (s.decoded false)).2.reg r) (resolve dst (s.decoded false)).2 with
  | none =>
    rw [exec_jsr_overflow s hmode hpush] at h
    cases h
    exact (hresolve.withStatus _).mono fun a ha => .inr (.inr (.inr (.inr ha)))
  | some pushed =>
    rw [exec_jsr_pushed s hmode hpush] at h
    have hpushed := hresolve.trans (changesOnly_pushWord hpush)
    have hlink := hpushed.trans (changesOnly_setReg pushed r (pushed.reg .pc))
    have hjump := hlink.trans (changesOnly_setReg _ .pc (resolve dst (s.decoded false)).1)
    refine (hjump.complete h).mono fun a ha => ?_
    simp only [setReg_params, hpushed.params, resolve_params, decoded_params] at ha
    rcases ha with hpc | hr | (hslot | hsp) | hstepped
    · exact .inl hpc
    · exact .inr (.inl hr)
    · exact .inr (.inr (.inr (.inl hslot)))
    · exact .inr (.inr (.inl hsp))
    · exact .inr (.inr (.inr (.inr hstepped)))

theorem exec_rts_changesOnly (h : exec (.rts r) s = .next t) : ChangesOnly (s.decoded false) t (RtsBytes r s.params) := by
  rw [exec_rts] at h
  have hafter : ChangesOnly (s.decoded false) (afterRts r s) (RtsBytes r s.params) := {
    bytes := fun a ha => by
      obtain ⟨hpc, hr, hsp⟩ : ¬ InWord a (regAddr s.params .pc) ∧ ¬ InWord a (regAddr s.params r) ∧
          ¬ InWord a (regAddr s.params .sp) := by simpa only [RtsBytes, not_or] using ha
      exact afterRts_peek s hr hpc hsp
    params := afterRts_params r s
    byteMode := afterRts_byteMode r s
    advisory := afterRts_advisory r s
    memOk := fun hs => memOk_setReg (memOk_setReg (memOk_note (memOk_setReg hs _ _) _ _) _ _) _ _ }
  exact hafter.complete h

/-- No byte that JMP may change is one of the status word. -/
theorem JmpBytes.not_psw {p : Params} (hv : p.Valid) {a : Word} (ha : InWord a p.pswAddr) : ¬ JmpBytes dst p a := by
  rintro (hpc | hstepped)
  · exact regAddr_apart_psw hv .pc a hpc ha
  · exact hstepped.not_psw hv ha

/-- Nor one that JSR may change, where the pushed word is not on it. -/
theorem JsrBytes.not_psw {slot : Word} {p : Params} (hv : p.Valid) (hslot : Apart p.pswAddr slot) {a : Word}
    (ha : InWord a p.pswAddr) : ¬ JsrBytes r dst slot p a := by
  rintro (hpc | hr | hsp | hpushed | hstepped)
  · exact regAddr_apart_psw hv .pc a hpc ha
  · exact regAddr_apart_psw hv r a hr ha
  · exact regAddr_apart_psw hv .sp a hsp ha
  · exact hslot a ha hpushed
  · exact hstepped.not_psw hv ha

theorem RtsBytes.not_psw {p : Params} (hv : p.Valid) {a : Word} (ha : InWord a p.pswAddr) : ¬ RtsBytes r p a := by
  rintro (hpc | hr | hsp)
  · exact regAddr_apart_psw hv .pc a hpc ha
  · exact regAddr_apart_psw hv r a hr ha
  · exact regAddr_apart_psw hv .sp a hsp ha

end frames

/-- Settles O44: the frame of each, and the status word, which is outside the bytes it may change. -/
theorem jumpsTouchOnlyTheirRegisters : Obligations.JumpsTouchOnlyTheirRegisters := by
  intro r dst s t hv
  refine ⟨fun h => ?_, fun h => ?_, fun h => ?_⟩
  · have hjmp := exec_jmp_changesOnly h
    exact ⟨hjmp.keeps, hjmp.psw fun _ => JmpBytes.not_psw hv⟩
  · have hjsr := exec_jsr_changesOnly h
    exact ⟨hjsr.keeps, fun hslot => hjsr.psw fun _ => JsrBytes.not_psw hv hslot⟩
  · have hrts := exec_rts_changesOnly h
    exact ⟨hrts.keeps, hrts.psw fun _ => RtsBytes.not_psw hv⟩

/-! ## Call and return (R244) -/

section callAndReturn

variable {r : Reg} {dst : Specifier} {s t : State}

theorem peekWord_setReg_apart {w : Word} (s : State) (h : Apart w (regAddr s.params r)) (v : Word) :
    (s.setReg r v).peekWord w = s.peekWord w := (changesOnly_setReg s r v).peekWord h

/-- A push off the registers leaves every register but `sp`. -/
theorem pushWord_reg {v : Word} {u : State} (hpush : pushWord v s = some u)
    (hslot : ∀ q, Apart (s.reg .sp - 2#16) (regAddr s.params q)) {q : Reg} (hq : q ≠ .sp) : u.reg q = s.reg q := by
  refine (changesOnly_pushWord hpush).reg fun a ha => not_or.mpr ⟨fun hpushed => hslot q a hpushed ha, ?_⟩
  exact regAddr_apart s.params hq a ha

theorem complete_reg (h : complete s = .next t) (q : Reg) : t.reg q = s.reg q := by
  cases h
  rfl

theorem complete_peekWord (h : complete s = .next t) (a : Word) : t.peekWord a = s.peekWord a := by
  cases h
  rfl

/-- The state after a JSR has pushed: the linkage register takes `pc`, and `pc` the target (R242). -/
def linkAndJump (r : Reg) (target : Word) (pushed : State) : State := (pushed.setReg r (pushed.reg .pc)).setReg .pc target

section linked

variable (target : Word) (pushed : State)

theorem linkAndJump_sp (hr : r ≠ .sp) : (linkAndJump r target pushed).reg .sp = pushed.reg .sp := by
  rw [linkAndJump, reg_setReg_ne _ (by decide), reg_setReg_ne _ hr.symm]

theorem linkAndJump_linkage (hr : r ≠ .pc) : (linkAndJump r target pushed).reg r = pushed.reg .pc := by
  rw [linkAndJump, reg_setReg_ne _ hr, reg_setReg]

theorem linkAndJump_peekWord {w : Word} (hw : ∀ q, Apart w (regAddr pushed.params q)) :
    (linkAndJump r target pushed).peekWord w = pushed.peekWord w :=
  (peekWord_setReg_apart (pushed.setReg r _) (hw .pc) target).trans (peekWord_setReg_apart pushed (hw r) _)

end linked

/-- A JSR that has completed has pushed. -/
theorem exec_jsr_running (hmode : dst.mode ≠ .register) (h : exec (.jsr r dst) s = .next t) (hrun : t.status = .running) :
    ∃ pushed, pushWord ((resolve dst (s.decoded false)).2.reg r) (resolve dst (s.decoded false)).2 = some pushed ∧
      complete (linkAndJump r (resolve dst (s.decoded false)).1 pushed) = .next t := by
  cases hpush : pushWord ((resolve dst (s.decoded false)).2.reg r) (resolve dst (s.decoded false)).2 with
  | none =>
    rw [exec_jsr_overflow s hmode hpush] at h
    cases h
    cases hrun
  | some pushed => exact ⟨pushed, rfl, (exec_jsr_pushed s hmode hpush).symm.trans h⟩

/-- What a JSR that pushed off the registers leaves for the RTS: `sp` at the slot, the old linkage register in it, and the return
address in the linkage register (R242). -/
theorem exec_jsr_linked (hmode : dst.mode ≠ .register) (hr : r ≠ .sp) (h : exec (.jsr r dst) s = .next t)
    (hrun : t.status = .running) (hslot : ∀ q, Apart (jsrSlot dst s) (regAddr s.params q)) :
    t.reg .sp = jsrSlot dst s ∧ t.peekWord (jsrSlot dst s) = (resolve dst (s.decoded false)).2.reg r ∧
      (r ≠ .pc → t.reg r = (resolve dst (s.decoded false)).2.reg .pc) := by
  obtain ⟨pushed, hpush, hend⟩ := exec_jsr_running hmode h hrun
  have hparams : (resolve dst (s.decoded false)).2.params = s.params := resolve_params (s.decoded false) dst
  have hpushed : pushed.params = s.params := (changesOnly_pushWord hpush).params.trans hparams
  have hslot' : ∀ q, Apart (jsrSlot dst s) (regAddr (resolve dst (s.decoded false)).2.params q) := by rwa [hparams]
  obtain ⟨hsp, hword⟩ := pushWord_sp_and_slot hpush (hslot' .sp)
  rw [hsp] at hword
  refine ⟨?_, ?_, fun hpc => ?_⟩
  · rw [complete_reg hend, linkAndJump_sp _ _ hr, hsp, jsrSlot]
  · rw [complete_peekWord hend, linkAndJump_peekWord _ _ (by rwa [hpushed]), jsrSlot, hword]
  · rw [complete_reg hend, linkAndJump_linkage _ _ hpc, pushWord_reg hpush hslot' (by decide)]

end callAndReturn

/-- Settles O55: the RTS finds the return address in the linkage register, and the old linkage register in the slot; for `RTS PC`
the slot holds the return address. -/
theorem returnUndoesCall : Obligations.ReturnUndoesCall := by
  intro r dst s t v hv hmode hr hsteppedSp hsteppedLink h hrun hslot hparams hlink hsp hword
  have hold : jsrSlot dst s = s.reg .sp - 2#16 := congrArg (· - 2#16) (resolve_reg (s.decoded false) hsteppedSp)
  obtain ⟨htsp, htword, htlink⟩ := exec_jsr_linked hmode hr h hrun (by rwa [hold])
  rw [hsp, htsp] at hword
  have hreturned : (linkageInPc r v).peekWord ((linkageInPc r v).reg .sp) = (resolve dst (s.decoded false)).2.reg r := by
    rw [linkageInPc, reg_setReg_ne v (by decide), hsp, htsp, peekWord_setReg_apart v, hword, htword]
    rw [hold, hparams]
    exact hslot .pc
  obtain ⟨w, hw⟩ : ∃ w, complete (afterRts r v) = .next w := ⟨_, rfl⟩
  refine ⟨w, (exec_rts r v).trans hw, ?_, ?_, fun hpc => ?_⟩
  · rw [complete_reg hw]
    by_cases hpc : r = .pc
    · subst hpc
      rw [afterRts_linkage, hreturned]
    · rw [afterRts_pc v hpc, hlink hpc, htlink hpc]
  · rw [complete_reg hw, afterRts_sp v hr, hsp, htsp, hold, BitVec.sub_add_cancel]
  · rw [complete_reg hw, afterRts_linkage, hreturned, resolve_reg (s.decoded false) (hsteppedLink hpc), decoded_reg]

end Sys2Proof.Machine
end

section
/-! The statements on the step as a whole: what it runs, what it leaves, and the invariant (R140 to R149, R252 to R254, R266). -/

namespace Sys2Proof.Machine

variable {s t : State}

/-! ## The fetch (R141) -/

theorem fetchInstruction_snd :
    (fetchInstruction s).2 = (s.note .instructionFetch (s.reg .pc)).setReg .pc (s.reg .pc + 2#16) :=
  congrArg ((s.note .instructionFetch (s.reg .pc)).setReg .pc) (congrArg (· + 2#16) (note_reg s _ _ .pc))

theorem changesOnly_fetchInstruction : ChangesOnly s (fetchInstruction s).2 (InWord · (regAddr s.params .pc)) := by
  have hset := changesOnly_setReg (s.note .instructionFetch (s.reg .pc)) .pc (s.reg .pc + 2#16)
  rw [note_params, ← fetchInstruction_snd] at hset
  exact hset.after_note

theorem fetchInstruction_pc : (fetchInstruction s).2.reg .pc = s.reg .pc + 2#16 := by
  rw [fetchInstruction_snd, reg_setReg]

theorem fetchInstruction_reg {q : Reg} (hq : q ≠ .pc) : (fetchInstruction s).2.reg q = s.reg q :=
  changesOnly_fetchInstruction.reg (regAddr_apart s.params hq)

theorem fetchInstruction_psw (hv : s.params.Valid) : (fetchInstruction s).2.psw = s.psw :=
  changesOnly_fetchInstruction.psw (regAddr_apart_psw hv .pc).symm

theorem fetchInstruction_trace :
    (fetchInstruction s).2.trace = s.trace ++ visible s.params [⟨.instructionFetch, s.reg .pc⟩] := by
  rw [fetchInstruction_snd, setReg_trace, note_trace]

/-- Settles O47: the two bytes make the word the step fetches, and the meaning runs in the fetched state. -/
theorem stepRunsTheDecodedInstruction : Obligations.StepRunsTheDecodedInstruction := by
  intro s i hrun hdecode fetched
  have hword : decodeWord (s.peekWord (s.reg .pc)) = .instr i := by
    have hbytes : decode [s.peek (s.reg .pc), s.peek (s.reg .pc + 1#16)] =
      match decodeWord (s.peekWord (s.reg .pc)) with
      | .instr i => .instr i []
      | .reject why => .reject why := rfl
    rw [hbytes] at hdecode
    split at hdecode <;> cases hdecode
    assumption
  have hstep : step s = endOutcome (exec i fetched) := by rw [step_of_instr hrun hword, fetchInstruction_snd]
  exact ⟨hstep, fun t ht => by rw [hstep, ht]; rfl⟩

/-! ## Steps from terminal states (R140, R266) -/

/-- Settles O50, by induction on the number of steps. -/
theorem terminalStatesStay : Obligations.TerminalStatesStay := by
  intro s t k hterminal
  induction k with
  | zero => exact eq_comm
  | succ k ih =>
    constructor
    · rintro ⟨u, hu, hreach⟩
      obtain rfl : s = u := Host.Outcome.next.inj ((step_of_terminal hterminal).symm.trans hu)
      exact ih.mp hreach
    · intro ht
      exact ⟨s, step_of_terminal hterminal, ih.mpr ht⟩

/-- A step that runs an instruction ends, in `endStep`, what the meaning answers. -/
theorem step_instr_cases {i : Instr} (hrun : s.status.terminal = false) (hword : decodeWord (s.peekWord (s.reg .pc)) = .instr i)
    (h : step s = .next t) : ∃ u, exec i (fetchInstruction s).2 = .next u ∧ t = endStep u := by
  obtain ⟨u, hu, -⟩ := exec_status (fetchInstruction s).2 i
  rw [step_of_instr hrun hword, hu] at h
  exact ⟨u, hu, (Host.Outcome.next.inj h).symm⟩

/-! ## Illegal instructions (R254, R262) -/

/-- The state in which a step ends that raises the fault in `s`. -/
def illegalEnd (s : State) : State := endStep { s.decoded false with status := .faulted .illegalInstruction }

theorem illegalEnd_reg (s : State) (r : Reg) : (illegalEnd s).reg r = s.reg r := rfl
theorem illegalEnd_psw (s : State) : (illegalEnd s).psw = s.psw := rfl
theorem illegalEnd_peek (s : State) (a : Word) : (illegalEnd s).peek a = s.peek a := rfl
theorem illegalEnd_trace (s : State) : (illegalEnd s).trace = s.trace := rfl
theorem endOutcome_illegalInstruction (s : State) : endOutcome (illegalInstruction s) = .next (illegalEnd s) := rfl

/-- A rejected word raises the fault after the fetch. -/
theorem step_reject {why : Reject} (hrun : s.status.terminal = false)
    (hwhy : decodeWord (s.peekWord (s.reg .pc)) = .reject why) : step s = .next (illegalEnd (fetchInstruction s).2) := by
  rw [step_of_reject hrun hwhy, endOutcome_illegalInstruction]

/-- JMP and JSR with a register-direct operand raise the fault that a rejected word raises (R98). -/
theorem step_registerJump {r q : Reg} (hrun : s.status.terminal = false)
    (h : decodeWord (s.peekWord (s.reg .pc)) = .instr (.jmp ⟨.register, q⟩) ∨
      decodeWord (s.peekWord (s.reg .pc)) = .instr (.jsr r ⟨.register, q⟩)) :
    step s = .next (illegalEnd (fetchInstruction s).2) := by
  rcases h with hjmp | hjsr
  · rw [step_of_instr hrun hjmp, exec_jmp_register _ rfl]
    rfl
  · rw [step_of_instr hrun hjsr, exec_jsr_register _ rfl]
    rfl

/-- Settles O48: the fault keeps the fetched state, which differs in `pc` and the fetch event only. -/
theorem illegalInstructionChangesNothingElse : Obligations.IllegalInstructionChangesNothingElse := by
  intro s hv hrun h
  have hstep : step s = .next (illegalEnd (fetchInstruction s).2) := by
    rcases h with ⟨why, hwhy⟩ | ⟨r, q, hjump⟩
    · exact step_reject hrun hwhy
    · exact step_registerJump hrun hjump
  refine ⟨_, hstep, rfl, ?_, fun q hq => ?_, ?_, fun a ha => ?_, ?_⟩
  · rw [illegalEnd_reg, fetchInstruction_pc]
  · rw [illegalEnd_reg, fetchInstruction_reg hq]
  · rw [illegalEnd_psw, fetchInstruction_psw hv]
  · rw [illegalEnd_peek, changesOnly_fetchInstruction.bytes a ha]
  · rw [illegalEnd_trace, fetchInstruction_trace]

/-! ## The invariant (R7, R35, R38) -/

theorem changesOnly_afterBranch (off : BitVec 8) (taken : Bool) :
    ChangesOnly (s.decoded false) (afterBranch s off taken) (InWord · (regAddr s.params .pc)) := by
  cases taken with
  | false => exact (ChangesOnly.refl (s.decoded false)).withStatus .running |>.mono fun _ => False.elim
  | true => exact (changesOnly_setReg (s.decoded false) .pc (branchTarget s off)).withStatus .running

/-- The branches (R221 to R235). -/
def branchesBy (off : BitVec 8) : List Instr :=
  [.br off, .bne off, .beq off, .bge off, .blt off, .bgt off, .ble off, .bpl off, .bmi off, .bhi off, .blos off, .bvc off,
    .bvs off, .bcc off, .bcs off]

theorem exec_branch {i : Instr} {off : BitVec 8} (hi : i ∈ branchesBy off) (s : State) :
    ∃ taken, exec i s = .next (afterBranch s off taken) := by
  simp only [branchesBy, List.mem_cons, List.not_mem_nil, or_false] at hi
  rcases hi with rfl | rfl | rfl | rfl | rfl | rfl | rfl | rfl | rfl | rfl | rfl | rfl | rfl | rfl | rfl
  · exact ⟨_, branchIf_decoded (fun _ => true) off s⟩
  all_goals exact ⟨_, branchIf_decoded _ off s⟩

theorem exec_branch_changesOnly {i : Instr} {off : BitVec 8} (h : exec i s = .next t) (hi : i ∈ branchesBy off) :
    ChangesOnly (s.decoded false) t (InWord · (regAddr s.params .pc)) := by
  obtain ⟨taken, htaken⟩ := exec_branch hi s
  obtain rfl : afterBranch s off taken = t := Host.Outcome.next.inj (htaken.symm.trans h)
  exact changesOnly_afterBranch off taken

theorem flagOperation_changesOnly {u : FlagUpdate} (h : flagOperation u s = .next t) :
    ChangesOnly s t (InWord · s.params.pswAddr) := (changesOnly_setPsw s _).complete h

theorem exec_control_changesOnly {i : Instr} (h : exec i s = .next t) (hi : i ∈ [.halt, .wait, .reset]) :
    ChangesOnly (s.decoded false) t noByte := by
  simp only [List.mem_cons, List.not_mem_nil, or_false] at hi
  rcases hi with rfl | rfl | rfl
  all_goals
    cases h
    exact (ChangesOnly.refl (s.decoded false)).withStatus _

/-- Every instruction keeps the parameters and the canonical form, whatever bytes it changes. -/
theorem exec_changesOnly {i : Instr} (h : exec i s = .next t) : ∃ touched, ChangesOnly (s.decoded i.isByte) t touched := by
  cases i
  case mov src dst | bic src dst | bis src dst | add src dst | sub src dst =>
    exact ⟨_, (changesOnly_destinationWord s src dst).trans (exec_wordPair_dataEnd h (by simp)).changesOnly⟩
  case movb src dst => exact ⟨_, (changesOnly_destinationByte s src dst).trans (moveByte_dataEnd h).changesOnly⟩
  case bicb src dst | bisb src dst =>
    exact ⟨_, (changesOnly_destinationByte s src dst).trans (exec_bytePair_dataEnd h (by simp)).changesOnly⟩
  case cmp src dst | bit src dst | cmpb src dst | bitb src dst =>
    exact ⟨_, (changesOnly_afterResolves s _ src dst).trans (exec_compare_dataEnd h (by simp)).changesOnly⟩
  case clr dst | com dst | inc dst | dec dst | neg dst | adc dst | sbc dst | swab dst =>
    exact ⟨_, (changesOnly_resolve _ dst).trans (exec_wordSingle_dataEnd h (by simp)).changesOnly⟩
  case clrb dst | comb dst | incb dst | decb dst | negb dst | adcb dst | sbcb dst =>
    exact ⟨_, (changesOnly_resolve _ dst).trans (exec_byteSingle_dataEnd h (by simp)).changesOnly⟩
  case tst dst | tstb dst => exact ⟨_, (changesOnly_resolve _ dst).trans (exec_test_dataEnd h (by simp)).changesOnly⟩
  case clc | clv | clz | cln | sec | sev | sez | sen => exact ⟨_, flagOperation_changesOnly h⟩
  case br off | bne off | beq off | bge off | blt off | bgt off | ble off | bpl off | bmi off | bhi off | blos off | bvc off
      | bvs off | bcc off | bcs off => exact ⟨_, exec_branch_changesOnly (off := off) h (by simp [branchesBy])⟩
  case jmp => exact ⟨_, exec_jmp_changesOnly h⟩
  case jsr => exact ⟨_, exec_jsr_changesOnly h⟩
  case rts => exact ⟨_, exec_rts_changesOnly h⟩
  case halt | wait | reset => exact ⟨_, exec_control_changesOnly h (by simp)⟩

/-- A step that is taken ends, in `endStep`, a state whose parameters and canonical form are kept. -/
theorem step_ends (hrun : s.status.terminal = false) (h : step s = .next t) :
    ∃ u, t = endStep u ∧ u.params = s.params ∧ (s.memOk → u.memOk) := by
  have hfetch := changesOnly_fetchInstruction (s := s)
  cases hword : decodeWord (s.peekWord (s.reg .pc)) with
  | reject why =>
    rw [step_reject hrun hword] at h
    cases h
    exact ⟨_, rfl, hfetch.params, hfetch.memOk⟩
  | instr i =>
    obtain ⟨u, hu, rfl⟩ := step_instr_cases hrun hword h
    obtain ⟨touched, hexec⟩ := exec_changesOnly hu
    exact ⟨u, rfl, hexec.params.trans hfetch.params, hexec.memOk ∘ hfetch.memOk⟩

/-- Settles O56: a step that is taken writes the advisory bit from the `pc` it leaves. -/
theorem stepKeepsTheInvariant : Obligations.StepKeepsTheInvariant := by
  intro s t hinv h
  cases hrun : s.status.terminal with
  | true =>
    obtain rfl : s = t := Host.Outcome.next.inj ((step_of_terminal hrun).symm.trans h)
    exact ⟨hinv, rfl⟩
  | false =>
    obtain ⟨u, rfl, hparams, hmem⟩ := step_ends hrun h
    exact ⟨⟨hparams.symm ▸ hinv.params, hmem hinv.memory, rfl⟩, hparams⟩

/-! ## The status word (R149) -/

theorem exec_psw_of_control {i : Instr} {off : BitVec 8} {d : Specifier} {r : Reg} (hv : s.params.Valid)
    (h : exec i s = .next t) (hi : i ∈ branchesBy off ++ [Instr.jmp d, Instr.rts r, Instr.halt, Instr.wait, Instr.reset]) :
    t.psw = s.psw := by
  rcases List.mem_append.mp hi with hbranch | hcontrol
  · exact (exec_branch_changesOnly h hbranch).psw (regAddr_apart_psw hv .pc).symm
  rcases List.mem_cons.mp hcontrol with rfl | hcontrol
  · exact (exec_jmp_changesOnly h).psw fun _ => JmpBytes.not_psw hv
  rcases List.mem_cons.mp hcontrol with rfl | hstatus
  · exact (exec_rts_changesOnly h).psw fun _ => RtsBytes.not_psw hv
  · exact (exec_control_changesOnly h hstatus).psw fun _ _ => id

/-- A JSR that faults has written nothing, or what its resolve writes. -/
theorem exec_jsr_psw {r : Reg} {d : Specifier} (hv : s.params.Valid) (h : exec (.jsr r d) s = .next t)
    (hkept : t.isFaulted ∨ Apart s.params.pswAddr (jsrSlot d s)) : t.psw = s.psw := by
  rcases hkept with hfault | hslot
  · by_cases hmode : d.mode = .register
    · rw [exec_jsr_register s hmode] at h
      cases h
      rfl
    cases hpush : pushWord ((resolve d (s.decoded false)).2.reg r) (resolve d (s.decoded false)).2 with
    | none =>
      rw [exec_jsr_overflow s hmode hpush] at h
      cases h
      exact resolve_psw (s.decoded false) hv d
    | some pushed =>
      rw [exec_jsr_pushed s hmode hpush] at h
      cases h
      obtain ⟨kind, hkind⟩ := hfault
      cases hkind
  · exact (exec_jsr_changesOnly h).psw fun _ => JsrBytes.not_psw hv hslot

/-- Settles O51: the fetch and each of these meanings change only bytes that are not of the status word. -/
theorem statusWordKept : Obligations.StatusWordKept := by
  intro s hv
  have hfetch := fetchInstruction_psw hv
  have hvalid : (fetchInstruction s).2.params.Valid := fetchInstruction_params.symm ▸ hv
  refine ⟨hfetch, resolve_psw s hv, fun t h hrun => ?_⟩
  refine ⟨fun why hwhy => ?_, fun i off d r hword hi => ?_, fun d r hword hkept => ?_⟩
  · rw [step_reject hrun hwhy] at h
    cases h
    exact (illegalEnd_psw _).trans hfetch
  · obtain ⟨u, hu, rfl⟩ := step_instr_cases hrun hword h
    exact (exec_psw_of_control hvalid hu hi).trans hfetch
  · obtain ⟨u, hu, rfl⟩ := step_instr_cases hrun hword h
    rw [← fetchInstruction_params] at hkept
    exact (exec_jsr_psw hvalid hu hkept).trans hfetch

end Sys2Proof.Machine
end

section
/-! The statements on what influences nothing: the trace so far, the advisory bit, `Reset` against `Running` and `BYTEMODE` (R33 to
R37, R65, R252). A state with those recast runs as the state itself does. -/

namespace Sys2Proof.Machine

/-- The state with `earlier` events before its own, and other values of the advisory bit and of `STATE`. -/
def State.recast (s : State) (earlier : List TraceEvent) (odd : Bool) (status : Status) : State :=
  { s with trace := earlier ++ s.trace, advisoryOddPc := odd, status := status }

section recast

variable (s : State) (earlier : List TraceEvent) (odd : Bool) (status : Status)

/-! ## Each operation on the array and the trace does on a recast state what it does on the state -/

@[simp] theorem recast_params : (s.recast earlier odd status).params = s.params := rfl
@[simp] theorem recast_byteMode : (s.recast earlier odd status).byteMode = s.byteMode := rfl
@[simp] theorem recast_peek (a : Word) : (s.recast earlier odd status).peek a = s.peek a := rfl
@[simp] theorem recast_peekWord (a : Word) : (s.recast earlier odd status).peekWord a = s.peekWord a := rfl
@[simp] theorem recast_reg (r : Reg) : (s.recast earlier odd status).reg r = s.reg r := rfl
@[simp] theorem recast_flags : (s.recast earlier odd status).flags = s.flags := rfl

@[simp] theorem recast_decoded (b : Bool) :
    (s.recast earlier odd status).decoded b = (s.decoded b).recast earlier odd status := rfl
@[simp] theorem recast_setReg (r : Reg) (v : Word) :
    (s.recast earlier odd status).setReg r v = (s.setReg r v).recast earlier odd status := rfl
@[simp] theorem recast_setFlags (u : FlagUpdate) :
    (s.recast earlier odd status).setFlags u = (s.setFlags u).recast earlier odd status := rfl
@[simp] theorem recast_advancePc :
    advancePc (s.recast earlier odd status) = (advancePc s).recast earlier odd status := rfl

@[simp] theorem recast_note (k : AccessKind) (a : Word) :
    (s.recast earlier odd status).note k a = (s.note k a).recast earlier odd status := by
  unfold State.note
  rw [recast_params]
  split
  · rfl
  · simp only [State.recast, List.append_assoc]

@[simp] theorem recast_memWriteWord (a v : Word) :
    memWriteWord a v (s.recast earlier odd status) = (memWriteWord a v s).recast earlier odd status :=
  recast_note (s.pokeWord a v) earlier odd status .write a

@[simp] theorem recast_opWriteWord (a v : Word) :
    opWriteWord a v (s.recast earlier odd status) = (opWriteWord a v s).recast earlier odd status :=
  recast_memWriteWord s earlier odd status a v

@[simp] theorem recast_memWriteByte (a : Word) (b : Byte) :
    memWriteByte a b (s.recast earlier odd status) = (memWriteByte a b s).recast earlier odd status :=
  recast_note (s.poke a b) earlier odd status .write a

@[simp] theorem recast_opWriteByte (extend : Bool) (a : Word) (b : Byte) :
    opWriteByte extend a b (s.recast earlier odd status) = (opWriteByte extend a b s).recast earlier odd status := by
  cases hreg : isReg s.params a <;> cases extend <;> simp [opWriteByte, hreg]

/-- A resolve answers the same address, and the state recast. -/
@[simp] theorem recast_resolve (d : Specifier) :
    resolve d (s.recast earlier odd status) = ((resolve d s).1, (resolve d s).2.recast earlier odd status) := by
  unfold resolve
  cases d.mode <;> simp [memReadWord]

/-! ## The orders of the instructions -/

/-- The recast of an answer: an instruction that has written `STATE` leaves of the recast the trace and the advisory bit. -/
def recastAnswer (earlier : List TraceEvent) (odd : Bool) : Host.Outcome State Fault Refusal → Host.Outcome State Fault Refusal
  | .next t => .next (t.recast earlier odd t.status)
  | .fault r => .fault r
  | .refused r => .refused r

@[simp] theorem recast_complete :
    complete (s.recast earlier odd status) = recastAnswer earlier odd (complete s) := rfl
@[simp] theorem recast_raise (k : FaultKind) :
    raise k (s.recast earlier odd status) = recastAnswer earlier odd (raise k s) := rfl

@[simp] theorem recast_opReadWord (a : Word) :
    opReadWord a (s.recast earlier odd status) = ((opReadWord a s).1, (opReadWord a s).2.recast earlier odd status) := by
  simp [opReadWord, memReadWord]

@[simp] theorem recast_opReadByte (a : Word) :
    opReadByte a (s.recast earlier odd status) = ((opReadByte a s).1, (opReadByte a s).2.recast earlier odd status) :=
  Prod.ext (by simp) (by simp)

@[simp] theorem recast_sourceWord (d : Specifier) :
    sourceWord d (s.recast earlier odd status) = ((sourceWord d s).1, (sourceWord d s).2.recast earlier odd status) := by
  simp [sourceWord]

@[simp] theorem recast_sourceByte (d : Specifier) :
    sourceByte d (s.recast earlier odd status) = ((sourceByte d s).1, (sourceByte d s).2.recast earlier odd status) := by
  simp [sourceByte]

@[simp] theorem recast_movbExtends (d : Specifier) : movbExtends (s.recast earlier odd status) d = movbExtends s d := rfl

theorem recast_pushWord (v : Word) :
    pushWord v (s.recast earlier odd status) = (pushWord v s).map (State.recast · earlier odd status) := by
  simp only [pushWord_eq, recast_reg, recast_params, recast_setReg, recast_memWriteWord]
  split <;> rfl

theorem recast_branchIf (cond : Flags → Bool) (off : BitVec 8) :
    branchIf cond off (s.recast earlier odd status) = recastAnswer earlier odd (branchIf cond off s) := by
  unfold branchIf
  rw [recast_flags]
  split <;> simp

theorem recast_execJmp (dst : Specifier) :
    execJmp dst (s.recast earlier odd status) = recastAnswer earlier odd (execJmp dst s) := by
  unfold execJmp
  split <;> simp [illegalInstruction]

theorem recast_execJsr (r : Reg) (dst : Specifier) :
    execJsr r dst (s.recast earlier odd status) = recastAnswer earlier odd (execJsr r dst s) := by
  unfold execJsr
  split
  · simp [illegalInstruction]
  · simp only [recast_decoded, recast_resolve, recast_reg, recast_pushWord]
    cases pushWord ((resolve dst (s.decoded false)).2.reg r) (resolve dst (s.decoded false)).2 <;> simp

theorem recast_execRts (r : Reg) :
    execRts r (s.recast earlier odd status) = recastAnswer earlier odd (execRts r s) := by
  simp [execRts, popWord_fst, popWord_snd]

/-- No meaning looks at the trace so far, at the advisory bit or at `STATE`. -/
theorem exec_recast (i : Instr) : exec i (s.recast earlier odd status) = recastAnswer earlier odd (exec i s) := by
  cases i
  case mov => simp [exec, execMov, moveWord]
  case movb => simp [exec, execMovb, moveByte]
  case cmp | bit => simp [exec, execCmp, execBit, compareWord]
  case cmpb | bitb => simp [exec, execCmpb, execBitb, compareByte]
  case bic | bis | add | sub => simp [exec, execBic, execBis, execAdd, execSub, binaryWord]
  case bicb | bisb => simp [exec, execBicb, execBisb, binaryByte]
  case clr => simp [exec, execClr, clearWord]
  case clrb => simp [exec, execClrb, clearByte]
  case tst => simp [exec, execTst, testWord]
  case tstb => simp [exec, execTstb, testByte]
  case com | inc | dec | neg | adc | sbc | swab =>
    simp [exec, execCom, execInc, execDec, execNeg, execAdc, execSbc, execSwab, unaryWord]
  case comb | incb | decb | negb | adcb | sbcb =>
    simp [exec, execComb, execIncb, execDecb, execNegb, execAdcb, execSbcb, unaryByte]
  case clc | clv | clz | cln | sec | sev | sez | sen => rfl
  case br off => exact recast_branchIf (s.decoded false) earlier odd status (fun _ => true) off
  case bne off | beq off | bge off | blt off | bgt off | ble off | bpl off | bmi off | bhi off | blos off | bvc off | bvs off
      | bcc off | bcs off => exact recast_branchIf (s.decoded false) earlier odd status _ off
  case jmp dst => exact recast_execJmp s earlier odd status dst
  case jsr r dst => exact recast_execJsr s earlier odd status r dst
  case rts r => exact recast_execRts s earlier odd status r
  case halt | wait | reset => rfl

/-! ## The step -/

theorem recast_fetchInstruction : fetchInstruction (s.recast earlier odd status) =
    ((fetchInstruction s).1, (fetchInstruction s).2.recast earlier odd status) := by
  simp [fetchInstruction, fetchWord]

/-- Decode, execution and the end of the step of a recast state: only the earlier events are still to be seen. -/
theorem recast_decodeAndExecute {t : State} {ir : Word} (h : decodeAndExecute ir s = .next t) :
    decodeAndExecute ir (s.recast earlier odd status) = .next { t with trace := earlier ++ t.trace } := by
  unfold decodeAndExecute at h ⊢
  cases hword : decodeWord ir with
  | reject why =>
    simp only [hword] at h ⊢
    cases h
    rfl
  | instr i =>
    simp only [hword, exec_recast] at h ⊢
    obtain ⟨u, hu, -⟩ := exec_status s i
    rw [hu] at h ⊢
    cases h
    rfl

end recast

variable {s t : State}

theorem step_of_running (hrun : s.status.terminal = false) :
    step s = decodeAndExecute (fetchInstruction s).1 (fetchInstruction s).2 := by
  simp [step, hrun]

/-- A step of a recast state answers what the step of the state does, after the earlier events. -/
theorem step_recast {status : Status} (earlier : List TraceEvent) (odd : Bool) (hrun : s.status.terminal = false)
    (hstatus : status.terminal = false) (h : step s = .next t) :
    step (s.recast earlier odd status) = .next { t with trace := earlier ++ t.trace } := by
  rw [step_of_running hrun] at h
  rw [step_of_running (s := s.recast earlier odd status) hstatus, recast_fetchInstruction]
  exact recast_decodeAndExecute _ earlier odd status h

/-- Settles O52: a state is the one without a trace, recast with its own trace, and as well with any other. -/
theorem traceIsWriteOnly : Obligations.TraceIsWriteOnly := by
  intro s
  cases hrun : s.status.terminal with
  | true => exact ⟨s, [], step_of_terminal hrun, (List.append_nil _).symm, fun earlier => by
      rw [List.append_nil]
      exact step_of_terminal (s := { s with trace := earlier }) hrun⟩
  | false =>
    obtain ⟨-, hdiagram⟩ := stateDiagram
    obtain ⟨t, ht, -⟩ := hdiagram { s with trace := [] }
    have hstep : ∀ earlier, step { s with trace := earlier } = .next { t with trace := earlier ++ t.trace } := by
      intro earlier
      have hrecast := step_recast (s := { s with trace := [] }) earlier s.advisoryOddPc hrun hrun ht
      simp only [State.recast, List.append_nil] at hrecast
      exact hrecast
    exact ⟨_, t.trace, hstep s.trace, rfl, hstep⟩

/-! ## `BYTEMODE` (R33, R142) -/

theorem note_decoded (k : AccessKind) (a : Word) (b : Bool) : (s.decoded b).note k a = (s.note k a).decoded b := by
  unfold State.note
  rw [decoded_params]
  split <;> rfl

theorem decoded_decoded (b c : Bool) : (s.decoded b).decoded c = s.decoded c := rfl

theorem advancePc_decoded (b : Bool) : advancePc (s.decoded b) = (advancePc s).decoded b := rfl

/-- Decode overwrites `BYTEMODE` before any meaning looks at it. -/
theorem exec_decoded (i : Instr) (b : Bool) : exec i (s.decoded b) = exec i s := by
  cases i
  case jsr => simp only [exec, execJsr, illegalInstruction, decoded_decoded]
  case rts => simp only [exec, execRts, decoded_decoded, decoded_reg]
  all_goals rfl

theorem fetchInstruction_decoded (b : Bool) :
    fetchInstruction (s.decoded b) = ((fetchInstruction s).1, (fetchInstruction s).2.decoded b) := by
  simp only [fetchInstruction, fetchWord, decoded_reg, decoded_peekWord, note_decoded, advancePc_decoded]

theorem decodeAndExecute_decoded (ir : Word) (b : Bool) : decodeAndExecute ir (s.decoded b) = decodeAndExecute ir s := by
  unfold decodeAndExecute
  simp only [exec_decoded]
  rfl

theorem step_decoded (b : Bool) (hrun : s.status.terminal = false) : step (s.decoded b) = step s := by
  rw [step_of_running hrun, step_of_running (s := s.decoded b) hrun, fetchInstruction_decoded, decodeAndExecute_decoded]

/-- Settles O53: the state with the three changed is the state with another `BYTEMODE`, recast without earlier events. -/
theorem byteModeAndAdvisoryNeverCarry : Obligations.ByteModeAndAdvisoryNeverCarry := by
  intro s b odd hrun
  obtain ⟨-, hdiagram⟩ := stateDiagram
  obtain ⟨t, ht, -⟩ := hdiagram s
  rw [← step_decoded b hrun] at ht
  have hrecast := step_recast (status := .running) [] odd (s := s.decoded b) hrun rfl ht
  rw [step_decoded b hrun] at ht
  rw [ht]
  exact hrecast

/-! ## The control instructions (R250 to R252) -/

/-- Settles O39: each meaning writes `STATE` after decode's write; that a step goes on from `Reset` as from `Running` is the last
statement. -/
theorem controlInstructionsChangeOnlyTheProcessorState : Obligations.ControlInstructionsChangeOnlyTheProcessorState := by
  intro s
  simp only [List.forall_mem_cons, List.not_mem_nil, false_imp_iff, implies_true, and_true]
  exact ⟨⟨⟨encodedBy_opcodeRow .halt, rfl⟩, ⟨encodedBy_opcodeRow .wait, rfl⟩, encodedBy_opcodeRow .reset, rfl⟩,
    step_of_terminal rfl, step_of_terminal rfl,
    (byteModeAndAdvisoryNeverCarry { s with status := .reset } s.byteMode s.advisoryOddPc rfl).symm⟩

end Sys2Proof.Machine
end

section
/-! The statement on the branches after a compare (R163, R164, R222 to R235). -/

namespace Sys2Proof.Machine

section compared

variable {w : Nat} (x y : BitVec w)

/-- The flags of `x - y`, as CMP and CMPB set them (R163, R164). -/
def comparedFlags : Flags := ⟨(x - y).msb, x - y == 0#w, subOverflow x y, subBorrow x y⟩

/-- Z of the difference is equality. -/
theorem comparedFlags_z : (comparedFlags x y).z = decide (x = y) := by
  rw [comparedFlags, Bool.eq_iff_iff, beq_iff_eq, decide_eq_true_iff, BitVec.sub_eq_iff_eq_add, BitVec.zero_add]

theorem comparedFlags_c : (comparedFlags x y).c = decide (x.toNat < y.toNat) := rfl

/-- N exclusive or V of the difference is the signed order: with equal signs nothing overflows and N is the sign of the difference,
with different signs V is set exactly where N is the sign of `y`. -/
theorem comparedFlags_n_xor_v : ((comparedFlags x y).n ^^ (comparedFlags x y).v) = decide (x.toInt < y.toInt) := by
  have hx := BitVec.msb_eq_toInt (x := x)
  have hy := BitVec.msb_eq_toInt (x := y)
  by_cases hsign : x.msb = y.msb
  · have hnone : subOverflow x y = false := by simp [subOverflow, hsign]
    have hdiff : (x - y).toInt = x.toInt - y.toInt :=
      BitVec.toInt_sub_of_not_ssubOverflow (by simpa [subOverflow_eq_ssubOverflow] using hnone)
    simp only [comparedFlags, hnone, Bool.xor_false, BitVec.msb_eq_toInt, hdiff, decide_eq_decide]
    omega
  · have hxor : ((comparedFlags x y).n ^^ (comparedFlags x y).v) = x.msb := by
      simp only [comparedFlags, subOverflow]
      grind
    rw [hxor, hx, decide_eq_decide]
    grind

/-- Each condition on the flags of `x - y` is the order its name says. -/
theorem conditions_comparedFlags {f : Flags} (hf : f = comparedFlags x y) :
    (condEq f = true ↔ x = y) ∧ (condNe f = true ↔ x ≠ y) ∧
    (condLt f = true ↔ x.toInt < y.toInt) ∧ (condGe f = true ↔ y.toInt ≤ x.toInt) ∧
    (condGt f = true ↔ y.toInt < x.toInt) ∧ (condLe f = true ↔ x.toInt ≤ y.toInt) ∧
    (condCs f = true ↔ x.toNat < y.toNat) ∧ (condCc f = true ↔ y.toNat ≤ x.toNat) ∧
    (condHi f = true ↔ y.toNat < x.toNat) ∧ (condLos f = true ↔ x.toNat ≤ y.toNat) := by
  subst hf
  have hz := comparedFlags_z x y
  have hc := comparedFlags_c x y
  have hlt := comparedFlags_n_xor_v x y
  refine ⟨?_, ?_, ?_, ?_, ?_, ?_, ?_, ?_, ?_, ?_⟩
  · simp [condEq, hz]
  · simp [condNe, hz]
  · simp [condLt, hlt]
  · simp [condGe, hlt]
  · simp only [condGt, hlt, hz, Bool.not_eq_true', Bool.or_eq_false_iff, decide_eq_false_iff_not, ← BitVec.toInt_inj]
    omega
  · simp only [condLe, hlt, hz, Bool.or_eq_true, decide_eq_true_eq, ← BitVec.toInt_inj]
    omega
  · simp [condCs, hc]
  · simp [condCc, hc]
  · simp only [condHi, hc, hz, Bool.not_eq_true', Bool.or_eq_false_iff, decide_eq_false_iff_not, ← BitVec.toNat_inj]
    omega
  · simp only [condLos, hc, hz, Bool.or_eq_true, decide_eq_true_eq, ← BitVec.toNat_inj]
    omega

/-- A compare ends with the flags of the difference, and so with the conditions of the order. -/
theorem endsWith_compareFlags (u : State) :
    ∃ t, complete (u.setFlags (compareFlags x y)) = .next t ∧ t.flags = comparedFlags x y := by
  obtain ⟨t, ht, hends⟩ := endsWith_setFlags u (compareFlags x y)
  exact ⟨t, ht, hends.flags⟩

end compared

/-- Settles O46: both widths end with the flags of the difference of what was read. -/
theorem branchesAfterCompareTestTheOrder : Obligations.BranchesAfterCompareTestTheOrder := by
  intro src dst s
  constructor
  · intro x da y
    obtain ⟨t, ht, hflags⟩ := endsWith_compareFlags x.1 y.1 y.2
    exact ⟨t, ht, conditions_comparedFlags x.1 y.1 hflags⟩
  · intro x da y
    obtain ⟨t, ht, hflags⟩ := endsWith_compareFlags x.1 y.1 y.2
    exact ⟨t, ht, conditions_comparedFlags x.1 y.1 hflags⟩

end Sys2Proof.Machine
end

section
/-! The statements on the load and on reset (R39, R290 to R293), and the words the spec writes out. -/

namespace Sys2Proof.Machine

/-! ## The load (R292) -/

/-- What the loader carries at the start (R292). -/
def loadStart (launch : State) : Loading := ⟨launch.setReg .sp launch.params.spInit, 0, none⟩

/-- What the loader carries after the directives of an image. -/
def loaded (image : List Directive) (launch : State) : Loading := image.foldl loadDirective (loadStart launch)

theorem loadImage_eq (image : List Directive) (launch : State) : loadImage image launch =
    match (loaded image launch).entry with
    | none => .refused .imageWithoutEntry
    | some e => .next (enterProgram e (loaded image launch).state) := rfl

theorem loadDirective_params (l : Loading) (d : Directive) : (loadDirective l d).state.params = l.state.params := by
  cases d <;> rfl

theorem foldl_params (image : List Directive) (l : Loading) :
    (image.foldl loadDirective l).state.params = l.state.params := by
  induction image generalizing l with
  | nil => rfl
  | cons d image ih => exact (ih _).trans (loadDirective_params l d)

theorem loaded_params (image : List Directive) (launch : State) : (loaded image launch).state.params = launch.params :=
  foldl_params image (loadStart launch)

/-- Only `SetEntry` writes the entry. -/
theorem foldl_entry {image : List Directive} (h : ∀ e, .setEntry e ∉ image) (l : Loading) :
    (image.foldl loadDirective l).entry = l.entry := by
  induction image generalizing l with
  | nil => rfl
  | cons d image ih =>
    have hd : (loadDirective l d).entry = l.entry := by
      cases d with
      | setEntry e => exact absurd List.mem_cons_self (h e)
      | setOrigin a => rfl
      | storeWord v => rfl
    exact (ih (fun e he => h e (List.mem_cons_of_mem d he)) _).trans hd

/-- Only a store writes the array. -/
theorem foldl_state {image : List Directive} (h : ∀ x, .storeWord x ∉ image) (l : Loading) :
    (image.foldl loadDirective l).state = l.state := by
  induction image generalizing l with
  | nil => rfl
  | cons d image ih =>
    have hd : (loadDirective l d).state = l.state := by
      cases d with
      | storeWord v => exact absurd List.mem_cons_self (h v)
      | setOrigin a => rfl
      | setEntry e => rfl
    exact (ih (fun x hx => h x (List.mem_cons_of_mem d hx)) _).trans hd

theorem loaded_append (before after : List Directive) (launch : State) :
    loaded (before ++ after) launch = after.foldl loadDirective (loaded before launch) := List.foldl_append

/-- An image whose last `SetEntry` is there is entered at it (R292). -/
theorem loadImage_of_entry {image : List Directive} {launch : State} {e : Word} (h : (loaded image launch).entry = some e) :
    loadImage image launch = .next (enterProgram e (loaded image launch).state) := by
  rw [loadImage_eq, h]

theorem enterProgram_pc (e : Word) (s : State) : (enterProgram e s).reg .pc = e := reg_setReg s .pc e

theorem enterProgram_reg {q : Reg} (hq : q ≠ .pc) (e : Word) (s : State) : (enterProgram e s).reg q = s.reg q :=
  reg_setReg_ne s hq e

theorem enterProgram_peek {s : State} {c : Word} (hc : ¬ InWord c (regAddr s.params .pc)) (e : Word) :
    (enterProgram e s).peek c = s.peek c := peek_setReg_outside s hc

/-- Settles O59: the directives after the last `SetEntry` leave the entry. -/
theorem loadEntersAtTheLastEntry : Obligations.LoadEntersAtTheLastEntry := by
  intro before after launch hafter
  constructor
  · rw [loadImage_eq, show (loaded after launch).entry = none from foldl_entry hafter _]
  · intro e
    have hentry : (loaded (before ++ [Directive.setEntry e] ++ after) launch).entry = some e := by
      rw [loaded_append, foldl_entry hafter, loaded_append]
      rfl
    exact ⟨_, loadImage_of_entry hentry, enterProgram_pc e _, rfl, rfl, rfl, rfl, loaded_params _ launch⟩

/-- An image that ends with `SetEntry` is entered there, with the array as its other directives leave it. -/
theorem loadImage_append_setEntry (image : List Directive) (launch : State) (e : Word) :
    loadImage (image ++ [Directive.setEntry e]) launch = .next (enterProgram e (loaded image launch).state) := by
  rw [loadImage_of_entry (e := e)] <;> rw [loaded_append] <;> rfl

/-- The same of an image with two stores before its `SetEntry`. -/
theorem loadImage_twoStores (image : List Directive) (launch : State) (a v w e : Word) :
    loadImage (image ++ [Directive.setOrigin a, Directive.storeWord v, Directive.storeWord w, Directive.setEntry e]) launch =
      .next (enterProgram e
        (loaded (image ++ [Directive.setOrigin a, Directive.storeWord v, Directive.storeWord w]) launch).state) := by
  rw [← loadImage_append_setEntry]
  simp only [List.append_assoc, List.cons_append, List.nil_append]

/-- Two stores after an origin write the words there and two bytes on. -/
theorem loaded_twoStores (image : List Directive) (launch : State) (a v w : Word) :
    (loaded (image ++ [Directive.setOrigin a, Directive.storeWord v, Directive.storeWord w]) launch).state =
      ((loaded image launch).state.pokeWord a v).pokeWord (a + 2#16) w := by
  simp only [loaded_append, List.foldl_cons, List.foldl_nil, loadDirective]

theorem peek_twoStores (s : State) (a v w c : Word) : ((s.pokeWord a v).pokeWord (a + 2#16) w).peek c =
    if c = a + 3#16 then hiByte w else if c = a + 2#16 then loByte w
      else if c = a + 1#16 then hiByte v else if c = a then loByte v else s.peek c := by
  rw [peek_pokeWord, peek_pokeWord, BitVec.add_assoc]
  rfl

/-- Off `pc` the entered state holds the bytes the directives left. -/
theorem enterProgram_loaded_peek {image : List Directive} {launch : State} {c : Word}
    (hpc : ¬ InWord c (regAddr launch.params .pc)) (e : Word) :
    (enterProgram e (loaded image launch).state).peek c = (loaded image launch).state.peek c :=
  enterProgram_peek (by rwa [loaded_params]) e

/-- Settles O60: an image without stores leaves the array of the start, the stores go where the cursor stands, and the cursor
starts at 0. -/
theorem loadStoresInOrder : Obligations.LoadStoresInOrder := by
  intro image launch t e a v w h
  rw [loadImage_append_setEntry] at h
  cases h
  refine ⟨fun hstore => ?_, ?_, rfl⟩
  · have hstate : (loaded image launch).state = launch.setReg .sp launch.params.spInit := foldl_state hstore _
    refine ⟨?_, fun c hsp hpc => ?_⟩
    · rw [enterProgram_reg (by decide), hstate, reg_setReg]
    · rw [enterProgram_loaded_peek hpc, hstate, peek_setReg_outside launch hsp]
  · refine ⟨_, loadImage_twoStores image launch a v w e, fun c hpc => ?_⟩
    rw [enterProgram_loaded_peek hpc, enterProgram_loaded_peek hpc, loaded_twoStores]
    exact peek_twoStores _ a v w c

/-! ## Reset (R7, R39) -/

/-- The default parameters meet the constraints of R7. -/
theorem valid_default : Params.default.Valid := by
  constructor <;> decide

/-- Settles O57: the defaults are within the constraints, and the two cells of SP are in canonical form. -/
theorem resetMeetsTheInvariant : Obligations.ResetMeetsTheInvariant := ⟨valid_default, by decide, by decide⟩

/-- Settles O58, field by field. -/
theorem resetHasTheStatedValues : Obligations.ResetHasTheStatedValues :=
  ⟨rfl, rfl, by decide, by decide, rfl, rfl, rfl, rfl, rfl⟩

/-! ## Words of the spec's examples (R161 to R254) -/

/-- Settles O1: each word, decoded. -/
theorem specWordsDecode : Obligations.SpecWordsDecode := by
  unfold Obligations.SpecWordsDecode
  decide

end Sys2Proof.Machine
end
